-- ==== Sys2Proof/Word.lean ====
section
/-! DEFINITION. The words of the block (00_scope R7): every value is an unsigned bit vector of a stated width. -/

namespace Sys2Proof

/-- A byte (R7). -/
abbrev Byte := BitVec 8

/-- A 16-bit word (R7): a flash word, a length, a transfer size. -/
abbrev Half := BitVec 16

/-- A 32-bit value: an address, a byte counter, the magic. -/
abbrev Word := BitVec 32

end Sys2Proof
end

