-- ==== Sys2Proof/Config.lean ====
section
/-! DEFINITION. The implementation parameters of 00_scope R6, one structure of plain data that the state carries
(notes/assumptions/1.md), and the free values, which are constants without a body. -/

namespace Sys2Proof

/-- `ADDR_W`: "16 or 32 bit depending on target memory size" (R6). -/
inductive AddrWidth
  | w16
  | w32
  deriving DecidableEq, Repr

/-- The number of bits of an address register (R6, R10). -/
def AddrWidth.bits : AddrWidth → Nat
  | .w16 => 16
  | .w32 => 32

/-- The 17 opcode parameters `OP_*` (30_encoding R78). -/
structure Opcodes where
  signOn : Byte
  getParameter : Byte
  enterProgmode : Byte
  leaveProgmode : Byte
  setParameter : Byte
  readSignature : Byte
  readLock : Byte
  readFuse : Byte
  programLock : Byte
  chipErase : Byte
  loadAddress : Byte
  setUploadSize : Byte
  programFlash : Byte
  programEeprom : Byte
  readFlash : Byte
  readEeprom : Byte
  spiMulti : Byte
  deriving DecidableEq, Repr

/-- The opcodes in the order of R78. -/
def Opcodes.toList (o : Opcodes) : List Byte :=
  [o.signOn, o.getParameter, o.enterProgmode, o.leaveProgmode, o.setParameter, o.readSignature, o.readLock, o.readFuse,
    o.programLock, o.chipErase, o.loadAddress, o.setUploadSize, o.programFlash, o.programEeprom, o.readFlash,
    o.readEeprom, o.spiMulti]

/-- The parameter ids `PARAM_*` and their constant values `PVAL_*` (41_cmd_ident_ack R129). -/
structure Parameters where
  buildLowId : Byte
  buildLow : Byte
  buildHighId : Byte
  buildHigh : Byte
  hwVerId : Byte
  hwVer : Byte
  swMajorId : Byte
  swMajor : Byte
  swMinorId : Byte
  swMinor : Byte
  deriving DecidableEq, Repr

/-- The layout of the descriptor in RAM (46_self_update R229): each `DESC_*` as the number of bytes below `RAMTOP`,
each `FLG_*` as a bit position. -/
structure MailboxLayout where
  ramTop : Nat
  source : Nat
  destination : Nat
  size : Nat
  flags : Nat
  magic : Nat
  flgErase : Nat
  flgCopy : Nat
  flgFlash : Nat
  flgRun : Nat
  deriving DecidableEq, Repr

/-- The configuration a model takes as an argument (R6). `OUTER_TIMEOUT` and `RX_TIMEOUT` bound the two poll counters,
which are "not time-modelled" (R6, 10_state R28), so no step reads them (notes/assumptions/26.md). -/
structure Config where
  addrWidth : AddrWidth
  flashSize : Nat
  pageSize : Nat
  boundary : Nat
  eepromSize : Nat
  msgBufSize : Nat
  start : Byte
  token : Byte
  statusOk : Byte
  statusFailed : Byte
  opcodes : Opcodes
  signOnString : List Byte
  params : Parameters
  signature : BitVec 24
  erasedByte : Byte
  erasedWord : Half
  spiMultiPresent : Bool
  outerTimeout : Nat
  rxTimeout : Nat
  magic : Word
  mailbox : MailboxLayout
  deriving DecidableEq, Repr

/-- The opcodes the dispatcher compares (30_encoding R80): `OP_SPI_MULTI` only when the handler exists. -/
def Config.recognised (c : Config) : List Byte :=
  if c.spiMultiPresent then c.opcodes.toList else c.opcodes.toList.dropLast

/-- The relations among the parameters. Stated by the spec: `PAGE_SIZE` is a power of two and at least 2,
`FLASH_SIZE` and `BOUNDARY` are multiples of it, `0 < BOUNDARY ≤ FLASH_SIZE` (R6), the opcodes are pairwise different
(R78), the two status bytes differ (R77). DEDUCED (notes/assumptions/2.md): `BOUNDARY` is an `ADDR_W`-bit value, the
EEPROM is not empty, the buffer's length fits the 16-bit `len`, the string's length fits its byte, and `MAGIC` is
not the cleared pattern. -/
abbrev Config.Wf (c : Config) : Prop :=
  2 ≤ c.pageSize ∧ 2 ^ Nat.log2 c.pageSize = c.pageSize ∧
  c.flashSize % c.pageSize = 0 ∧ c.boundary % c.pageSize = 0 ∧
  0 < c.boundary ∧ c.boundary ≤ c.flashSize ∧ c.boundary < 2 ^ c.addrWidth.bits ∧
  0 < c.eepromSize ∧ c.msgBufSize < 2 ^ 16 ∧
  c.opcodes.toList.Nodup ∧ c.statusOk ≠ c.statusFailed ∧
  c.signOnString.length < 2 ^ 8 ∧ c.magic ≠ 0

/-- The ranges of the five fields of the mailbox do not overlap, lie below `RAMTOP`, and the four flag bits are
different bits of one byte: what the layout of R229 has to satisfy for a descriptor to be stored at all. -/
abbrev MailboxLayout.Wf (l : MailboxLayout) : Prop :=
  ((List.range 4).map (l.ramTop - l.source + ·) ++ (List.range 4).map (l.ramTop - l.destination + ·) ++
    (List.range 2).map (l.ramTop - l.size + ·) ++ [l.ramTop - l.flags] ++
    (List.range 4).map (l.ramTop - l.magic + ·)).Nodup ∧
  [l.flgErase, l.flgCopy, l.flgFlash, l.flgRun].Nodup ∧
  l.flgErase < 8 ∧ l.flgCopy < 8 ∧ l.flgFlash < 8 ∧ l.flgRun < 8

/-- A byte the spec leaves unspecified: a blocked flash read (20_memory R57), a page-buffer slot after a fill at an
odd address (93 U3). Applied to the number of values drawn so far; no value of it can be proved. -/
opaque Config.freeByte : Nat → Byte

/-- A 16-bit value the spec leaves unspecified: the descriptor's size after a replay (46_self_update R226). -/
opaque Config.freeHalf : Nat → Half

/-- A 32-bit value the spec leaves unspecified: the descriptor's addresses after a replay (46_self_update R226). -/
opaque Config.freeWord : Nat → Word

/-- A bit the spec leaves unspecified: the indicator while the block waits and in the loop (92 D33), a flag of the
descriptor after a replay (46_self_update R226). -/
opaque Config.freeBit : Nat → Bool

end Sys2Proof
end

