-- ==== Sys2Proof/Syntax.lean ====
section
/-! DEFINITION. The commands (00_scope R9), one constructor per row of spec/opcode_table.json, and the two places a
command is fetched from: the message buffer and the descriptor mailbox. -/

namespace Sys2Proof

/-- The four flags of the descriptor (10_state R32). -/
structure ReplayFlags where
  eraseDestination : Bool
  copyData : Bool
  sourceIsProgramMemory : Bool
  deferRun : Bool
  deriving DecidableEq, Repr

/-- The `SelfUpdateDescriptor` as a typed record (10_state R32, 46_self_update R229). -/
structure Descriptor where
  sourceAddress : Word
  destinationAddress : Word
  remainingSize : Half
  flags : ReplayFlags
  magic : Word
  deriving DecidableEq, Repr

/-- The commands of 30_encoding R78 with the operands of R81, the default row, and the replay of 46_self_update R216.
`data` is what the buffer holds of the `size` bytes the command names; it is shorter than `size` only when the
request reaches beyond the buffer (93 U6). -/
inductive Instr
  /-- `SIGN_ON`, R126. -/
  | signOn
  /-- `GET_PARAMETER`, R128. -/
  | getParameter (id : Byte)
  /-- `ENTER_PROGMODE`, R130. -/
  | enterProgmode
  /-- `LEAVE_PROGMODE`, R132. -/
  | leaveProgmode
  /-- `SET_PARAMETER`, R134: its arguments are ignored. -/
  | setParameter
  /-- `READ_SIGNATURE`, R140. -/
  | readSignature (index : Byte)
  /-- `READ_LOCK`, R143. -/
  | readLock
  /-- `READ_FUSE`, R145. -/
  | readFuse (sel0 sel1 : Byte)
  /-- `PROGRAM_LOCK`, R148. -/
  | programLock (req : Byte)
  /-- `CHIP_ERASE`, R160. -/
  | chipErase
  /-- `LOAD_ADDRESS`, R163: a word address. -/
  | loadAddress (waddr : Word)
  /-- `SET_UPLOAD_SIZE`, R166. -/
  | setUploadSize (total : BitVec 24)
  /-- `PROGRAM_FLASH`, R181. -/
  | programFlash (size : Half) (data : List Byte)
  /-- `PROGRAM_EEPROM`, R191. -/
  | programEeprom (size : Half) (data : List Byte)
  /-- `READ_FLASH`, R201. -/
  | readFlash (size : Half)
  /-- `READ_EEPROM`, R208. -/
  | readEeprom (size : Half)
  /-- `SPI_MULTI`, R152. -/
  | spiMulti (sub sidx : Byte)
  /-- `UNRECOGNISED`, R136: any opcode no other row matches. -/
  | unrecognised (op : Byte)
  /-- `SELF_UPDATE_REPLAY`, R216: a descriptor whose magic is `MAGIC`. -/
  | selfUpdateReplay (source destination : Word) (size : Half) (flags : ReplayFlags)
  deriving DecidableEq, Repr

/-- Where a command stands when it is decoded: a request payload in the message buffer (30_encoding R75), or the
descriptor in the mailbox (46_self_update R216). -/
inductive Fetch
  | request (payload : List Byte)
  | mailbox (desc : Descriptor)
  deriving DecidableEq, Repr

/-- A request followed by further bytes: what the buffer holds beyond it (30_encoding R89). -/
def Fetch.followedBy : Fetch → List Byte → Fetch
  | .request p, tail => .request (p ++ tail)
  | .mailbox d, _ => .mailbox d

end Sys2Proof
end

