-- ==== Sys2Proof/WellFormed.lean ====
section
/-! DEFINITION. Well-formed commands (30_encoding R92): the request and its reply fit the buffer, the data is as long
as `size` says, and the opcode selects the command (R80, 42_cmd_device R151). -/

namespace Sys2Proof

/-- The least request length of a command (30_encoding R92); the replay is no request. -/
def Instr.leastLen : Instr → Nat
  | .signOn | .enterProgmode | .leaveProgmode | .setParameter | .readLock | .chipErase | .unrecognised _ => 1
  | .getParameter _ => 2
  | .readFlash _ | .readEeprom _ => 3
  | .readFuse _ _ | .setUploadSize _ => 4
  | .readSignature _ | .programLock _ | .loadAddress _ => 5
  | .spiMulti _ _ => 7
  | .programFlash size _ | .programEeprom size _ => 10 + size.toNat
  | .selfUpdateReplay _ _ _ _ => 0

/-- The length of the reply payload (30_encoding R82); the replay sends none. -/
def Instr.replyLen (c : Config) : Instr → Nat
  | .signOn => 3 + c.signOnString.length
  | .getParameter _ => 3
  | .readSignature _ | .readLock | .readFuse _ _ => 4
  | .programLock _ => 3
  | .readFlash size | .readEeprom size => size.toNat + 3
  | .spiMulti _ _ => 7
  | .enterProgmode | .leaveProgmode | .setParameter | .chipErase | .loadAddress _ | .setUploadSize _
  | .programFlash _ _ | .programEeprom _ _ | .unrecognised _ => 2
  | .selfUpdateReplay _ _ _ _ => 0

/-- The part of R92, R80 and R151 that concerns the operands themselves. -/
def Instr.operandsWf (c : Config) : Instr → Bool
  | .programFlash size data => data.length == size.toNat
  | .programEeprom size data => data.length == size.toNat
  | .spiMulti _ _ => c.spiMultiPresent
  | .unrecognised op => !c.recognised.contains op
  | .signOn | .getParameter _ | .enterProgmode | .leaveProgmode | .setParameter | .readSignature _ | .readLock
  | .readFuse _ _ | .programLock _ | .chipErase | .loadAddress _ | .setUploadSize _ | .readFlash _ | .readEeprom _
  | .selfUpdateReplay _ _ _ _ => true

/-- A well-formed command (R92): its operands are, and both its request and its reply fit the buffer. -/
abbrev Instr.Wf (c : Config) (i : Instr) : Prop :=
  i.operandsWf c = true ∧ i.leastLen ≤ c.msgBufSize ∧ i.replyLen c ≤ c.msgBufSize

end Sys2Proof
end

