-- ==== Sys2Proof/Decode.lean ====
section
/-! DEFINITION. The decoder of 30_encoding sections 3, 4 and 6 (opcode map, argument offsets, assembly of arguments),
the encoder written from the same rows, the spec's default constants, and the layout of the descriptor in RAM. -/

namespace Sys2Proof

/-! ## Bytes of a wider value -/

/-- Byte `k` of a value, byte 0 the least significant. -/
def byteOf {n : Nat} (v : BitVec n) (k : Nat) : Byte := v.extractLsb' (8 * k) 8

/-- A 16-bit value from its high and low byte (30_encoding R83, R86). -/
def halfOf (hi lo : Byte) : Half := hi ++ lo

/-- A 24-bit value from its three bytes, most significant first (30_encoding R85). -/
def tripleOf (b2 b1 b0 : Byte) : BitVec 24 := b2 ++ (b1 ++ b0)

/-- A 32-bit value from its four bytes, most significant first (30_encoding R84). -/
def wordOf (b3 b2 b1 b0 : Byte) : Word := b3 ++ (b2 ++ (b1 ++ b0))

/-! ## Decoding -/

/-- Why nothing is decoded. -/
inductive Reject
  /-- An operand's offset lies outside the message buffer (20_memory R46, 93 U6). -/
  | operandOutsideBuffer (offset : Nat)
  /-- The descriptor's magic is not `MAGIC`: no update is pending (46_self_update R216, 60_exceptions R244). -/
  | noUpdatePending
  deriving DecidableEq, Repr

/-- Reads the operand byte at a payload offset. -/
def operandByte (m : List Byte) (offset : Nat) (k : Byte → Except Reject Instr) : Except Reject Instr :=
  match m[offset]? with
  | some b => k b
  | none => .error (.operandOutsideBuffer offset)

/-- The 16-bit big-endian `size` at offsets 1 and 2 (30_encoding R86). -/
def operandSize (m : List Byte) (k : Half → Except Reject Instr) : Except Reject Instr :=
  operandByte m 1 fun hi => operandByte m 2 fun lo => k (halfOf hi lo)

/-- The data bytes of a program command: offsets 10 to 9 + size (30_encoding R81), as far as the buffer holds them. -/
def operandData (m : List Byte) (size : Half) : List Byte := (m.drop 10).take size.toNat

/-- The command in the message buffer (30_encoding R80, R81): the opcode at offset 0 selects the command and nothing
else does (R75); operands beyond the received length are read from what the buffer holds (R92). -/
def decodeRequest (c : Config) (m : List Byte) : Except Reject Instr :=
  operandByte m 0 fun op =>
  if op = c.opcodes.signOn then .ok .signOn
  else if op = c.opcodes.getParameter then operandByte m 1 fun id => .ok (.getParameter id)
  else if op = c.opcodes.enterProgmode then .ok .enterProgmode
  else if op = c.opcodes.leaveProgmode then .ok .leaveProgmode
  else if op = c.opcodes.setParameter then .ok .setParameter
  else if op = c.opcodes.readSignature then operandByte m 4 fun index => .ok (.readSignature index)
  else if op = c.opcodes.readLock then .ok .readLock
  else if op = c.opcodes.readFuse then
    operandByte m 2 fun sel0 => operandByte m 3 fun sel1 => .ok (.readFuse sel0 sel1)
  else if op = c.opcodes.programLock then operandByte m 4 fun req => .ok (.programLock req)
  else if op = c.opcodes.chipErase then .ok .chipErase
  else if op = c.opcodes.loadAddress then
    operandByte m 1 fun b3 => operandByte m 2 fun b2 => operandByte m 3 fun b1 => operandByte m 4 fun b0 =>
      .ok (.loadAddress (wordOf b3 b2 b1 b0))
  else if op = c.opcodes.setUploadSize then
    operandByte m 1 fun b0 => operandByte m 2 fun b1 => operandByte m 3 fun b2 =>
      .ok (.setUploadSize (tripleOf b2 b1 b0))
  else if op = c.opcodes.programFlash then operandSize m fun size => .ok (.programFlash size (operandData m size))
  else if op = c.opcodes.programEeprom then operandSize m fun size => .ok (.programEeprom size (operandData m size))
  else if op = c.opcodes.readFlash then operandSize m fun size => .ok (.readFlash size)
  else if op = c.opcodes.readEeprom then operandSize m fun size => .ok (.readEeprom size)
  else if op = c.opcodes.spiMulti ∧ c.spiMultiPresent = true then
    operandByte m 4 fun sub => operandByte m 6 fun sidx => .ok (.spiMulti sub sidx)
  else .ok (.unrecognised op)

/-- The replay the mailbox asks for (46_self_update R216): trusted on the magic alone. -/
def decodeMailbox (c : Config) (d : Descriptor) : Except Reject Instr :=
  if d.magic = c.magic then .ok (.selfUpdateReplay d.sourceAddress d.destinationAddress d.remainingSize d.flags)
  else .error .noUpdatePending

/-- The decoder, total on any buffer and any descriptor. -/
def decode (c : Config) : Fetch → Except Reject Instr
  | .request m => decodeRequest c m
  | .mailbox d => decodeMailbox c d

/-! ## Encoding -/

/-- A command as the host sends it, at its least length with zero in the bytes no rule reads (30_encoding R81, R94),
or as the application leaves it in the mailbox. -/
def encode (c : Config) : Instr → Fetch
  | .signOn => .request [c.opcodes.signOn]
  | .getParameter id => .request [c.opcodes.getParameter, id]
  | .enterProgmode => .request [c.opcodes.enterProgmode]
  | .leaveProgmode => .request [c.opcodes.leaveProgmode]
  | .setParameter => .request [c.opcodes.setParameter]
  | .readSignature index => .request [c.opcodes.readSignature, 0, 0, 0, index]
  | .readLock => .request [c.opcodes.readLock]
  | .readFuse sel0 sel1 => .request [c.opcodes.readFuse, 0, sel0, sel1]
  | .programLock req => .request [c.opcodes.programLock, 0, 0, 0, req]
  | .chipErase => .request [c.opcodes.chipErase]
  | .loadAddress waddr =>
    .request [c.opcodes.loadAddress, byteOf waddr 3, byteOf waddr 2, byteOf waddr 1, byteOf waddr 0]
  | .setUploadSize total => .request [c.opcodes.setUploadSize, byteOf total 0, byteOf total 1, byteOf total 2]
  | .programFlash size data =>
    .request ([c.opcodes.programFlash, byteOf size 1, byteOf size 0, 0, 0, 0, 0, 0, 0, 0] ++ data)
  | .programEeprom size data =>
    .request ([c.opcodes.programEeprom, byteOf size 1, byteOf size 0, 0, 0, 0, 0, 0, 0, 0] ++ data)
  | .readFlash size => .request [c.opcodes.readFlash, byteOf size 1, byteOf size 0]
  | .readEeprom size => .request [c.opcodes.readEeprom, byteOf size 1, byteOf size 0]
  | .spiMulti sub sidx => .request [c.opcodes.spiMulti, 0, 0, 0, sub, 0, sidx]
  | .unrecognised op => .request [op]
  | .selfUpdateReplay source destination size flags => .mailbox ⟨source, destination, size, flags, c.magic⟩

/-! ## The spec's default constants -/

/-- The default opcodes of 30_encoding R78. -/
def defaultOpcodes : Opcodes where
  signOn := 0x01
  getParameter := 0x03
  enterProgmode := 0x10
  leaveProgmode := 0x11
  setParameter := 0x02
  readSignature := 0x1B
  readLock := 0x1A
  readFuse := 0x18
  programLock := 0x19
  chipErase := 0x12
  loadAddress := 0x06
  setUploadSize := 0x50
  programFlash := 0x13
  programEeprom := 0x15
  readFlash := 0x14
  readEeprom := 0x16
  spiMulti := 0x1D

/-- The default parameter table of 41_cmd_ident_ack R129. -/
def defaultParameters : Parameters where
  buildLowId := 0x80
  buildLow := 0x00
  buildHighId := 0x81
  buildHigh := 0x00
  hwVerId := 0x90
  hwVer := 0x0F
  swMajorId := 0x91
  swMajor := 0x02
  swMinorId := 0x92
  swMinor := 0x0A

/-- The default mailbox layout of 46_self_update R229. The spec gives no `RAMTOP`; 0x200 is a DESIGN CHOICE
(notes/assumptions/24.md) that no step reads. -/
def defaultMailbox : MailboxLayout where
  ramTop := 0x200
  source := 16
  destination := 12
  size := 8
  flags := 5
  magic := 4
  flgErase := 0
  flgCopy := 1
  flgFlash := 2
  flgRun := 3

/-- The configuration of the machine that `State.reset` describes: the default constants of 00_scope R6 and the
geometry of CFG-TINY, the one configuration the spec writes out (44_cmd_program, 95_test_vectors). DESIGN CHOICE
(notes/assumptions/1.md): every parameter is OPEN, so no statement rests on this value. -/
def defaultConfig : Config where
  addrWidth := .w32
  flashSize := 0x40
  pageSize := 8
  boundary := 0x30
  eepromSize := 16
  msgBufSize := 285
  start := 0x1B
  token := 0x0E
  statusOk := 0x00
  statusFailed := 0xC0
  opcodes := defaultOpcodes
  signOnString := [0x41, 0x56, 0x52, 0x49, 0x53, 0x50, 0x5F, 0x32]
  params := defaultParameters
  signature := 0x1E9801
  erasedByte := 0xFF
  erasedWord := 0xFFFF
  spiMultiPresent := true
  outerTimeout := 0xFFFF
  rxTimeout := 0xFFFF
  magic := 0x55AA55AA
  mailbox := defaultMailbox

/-! ## The descriptor in RAM -/

/-- The flags byte of a descriptor (46_self_update R229). -/
def flagsByte (l : MailboxLayout) (f : ReplayFlags) : Byte :=
  (if f.eraseDestination then 1#8 <<< l.flgErase else 0) ||| (if f.copyData then 1#8 <<< l.flgCopy else 0) |||
    (if f.sourceIsProgramMemory then 1#8 <<< l.flgFlash else 0) ||| (if f.deferRun then 1#8 <<< l.flgRun else 0)

/-- The flags a byte stands for (46_self_update R229). -/
def flagsOfByte (l : MailboxLayout) (b : Byte) : ReplayFlags where
  eraseDestination := b.getLsbD l.flgErase
  copyData := b.getLsbD l.flgCopy
  sourceIsProgramMemory := b.getLsbD l.flgFlash
  deferRun := b.getLsbD l.flgRun

/-- The RAM bytes of a descriptor, fields little-endian (20_memory R52, 46_self_update R229). -/
def descriptorCells (l : MailboxLayout) (d : Descriptor) : List (Nat × Byte) :=
  (List.range 4).map (fun k => (l.ramTop - l.source + k, byteOf d.sourceAddress k)) ++
    (List.range 4).map (fun k => (l.ramTop - l.destination + k, byteOf d.destinationAddress k)) ++
    (List.range 2).map (fun k => (l.ramTop - l.size + k, byteOf d.remainingSize k)) ++
    [(l.ramTop - l.flags, flagsByte l d.flags)] ++
    (List.range 4).map (fun k => (l.ramTop - l.magic + k, byteOf d.magic k))

/-- The descriptor the bytes of RAM stand for (20_memory R52, 46_self_update R229). -/
def descriptorOfRam (l : MailboxLayout) (ram : Nat → Byte) : Descriptor where
  sourceAddress := wordAt (l.ramTop - l.source)
  destinationAddress := wordAt (l.ramTop - l.destination)
  remainingSize := halfOf (ram (l.ramTop - l.size + 1)) (ram (l.ramTop - l.size))
  flags := flagsOfByte l (ram (l.ramTop - l.flags))
  magic := wordAt (l.ramTop - l.magic)
where
  /-- A 32-bit little-endian field. -/
  wordAt (a : Nat) : Word := wordOf (ram (a + 3)) (ram (a + 2)) (ram (a + 1)) (ram a)

/-! ## The table's numbering -/

/-- The first `k` bytes of a number, bits 7..0 first: bytes in the order spec/opcode_table.json numbers them. -/
def bytesOfNat : Nat → Nat → List Byte
  | 0, _ => []
  | k + 1, w => BitVec.ofNat 8 w :: bytesOfNat k (w / 256)

/-- A message buffer of `size` bytes that begins with the table word `w` of `nbits` bits and is zero above it. -/
def tablePayload (size nbits w : Nat) : List Byte :=
  bytesOfNat size (w % 2 ^ nbits)

/-- The descriptor whose magic is a 32-bit table word, every other field zero. -/
def tableDescriptor (w : Nat) : Descriptor :=
  ⟨0, 0, 0, ⟨false, false, false, false⟩, BitVec.ofNat 32 w⟩

/-- Where a table word of `nbits` bits is fetched from: the row of 32 bits is the mailbox's magic, the others are
payload bytes (the "format" of spec/opcode_table.json). -/
def tableFetch (size nbits w : Nat) : Fetch :=
  if nbits = 32 then .mailbox (tableDescriptor w) else .request (tablePayload size nbits w)

/-- The instruction the decoder reads from a word of spec/opcode_table.json, under the default constants. -/
def decodeTableWord (nbits w : Nat) : Option Instr :=
  match decode defaultConfig (tableFetch defaultConfig.msgBufSize nbits w) with
  | .ok i => some i
  | .error _ => none

end Sys2Proof
end

