-- ==== Sys2Proof/Machine/State.lean ====
section
/-! DEFINITION. The state of the block (10_state), as plain data, the reasons a step stops, and the state after
reset. -/

namespace Sys2Proof.Machine

/-- Sparse bytes of one address space, by byte address: strictly rising addresses, no entry equal to what an unlisted
address reads as (Machine/Memory.lean says what that is). -/
abbrev Memory := List Host.Cell

/-- `phase` (10_state R24): which part has control. -/
inductive Phase
  | replay
  | wait
  | loop
  | handedOff
  deriving DecidableEq, Repr

/-- `fstate` (10_state R17): the Frame Decoder's state. -/
inductive FrameState
  | awaitStart
  | awaitSequence
  | awaitLengthHigh
  | awaitLengthLow
  | awaitToken
  | awaitPayloadByte
  | awaitChecksum
  | process
  deriving DecidableEq, Repr

/-- `operationKind` (10_state R14). -/
inductive OperationKind
  | none
  | write
  | verify
  deriving DecidableEq, Repr

/-- The three sources of a reset (70_reset R265). -/
inductive ResetCause
  | powerOn
  | external
  | watchdog
  deriving DecidableEq, Repr

/-- What the application does between a hand-off and the next reset, one write at a time (00_scope R5: it may fill the
descriptor "and the RAM or flash the descriptor points to", and it "owns the machine"; notes/assumptions/34.md). -/
inductive ApplicationEffect
  /-- It fills the self-update descriptor (10_state R32). -/
  | descriptor (d : Descriptor)
  /-- It writes a byte of RAM. -/
  | ram (a : Word) (b : Byte)
  /-- It changes a byte of flash. -/
  | flash (a : Word) (b : Byte)
  /-- It writes a byte of EEPROM. -/
  | eeprom (a : Half) (b : Byte)
  /-- It clears lock bits (42_cmd_device R147: "no bit is ever set"). -/
  | lockBits (v : Byte)
  deriving DecidableEq, Repr

/-- What the environment does while the block waits (60_exceptions R245; notes/assumptions/10.md). -/
inductive Event
  /-- The host's next byte is available (10_state R34). -/
  | byte (c : Byte)
  /-- A poll finds no byte and the counter has not passed its bound. -/
  | quiet
  /-- A poll finds no byte and the counter passes its bound: `OuterTimeout` in `Wait`, the receive guard in `Loop`
  (R246, R247). -/
  | expire
  /-- A reset arrives (70_reset R265). -/
  | reset (cause : ResetCause)
  /-- A reset arrives inside the command or the replay the next step runs (70_reset R277): while its device operation
  number `ops`, counted from 0, is under way, or, when it has no more than `ops` of them, after the last and after
  `sent` bytes of the reply (notes/assumptions/11.md). -/
  | resetInside (cause : ResetCause) (ops sent : Nat)
  /-- After the hand-off the application runs, leaves these effects, oldest first, and a reset arrives (00_scope R5,
  70_reset R265, R275). Where the application does not run it is a reset like `reset`. -/
  | applicationThenReset (did : List ApplicationEffect) (cause : ResetCause)
  deriving DecidableEq, Repr

/-- The state of the block and its inputs and outputs. Every field but `freeCount` is a piece of state the spec
names (INVENTORY.md, '## State'). -/
structure State where
  /-- The configuration (00_scope R6, 10_state R33); no step changes it. -/
  cfg : Config
  /-- R10, a byte address of `ADDR_W` bits. -/
  currentAddress : Word
  /-- R11, the byte address of the next page to erase, `ADDR_W` bits. -/
  eraseFrontier : Word
  /-- R12; 0 means none declared. -/
  totalUploadSize : Word
  /-- R13. -/
  bytesTransferred : Word
  /-- R14. -/
  operationKind : OperationKind
  /-- R24. -/
  phase : Phase
  /-- R17. -/
  fstate : FrameState
  /-- R18. -/
  seq : Byte
  /-- R19: the payload length received, then the reply length. -/
  len : Half
  /-- R20. -/
  idx : Half
  /-- R21. -/
  cksum : Byte
  /-- R22: `msg[0 .. MSG_BUF_SIZE-1]`. -/
  msg : List Byte
  /-- R23. -/
  exitFlag : Bool
  /-- R26: `pbuf[0 .. PAGE_SIZE-1]`. -/
  pbuf : List Byte
  /-- R27. -/
  rwwBlocked : Bool
  /-- R29. -/
  flash : Memory
  /-- R29. -/
  eeprom : Memory
  /-- R38, R45: read by the replay, never written. -/
  ram : Memory
  /-- R30. -/
  lockBits : Byte
  /-- R31. -/
  fuseLow : Byte
  /-- R31. -/
  fuseHigh : Byte
  /-- R31. -/
  fuseExt : Byte
  /-- R32: the mailbox, as a typed record. -/
  desc : Descriptor
  /-- R36: the status indicator, active or not. -/
  led : Bool
  /-- R38: the reset cause, watchdog or not. -/
  wdtReset : Bool
  /-- R38: the watchdog's enable flag, cleared early in boot. -/
  wdtEnable : Bool
  /-- R34, R245: what the environment does next, first event first; exhausted means a silent environment. -/
  env : List Event
  /-- R35: the bytes sent to the host, oldest first. -/
  tx : List Byte
  /-- The MODEL's own: how many free values were drawn (notes/assumptions/14.md). -/
  freeCount : Nat
  deriving DecidableEq, Repr

/-- Why the machine stops. -/
inductive Fault
  /-- A command forms an index of `msg[]` at or beyond `MSG_BUF_SIZE` (93 U6). Raised by the decoder's operand reads,
  by the program commands' data reads and by a reply that does not fit. Safe: the spec gives no effect. -/
  | msgIndexOutOfRange
  /-- The block has handed off and "executes no step" (70_reset R275). Raised by the step in `HandedOff` when no
  event is left. Safe: the application owns the machine. -/
  | handedOff
  deriving DecidableEq, Repr

/-- Why an instruction is refused. -/
inductive Refusal
  /-- The instruction has no meaning in this model. Raised by no arm of `exec`. Safe. -/
  | notModelled (mnemonic : String)
  deriving DecidableEq, Repr

/-- What one step answers. -/
abbrev Result := Host.Outcome State Fault Refusal

/-- The machine right after a power-on reset (10_state R39, 70_reset R266, R268) with the default configuration, a
device whose contents are those 95_test_vectors starts from, and an environment that does nothing. Values the spec
does not give: notes/assumptions/1.md, 3.md to 10.md, 14.md. -/
def State.reset : State where
  cfg := defaultConfig
  currentAddress := 0
  eraseFrontier := 0
  totalUploadSize := 0
  bytesTransferred := 0
  operationKind := .none
  phase := .wait
  fstate := .awaitStart
  seq := 0
  len := 0
  idx := 0
  cksum := 0
  msg := List.replicate defaultConfig.msgBufSize 0
  exitFlag := false
  pbuf := List.replicate defaultConfig.pageSize defaultConfig.erasedByte
  rwwBlocked := false
  flash := []
  eeprom := []
  ram := []
  lockBits := 0xFF
  fuseLow := 0xDE
  fuseHigh := 0xD8
  fuseExt := 0xFD
  desc := ⟨0, 0, 0, ⟨false, false, false, false⟩, 0⟩
  led := true
  wdtReset := false
  wdtEnable := false
  env := []
  tx := []
  freeCount := 0

end Sys2Proof.Machine
end

