-- ==== Sys2Proof/Machine/Operands.lean ====
section
/-! DEFINITION. What commands compute from their operands: addresses (20_memory sections 1 and 5), the constants of
the identity and device commands (41, 42). -/

namespace Sys2Proof.Machine

/-! ## Addresses -/

/-- `trunc_ADDR_W` (00_scope R7) of a value held in 32 bits. -/
def truncAddr (c : Config) (a : Word) : Word :=
  match c.addrWidth with
  | .w16 => (a.setWidth 16).setWidth 32
  | .w32 => a

/-- The base of the page that holds a byte address (20_memory R43). -/
def pageOf (c : Config) (a : Nat) : Nat := a - a % c.pageSize

/-- The flash byte an address names: beyond the array it is reduced modulo `FLASH_SIZE` (20_memory R59). -/
def flashIndex (c : Config) (a : Nat) : Nat := a % c.flashSize

/-- The EEPROM address of a step, the "half-width address derived from `currentAddress`" (20_memory R44). -/
def eepromAddress (a : Word) : Half := (a >>> 1).setWidth 16

/-- The EEPROM byte an address names: beyond the array it is reduced modulo `EEPROM_SIZE` (20_memory R59). -/
def eepromIndex (c : Config) (a : Half) : Nat := a.toNat % c.eepromSize

/-- The byte address of a word address (30_encoding R84). -/
def byteAddress (c : Config) (waddr : Word) : Word := truncAddr c (waddr <<< 1)

/-! ## Identity and device constants -/

/-- `ParamValue` (41_cmd_ident_ack R129): unknown ids give 0. The rule does not say which value an id shared by two rows
has: DESIGN CHOICE, the first row of its table (notes/assumptions/33.md). -/
def paramValue (p : Parameters) (id : Byte) : Byte :=
  if id = p.buildLowId then p.buildLow
  else if id = p.buildHighId then p.buildHigh
  else if id = p.hwVerId then p.hwVer
  else if id = p.swMajorId then p.swMajor
  else if id = p.swMinorId then p.swMinor
  else 0

/-- `SigByte` (42_cmd_device R141). -/
def sigByte (c : Config) (index : Byte) : Byte :=
  if index = 0 then c.signature.extractLsb' 16 8
  else if index = 1 then c.signature.extractLsb' 8 8
  else c.signature.extractLsb' 0 8

/-- The three fuse bytes (10_state R31). -/
inductive Fuse
  | low
  | high
  | ext
  deriving DecidableEq, Repr

/-- `FuseSelect` (42_cmd_device R146). -/
def fuseSelect (sel0 sel1 : Byte) : Fuse :=
  if sel0 = 0x50 then (if sel1 = 0x08 then .ext else .low) else .high

/-- `FuseRead` (42_cmd_device R144). -/
def State.fuseRead (s : State) : Fuse → Byte
  | .low => s.fuseLow
  | .high => s.fuseHigh
  | .ext => s.fuseExt

/-- `SpiAnswer` (42_cmd_device R153): the signature and two fuse reads, 0 for every other sub-command. -/
def State.spiAnswer (s : State) (sub sidx : Byte) : Byte :=
  if sub = 0x30 then sigByte s.cfg sidx
  else if sub = 0x50 then s.fuseRead .low
  else if sub = 0x58 then s.fuseRead .high
  else 0

/-- The mask of Program lock bits (00_scope R6, from the document). -/
def lockMask : Byte := 0x3C

/-- The bits Program lock bits clears (42_cmd_device R148): "Invert and mask the requested bits". -/
def lockRequest (req : Byte) : Byte := ~~~req &&& lockMask

end Sys2Proof.Machine
end

