-- ==== Sys2Proof/Machine/Flags.lean ====
section
/-! DEFINITION. The flags and progress registers (10_state R12 to R14, R23, R25): the block has no condition codes;
what it has is the session-exit flag, the operation kind and the progress counter. -/

namespace Sys2Proof.Machine

/-- The common part of the progress rules (44_cmd_program R184, 45_cmd_read R203): nothing without a declared total; a
packet at address 0 starts the counter and sets the kind; any other adds its size, modulo 2^32. -/
def State.progress (s : State) (kind : OperationKind) (a0 : Word) (size : Half) : State :=
  if s.totalUploadSize = 0 then s
  else if a0 = 0 then { s with bytesTransferred := size.setWidth 32, operationKind := kind }
  else { s with bytesTransferred := s.bytesTransferred + size.setWidth 32 }

/-- `ProgressOnWrite` (44_cmd_program R184). -/
def State.progressOnWrite (s : State) (a0 : Word) (size : Half) : State := s.progress .write a0 size

/-- `ProgressOnRead` (45_cmd_read R203). -/
def State.progressOnRead (s : State) (a0 : Word) (size : Half) : State := s.progress .verify a0 size

/-- Sets the session-exit flag (10_state R23); no rule clears it but a reset. -/
def State.setExit (s : State) : State := { s with exitFlag := true }

/-- What the display port shows (10_state R37): the kind, and the percentage when a total is declared; the product is
a natural number, so it does not wrap (92 D20). No step reads it. -/
def State.display (s : State) : OperationKind × Option Nat :=
  (s.operationKind,
    if s.totalUploadSize = 0 then none else some (100 * s.bytesTransferred.toNat / s.totalUploadSize.toNat))

end Sys2Proof.Machine
end

