-- ==== Sys2Proof/Machine/Ops.lean ====
section
/-! DEFINITION. The named operations over the state: free values, the reply in place, the flash and EEPROM primitives
(44_cmd_program section 1, 45_cmd_read), and the two exits, which are all the block has in place of exceptions
(60_exceptions R253). -/

namespace Sys2Proof.Machine

/-! ## Free values -/

/-- Draws the next free byte (notes/assumptions/14.md). -/
def State.drawByte (s : State) : Byte × State := (Config.freeByte s.freeCount, { s with freeCount := s.freeCount + 1 })

/-! ## The message buffer -/

/-- Writes bytes at consecutive indices of a buffer. -/
def overlay : List Byte → Nat → List Byte → List Byte
  | m, _, [] => m
  | m, i, b :: bs => overlay (m.set i b) (i + 1) bs

/-- The handler's contract (40_framer R113, 30_encoding R76): the opcode stays at `msg[0]`, the body (status first) is
written from `msg[1]` on, and the reply's length is handed back in `len`. A body beyond the buffer is U6. -/
def State.reply (s : State) (body : List Byte) : Result :=
  if 1 + body.length ≤ s.cfg.msgBufSize then
    .next { s with msg := overlay s.msg 1 body, len := BitVec.ofNat 16 (1 + body.length) }
  else .fault .msgIndexOutOfRange

/-! ## The address register -/

/-- `currentAddress + n`, modulo `2^ADDR_W` (30_encoding R93). -/
def State.advance (s : State) (n : Word) : State := { s with currentAddress := truncAddr s.cfg (s.currentAddress + n) }

/-! ## Flash -/

/-- Whether a flash read is unspecified (20_memory R57): the region is blocked and the byte belongs to the
application. -/
def State.readBlocked (s : State) (a : Nat) : Bool := s.rwwBlocked && decide (flashIndex s.cfg a < s.cfg.boundary)

/-- One byte of `MemRead(FLASH, a, 1)` (20_memory R41, 45_cmd_read R202): a free byte where R57 leaves it
unspecified. -/
def State.flashReadByte (s : State) (a : Nat) : Byte × State :=
  if s.readBlocked a then s.drawByte else (s.flash.read (flashIndex s.cfg a), s)

/-- `PageErase` (44_cmd_program R176). -/
def State.pageErase (s : State) (a : Nat) : State :=
  { s with
    flash := s.flash.writeBytes (pageOf s.cfg a) (List.replicate s.cfg.pageSize s.cfg.erasedByte)
    rwwBlocked := true }

/-- Every slot of the page buffer takes a free byte: what a fill at an odd address leaves (93 U3;
notes/assumptions/15.md). -/
def State.freePbuf (s : State) : State :=
  { s with
    pbuf := (List.range s.cfg.pageSize).map (fun k => Config.freeByte (s.freeCount + k))
    freeCount := s.freeCount + s.cfg.pageSize }

/-- `PageFill` (44_cmd_program R177) of the word `hi : lo`; its address is even, and what an odd one does is
unspecified (93 U3). -/
def State.pageFill (s : State) (a : Nat) (lo hi : Byte) : State :=
  if a % 2 = 0 then
    { s with pbuf := (s.pbuf.set (a % s.cfg.pageSize) lo).set (a % s.cfg.pageSize + 1) hi }
  else s.freePbuf

/-- The bytes a page takes from the buffer: old content and buffer (44_cmd_program R178). -/
def State.mergedPage (s : State) (base : Nat) : List Byte :=
  (List.range s.cfg.pageSize).map fun i => s.flash.read (base + i) &&& s.pbuf.getD i s.cfg.erasedByte

/-- The empty page buffer (10_state R26). -/
def emptyPbuf (c : Config) : List Byte := List.replicate c.pageSize c.erasedByte

/-- `PageWrite` (44_cmd_program R178). -/
def State.pageWrite (s : State) (a : Nat) : State :=
  { s with
    flash := s.flash.writeBytes (pageOf s.cfg a) (s.mergedPage (pageOf s.cfg a))
    pbuf := emptyPbuf s.cfg
    rwwBlocked := true }

/-- `RwwEnable` (44_cmd_program R179). -/
def State.rwwEnable (s : State) : State := { s with rwwBlocked := false, pbuf := emptyPbuf s.cfg }

/-! ## EEPROM and lock bits -/

/-- `EeWrite` (44_cmd_program R190). -/
def State.eeWrite (s : State) (a : Half) (b : Byte) : State :=
  { s with eeprom := s.eeprom.write (eepromIndex s.cfg a) b }

/-- `EeRead` (45_cmd_read R207). -/
def State.eeRead (s : State) (a : Half) : Byte := s.eeprom.read (eepromIndex s.cfg a)

/-- `LockSet` (42_cmd_device R147): clears bits, sets none. -/
def State.lockSet (s : State) (v : Byte) : State := { s with lockBits := s.lockBits &&& ~~~v }

/-! ## The exits -/

/-- `Handoff` (70_reset R275): terminal; control goes to the application at flash address zero. -/
def State.handoff (s : State) : State := { s with phase := .handedOff }

/-- `ExitToApplication` (70_reset R274): the indicator is deactivated, then the hand-off; nothing else changes. -/
def State.exitToApplication (s : State) : State := { s with led := false }.handoff

end Sys2Proof.Machine
end

