-- ==== Sys2Proof/Machine/Framer.lean ====
section
/-! DEFINITION. The frame decoder and the reply framer (40_framer sections 1 and 3, 30_encoding section 1). -/

namespace Sys2Proof.Machine

/-- The exclusive or of bytes (30_encoding R72). -/
def xorBytes (bs : List Byte) : Byte := bs.foldl (· ^^^ ·) 0

/-- A frame before its checksum (30_encoding R70). -/
def frameBody (c : Config) (seq : Byte) (len : Half) (payload : List Byte) : List Byte :=
  [c.start, seq, byteOf len 1, byteOf len 0, c.token] ++ payload

/-- A whole frame (30_encoding R70, R72), request or reply. -/
def frame (c : Config) (seq : Byte) (len : Half) (payload : List Byte) : List Byte :=
  frameBody c seq len payload ++ [xorBytes (frameBody c seq len payload)]

/-- `Decode(c)` (R102 to R108): one received byte. `Process` takes no byte. -/
def State.decodeByte (s : State) (c : Byte) : State :=
  match s.fstate with
  | .awaitStart => if c = s.cfg.start then { s with cksum := c, fstate := .awaitSequence } else s
  | .awaitSequence => { s with seq := c, cksum := s.cksum ^^^ c, fstate := .awaitLengthHigh }
  | .awaitLengthHigh => { s with len := halfOf c 0, cksum := s.cksum ^^^ c, fstate := .awaitLengthLow }
  | .awaitLengthLow =>
    let len := s.len ||| c.setWidth 16
    { s with
      len := len
      cksum := s.cksum ^^^ c
      fstate := if len = 0 ∨ s.cfg.msgBufSize < len.toNat then .awaitStart else .awaitToken }
  | .awaitToken =>
    if c = s.cfg.token then { s with cksum := s.cksum ^^^ c, idx := 0, fstate := .awaitPayloadByte }
    else { s with fstate := .awaitStart }
  | .awaitPayloadByte =>
    { s with
      msg := s.msg.set s.idx.toNat c
      idx := s.idx + 1
      cksum := s.cksum ^^^ c
      fstate := if s.idx + 1 = s.len then .awaitChecksum else .awaitPayloadByte }
  | .awaitChecksum => if c = s.cksum then { s with fstate := .process } else { s with fstate := .awaitStart }
  | .process => s

/-- `SendReply` (R117): the reply frame with the request's sequence number, over `msg[0 .. len-1]`. -/
def State.sendReply (s : State) : State :=
  { s with tx := s.tx ++ frame s.cfg s.seq s.len (s.msg.take s.len.toNat) }

/-- What `Process` does after the handler (R109, R119): the reply, the decoder's restart, the exit test. -/
def State.finishCommand (s : State) : State :=
  let t := { s.sendReply with fstate := .awaitStart }
  if t.exitFlag then t.exitToApplication else t

end Sys2Proof.Machine
end

