-- ==== Sys2Proof/Machine/Boot.lean ====
section
/-! DEFINITION. Reset, boot and the Boot Arbiter (70_reset_and_hazards sections 1 and 2, 60_exceptions section 6). -/

namespace Sys2Proof.Machine

/-- `ClearWatchdog` (10_state R38). -/
def State.clearWatchdog (s : State) : State := { s with wdtReset := false, wdtEnable := false }

/-- `NormalBoot` (70_reset R268): the indicator is activated and the first wait entered. -/
def State.normalBoot (s : State) : State := { s.clearWatchdog with led := true, phase := .wait }

/-- A descriptor whose RAM was cleared (10_state R32). -/
def clearedDescriptor : Descriptor := ⟨0, 0, 0, ⟨false, false, false, false⟩, 0⟩

/-- The values of 10_state R39. The non-volatile arrays are kept; the mailbox and RAM are kept unless the power was
off (60_exceptions R259). Values the spec leaves unspecified: notes/assumptions/3.md and 4.md. -/
def State.resetValues (s : State) (cause : ResetCause) : State :=
  { s with
    currentAddress := 0
    eraseFrontier := 0
    totalUploadSize := 0
    bytesTransferred := 0
    operationKind := .none
    fstate := .awaitStart
    seq := 0
    len := 0
    idx := 0
    cksum := 0
    msg := List.replicate s.cfg.msgBufSize 0
    exitFlag := false
    pbuf := emptyPbuf s.cfg
    rwwBlocked := false
    ram := if cause = .powerOn then [] else s.ram
    desc := if cause = .powerOn then clearedDescriptor else s.desc
    led := false
    wdtReset := decide (cause = .watchdog)
    wdtEnable := decide (cause = .watchdog) }

/-- `Reset` (70_reset R266): the replay phase after a watchdog reset, the normal boot otherwise. -/
def State.afterReset (s : State) (cause : ResetCause) : State :=
  if cause = .watchdog then { s.resetValues cause with phase := .replay }
  else (s.resetValues cause).normalBoot

/-- The cause of an event that is a reset. -/
def Event.resetCause : Event → Option ResetCause
  | .reset cause => some cause
  | .resetInside cause _ _ => some cause
  | .applicationThenReset _ cause => some cause
  | .byte _ | .quiet | .expire => none

/-- What the application did before the reset an event stands for, where it ran at all. -/
def Event.applicationEffects : Event → List ApplicationEffect
  | .applicationThenReset did _ => did
  | .reset _ | .resetInside _ _ _ | .byte _ | .quiet | .expire => []

/-- One effect of the application (notes/assumptions/34.md); flash and EEPROM addresses are reduced as everywhere
(20_memory R59). -/
def State.applicationEffect (s : State) : ApplicationEffect → State
  | .descriptor d => { s with desc := d }
  | .ram a b => { s with ram := s.ram.write a.toNat b }
  | .flash a b => { s with flash := s.flash.write (flashIndex s.cfg a.toNat) b }
  | .eeprom a b => s.eeWrite a b
  | .lockBits v => s.lockSet v

/-- The application's run, oldest effect first. -/
def State.runApplication (s : State) (did : List ApplicationEffect) : State := did.foldl State.applicationEffect s

/-- A poll of the first wait that finds no byte (70_reset R269): only the indicator changes, at moments the spec does
not give (92 D33). -/
def State.pollWait (s : State) : State := { s with led := Config.freeBit s.freeCount, freeCount := s.freeCount + 1 }

/-- The first byte (70_reset R270, R271, 40_framer R118): the loop is entered and the byte is the decoder's first. The
indicator's state in the loop is unspecified (92 D33): DESIGN CHOICE, a free value drawn on entry and kept from then on
(60_exceptions R249, "in its last state"; notes/assumptions/4.md). -/
def State.enterLoop (s : State) (c : Byte) : State :=
  { s with
    phase := .loop
    fstate := .awaitStart
    led := Config.freeBit s.freeCount
    freeCount := s.freeCount + 1 }.decodeByte c

/-- `AppPresent` (60_exceptions R248): whether the word at flash address 0 differs from `ERASED_WORD`; its bytes are
free values while the region is blocked. -/
def State.appPresent (s : State) : Bool × State :=
  let lo := s.flashReadByte 0
  let hi := lo.2.flashReadByte 1
  (decide (halfOf hi.1 lo.1 ≠ s.cfg.erasedWord), hi.2)

/-- The receive guard when its counter expires (60_exceptions R247): a direct hand-off if an application is present,
otherwise the wait goes on. -/
def State.receiveGuard (s : State) : State :=
  if s.appPresent.1 then s.appPresent.2.handoff else s.appPresent.2

/-- One event in the first wait (70_reset R269, R270; 60_exceptions R246). -/
def State.waitEvent (s : State) : Event → State
  | .byte c => s.enterLoop c
  | .quiet => s.pollWait
  | .expire => s.exitToApplication
  | .reset cause | .resetInside cause _ _ | .applicationThenReset _ cause => s.afterReset cause

/-- One event inside the blocking receive of the loop (40_framer R101; 60_exceptions R247). -/
def State.receiveEvent (s : State) : Event → State
  | .byte c => s.decodeByte c
  | .quiet => s
  | .expire => s.receiveGuard
  | .reset cause | .resetInside cause _ _ | .applicationThenReset _ cause => s.afterReset cause

end Sys2Proof.Machine
end

