-- ==== Sys2Proof/Machine/Device.lean ====
section
/-! DEFINITION. The device information and lock commands (42_cmd_device). -/

namespace Sys2Proof.Machine

/-- `READ_SIGNATURE` (R140). -/
def execReadSignature (index : Byte) (s : State) : Result :=
  s.reply [s.cfg.statusOk, sigByte s.cfg index, s.cfg.statusOk]

/-- `READ_LOCK` (R143): the lock bits verbatim. -/
def execReadLock (s : State) : Result := s.reply [s.cfg.statusOk, s.lockBits, s.cfg.statusOk]

/-- `READ_FUSE` (R145). -/
def execReadFuse (sel0 sel1 : Byte) (s : State) : Result :=
  s.reply [s.cfg.statusOk, s.fuseRead (fuseSelect sel0 sel1), s.cfg.statusOk]

/-- `PROGRAM_LOCK` (R148): narrows the lock bits within the mask; the status is `OK` whether or not a bit changed. -/
def execProgramLock (req : Byte) (s : State) : Result :=
  (s.lockSet (lockRequest req)).reply [s.cfg.statusOk, s.cfg.statusOk]

/-- `SPI_MULTI` (R152). Where the handler is absent its opcode is an unrecognised one (R151). -/
def execSpiMulti (sub sidx : Byte) (s : State) : Result :=
  if s.cfg.spiMultiPresent then
    s.reply [s.cfg.statusOk, 0, sub, 0, s.spiAnswer sub sidx, s.cfg.statusOk]
  else s.reply [s.cfg.statusFailed]

end Sys2Proof.Machine
end

