-- ==== Sys2Proof/Machine/Ident.lean ====
section
/-! DEFINITION. The identity and acknowledge commands and the default for an unrecognised opcode
(41_cmd_ident_ack). -/

namespace Sys2Proof.Machine

/-- `SIGN_ON` (R126): status, the string's length, the string. -/
def execSignOn (s : State) : Result :=
  s.reply (s.cfg.statusOk :: BitVec.ofNat 8 s.cfg.signOnString.length :: s.cfg.signOnString)

/-- `GET_PARAMETER` (R128): an unknown id is no error. -/
def execGetParameter (id : Byte) (s : State) : Result := s.reply [s.cfg.statusOk, paramValue s.cfg.params id]

/-- `ENTER_PROGMODE` (R130): acknowledge only. -/
def execEnterProgmode (s : State) : Result := s.reply [s.cfg.statusOk]

/-- `LEAVE_PROGMODE` (R132): sets the session-exit flag and acknowledges; the loop tests the flag after the reply. -/
def execLeaveProgmode (s : State) : Result := s.setExit.reply [s.cfg.statusOk]

/-- `SET_PARAMETER` (R134): acknowledge only; nothing is stored. -/
def execSetParameter (s : State) : Result := s.reply [s.cfg.statusOk]

/-- `UNRECOGNISED` (R136): "Reply length 2, status FAILED"; the opcode stands in `msg[0]` already. -/
def execUnrecognised (_op : Byte) (s : State) : Result := s.reply [s.cfg.statusFailed]

end Sys2Proof.Machine
end

