-- ==== Sys2Proof/Machine/Program.lean ====
section
/-! DEFINITION. The program commands (44_cmd_program): erase-ahead, boundary check, page fill and commit; EEPROM
bytes. -/

namespace Sys2Proof.Machine

/-- `EraseAhead` (R182): at most one page, at the frontier, and only below the boundary. -/
def State.eraseAhead (s : State) : State :=
  if s.eraseFrontier.toNat < s.cfg.boundary then
    let t := s.pageErase s.eraseFrontier.toNat
    { t with eraseFrontier := truncAddr s.cfg (s.eraseFrontier + BitVec.ofNat 32 s.cfg.pageSize) }
  else s

/-- The fill loop of the write step (R183): whole words, low byte first; the last byte of an odd packet is dropped
(R189). -/
def fillWords : List Byte → State → State
  | lo :: hi :: rest, s => fillWords rest ((s.pageFill s.currentAddress.toNat lo hi).advance 2)
  | [_], s => s
  | [], s => s

/-- `Commit` (R185): the page of the packet's start address. -/
def State.commit (s : State) (a0 : Word) : State := (s.pageWrite a0.toNat).rwwEnable

/-- `WriteStep` (R183): one boundary test, on the address the packet starts at. The fault is an index of `msg[]`
beyond the buffer (93 U6): the buffer holds fewer than the bytes the fill reads. -/
def State.writeStep (s : State) (a0 : Word) (size : Half) (data : List Byte) : Result :=
  if a0.toNat < s.cfg.boundary then
    if 2 * (size.toNat / 2) ≤ data.length then .next ((fillWords (data.take size.toNat) s).commit a0)
    else .fault .msgIndexOutOfRange
  else .next s

/-- `PROGRAM_FLASH` (R181). -/
def execProgramFlash (size : Half) (data : List Byte) (s : State) : Result :=
  match ((s.progressOnWrite s.currentAddress size).eraseAhead).writeStep s.currentAddress size data with
  | .next t => t.reply [s.cfg.statusOk]
  | .fault r => .fault r
  | .refused r => .refused r

/-- The byte loop of Program EEPROM (R191): one byte at half the address, which then advances by 2. -/
def eeWriteBytes : List Byte → State → State
  | [], s => s
  | b :: bs, s => eeWriteBytes bs ((s.eeWrite (eepromAddress s.currentAddress) b).advance 2)

/-- `PROGRAM_EEPROM` (R191); the fault as in `State.writeStep`. -/
def execProgramEeprom (size : Half) (data : List Byte) (s : State) : Result :=
  if size.toNat ≤ data.length then (eeWriteBytes (data.take size.toNat) s).reply [s.cfg.statusOk]
  else .fault .msgIndexOutOfRange

end Sys2Proof.Machine
end

