-- ==== Sys2Proof/Machine/Read.lean ====
section
/-! DEFINITION. The read commands (45_cmd_read). -/

namespace Sys2Proof.Machine

/-- The byte loop of Read flash (R201): `n` bytes from `currentAddress` on, which advances by 1 for each. -/
def flashReadBytes : Nat → State → List Byte × State
  | 0, s => ([], s)
  | n + 1, s =>
    let r := s.flashReadByte s.currentAddress.toNat
    let rest := flashReadBytes n (r.2.advance 1)
    (r.1 :: rest.1, rest.2)

/-- `READ_FLASH` (R201): progress on the start address, then the data between two status bytes. -/
def execReadFlash (size : Half) (s : State) : Result :=
  let r := flashReadBytes size.toNat (s.progressOnRead s.currentAddress size)
  r.2.reply (s.cfg.statusOk :: r.1 ++ [s.cfg.statusOk])

/-- The byte loop of Read EEPROM (R208): one byte at half the address, which then advances by 2. -/
def eeReadBytes : Nat → State → List Byte × State
  | 0, s => ([], s)
  | n + 1, s =>
    let rest := eeReadBytes n (s.advance 2)
    (s.eeRead (eepromAddress s.currentAddress) :: rest.1, rest.2)

/-- `READ_EEPROM` (R208). -/
def execReadEeprom (size : Half) (s : State) : Result :=
  let r := eeReadBytes size.toNat s
  r.2.reply (s.cfg.statusOk :: r.1 ++ [s.cfg.statusOk])

end Sys2Proof.Machine
end

