-- ==== Sys2Proof/Machine/SelfUpdate.lean ====
section
/-! DEFINITION. The deferred self-update replay (46_self_update). -/

namespace Sys2Proof.Machine

/-- One source byte (R222): program memory or RAM, at the moment of the fill. -/
def State.sourceByte (s : State) (fromFlash : Bool) (a : Word) : Byte × State :=
  if fromFlash then s.flashReadByte a.toNat else (s.ram.read a.toNat, s)

/-- The copy loop of one page (R218, R221): `words` words; a page at or above the boundary is read past but not
filled (R224). -/
def copyWords (fromFlash isOpen : Bool) : Nat → Word → Word → State → State
  | 0, _, _, s => s
  | k + 1, d, a, s =>
    let lo := s.sourceByte fromFlash a
    let hi := lo.2.sourceByte fromFlash (a + 1)
    copyWords fromFlash isOpen k (d + 2) (a + 2) (if isOpen then hi.2.pageFill d.toNat lo.1 hi.1 else hi.2)

/-- The number of bytes of the page of `d` inside a span of `n` bytes (R218). -/
def spanInPage (c : Config) (d : Word) (n : Nat) : Nat := min n (pageOf c d.toNat + c.pageSize - d.toNat)

/-- One page of the replay (R218): erase, copy and commit as the flags and the boundary allow, then re-enable. -/
def State.replayPage (s : State) (flags : ReplayFlags) (d a : Word) (m : Nat) : State :=
  let base := pageOf s.cfg d.toNat
  let isOpen := decide (base < s.cfg.boundary)
  let s1 := if flags.eraseDestination && isOpen then s.pageErase base else s
  let s2 :=
    if flags.copyData then
      let t := copyWords flags.sourceIsProgramMemory isOpen ((m + 1) / 2) d a s1
      if isOpen then t.pageWrite base else t
    else s1
  s2.rwwEnable

/-- What `d` and `s` advance by over a page of `m` bytes (R218): whole words when copying. -/
def destinationStep (flags : ReplayFlags) (m : Nat) : Word :=
  BitVec.ofNat 32 (if flags.copyData then 2 * ((m + 1) / 2) else m)

/-- What the source advances by over a page of `m` bytes (R218): nothing unless words are copied. -/
def sourceStep (flags : ReplayFlags) (m : Nat) : Word :=
  BitVec.ofNat 32 (if flags.copyData then 2 * ((m + 1) / 2) else 0)

/-- The page loop (R218). The first argument bounds the iterations; every page takes at least one byte of `n`. -/
def replayPages (flags : ReplayFlags) : Nat → Word → Word → Nat → State → State
  | 0, _, _, _, s => s
  | fuel + 1, d, a, n, s =>
    if n = 0 then s
    else
      let m := spanInPage s.cfg d n
      replayPages flags fuel (d + destinationStep flags m) (a + sourceStep flags m) (n - m) (s.replayPage flags d a m)

/-- The mailbox after a replay (R226): the magic is the spec's `INVALID`, 0; every other field is unspecified. -/
def State.invalidate (s : State) : State :=
  { s with
    desc :=
      { sourceAddress := Config.freeWord s.freeCount
        destinationAddress := Config.freeWord (s.freeCount + 1)
        remainingSize := Config.freeHalf s.freeCount
        flags :=
          { eraseDestination := Config.freeBit s.freeCount
            copyData := Config.freeBit (s.freeCount + 1)
            sourceIsProgramMemory := Config.freeBit (s.freeCount + 2)
            deferRun := Config.freeBit (s.freeCount + 3) }
        magic := 0 }
    freeCount := s.freeCount + 4 }

/-- `SELF_UPDATE_REPLAY` (R216 to R227) of a trusted descriptor: deferred, it goes straight to the application and the
mailbox is left untouched (R217); otherwise the replay, the invalidation and the hand-off. -/
def execSelfUpdateReplay (source destination : Word) (size : Half) (flags : ReplayFlags) (s : State) : Result :=
  if flags.deferRun then .next s.handoff
  else .next (replayPages flags size.toNat destination source size.toNat s).invalidate.handoff

end Sys2Proof.Machine
end

