-- ==== Sys2Proof/Machine/Session.lean ====
section
/-! DEFINITION. The session commands (43_cmd_session). -/

namespace Sys2Proof.Machine

/-- `CHIP_ERASE` (R160): the erase frontier goes back to 0 and the status is `FAILED`; nothing is erased (R161). -/
def execChipErase (s : State) : Result := { s with eraseFrontier := 0 }.reply [s.cfg.statusFailed]

/-- `LOAD_ADDRESS` (R163): the word address doubled, truncated to `ADDR_W` bits. -/
def execLoadAddress (waddr : Word) (s : State) : Result :=
  { s with currentAddress := byteAddress s.cfg waddr }.reply [s.cfg.statusOk]

/-- `SET_UPLOAD_SIZE` (R166): the total, and the progress bookkeeping reset. -/
def execSetUploadSize (total : BitVec 24) (s : State) : Result :=
  { s with totalUploadSize := total.setWidth 32, bytesTransferred := 0, operationKind := .none }.reply [s.cfg.statusOk]

end Sys2Proof.Machine
end

