-- ==== Sys2Proof/Machine/Dispatch.lean ====
section
/-! DEFINITION. The dispatcher (40_framer R112, R114): one handler per command, selected by the command alone. -/

namespace Sys2Proof.Machine

def exec (i : Instr) (s : State) : Host.Outcome State Fault Refusal :=
  match i with
  | .signOn => Sys2Proof.Machine.execSignOn s
  | .getParameter id => Sys2Proof.Machine.execGetParameter id s
  | .enterProgmode => Sys2Proof.Machine.execEnterProgmode s
  | .leaveProgmode => Sys2Proof.Machine.execLeaveProgmode s
  | .setParameter => Sys2Proof.Machine.execSetParameter s
  | .readSignature index => Sys2Proof.Machine.execReadSignature index s
  | .readLock => Sys2Proof.Machine.execReadLock s
  | .readFuse sel0 sel1 => Sys2Proof.Machine.execReadFuse sel0 sel1 s
  | .programLock req => Sys2Proof.Machine.execProgramLock req s
  | .chipErase => Sys2Proof.Machine.execChipErase s
  | .loadAddress waddr => Sys2Proof.Machine.execLoadAddress waddr s
  | .setUploadSize total => Sys2Proof.Machine.execSetUploadSize total s
  | .programFlash size data => Sys2Proof.Machine.execProgramFlash size data s
  | .programEeprom size data => Sys2Proof.Machine.execProgramEeprom size data s
  | .readFlash size => Sys2Proof.Machine.execReadFlash size s
  | .readEeprom size => Sys2Proof.Machine.execReadEeprom size s
  | .spiMulti sub sidx => Sys2Proof.Machine.execSpiMulti sub sidx s
  | .unrecognised op => Sys2Proof.Machine.execUnrecognised op s
  | .selfUpdateReplay source destination size flags => Sys2Proof.Machine.execSelfUpdateReplay source destination size flags s

end Sys2Proof.Machine
end

