-- ==== Sys2Proof/Machine/Interrupted.lean ====
section
/-! DEFINITION. A reset inside a command or a replay (70_reset R277, 20_memory R55, 93 U12): what the device operation
under way leaves. Everything that is not non-volatile takes its reset value afterwards, so only the non-volatile
arrays, the mailbox and the transmit stream matter here. -/

namespace Sys2Proof.Machine

/-- The page of an address while it is being erased or written: every byte is a free value (93 U12). -/
def State.freePage (s : State) (a : Nat) : State :=
  { s with
    flash := s.flash.writeBytes (pageOf s.cfg a)
      ((List.range s.cfg.pageSize).map fun k => Config.freeByte (s.freeCount + k))
    freeCount := s.freeCount + s.cfg.pageSize }

/-- A Program lock bits cut short: any of the bits it was to clear may be cleared (93 U12), and no other bit changes
(42_cmd_device R149). -/
def cutProgramLock (req : Byte) (ops : Nat) (s : State) : Option State :=
  if ops = 0 then some (s.drawByte.2.lockSet (lockRequest req &&& s.drawByte.1)) else none

/-- A Program flash cut short in its erase (44_cmd_program R182) or in its page write (R185). -/
def cutProgramFlash (size : Half) (data : List Byte) (ops : Nat) (s : State) : Option State :=
  let erases := decide (s.eraseFrontier.toNat < s.cfg.boundary)
  if erases && ops == 0 then some (s.freePage s.eraseFrontier.toNat)
  else if s.currentAddress.toNat < s.cfg.boundary ∧ 2 * (size.toNat / 2) ≤ data.length ∧
      ops = (if erases then 1 else 0) then some (s.eraseAhead.freePage s.currentAddress.toNat)
  else none

/-- A Program EEPROM cut short in byte number `ops` (44_cmd_program R191). -/
def cutProgramEeprom (size : Half) (data : List Byte) (ops : Nat) (s : State) : Option State :=
  if ops < size.toNat ∧ ops < data.length then
    let t := eeWriteBytes (data.take ops) s
    some (t.drawByte.2.eeWrite (eepromAddress t.currentAddress) t.drawByte.1)
  else none

/-- A replay cut short in an erase or a page write (46_self_update R218): the pages before it are done. -/
def cutPages (flags : ReplayFlags) : Nat → Word → Word → Nat → Nat → State → Option State
  | 0, _, _, _, _, _ => none
  | fuel + 1, d, a, n, ops, s =>
    if n = 0 then none
    else
      let m := spanInPage s.cfg d n
      let base := pageOf s.cfg d.toNat
      let count := if base < s.cfg.boundary then flags.eraseDestination.toNat + flags.copyData.toNat else 0
      if ops < count then some (s.freePage base)
      else
        cutPages flags fuel (d + destinationStep flags m) (a + sourceStep flags m) (n - m) (ops - count)
          (s.replayPage flags d a m)

/-- The mailbox once a replay has begun: the magic still stands, every other field is unspecified (46_self_update R226,
70_reset R277). -/
def State.disturb (s : State) : State :=
  { s.invalidate with desc := { s.invalidate.desc with magic := s.desc.magic } }

/-- A replay cut short in a page or after its last page and before the invalidation; a deferred one has touched
nothing (46_self_update R217). -/
def cutReplay (source destination : Word) (size : Half) (flags : ReplayFlags) (ops : Nat) (s : State) : State :=
  if flags.deferRun then s
  else
    match cutPages flags size.toNat destination source size.toNat ops s with
    | some t => t.disturb
    | none => (replayPages flags size.toNat destination source size.toNat s).disturb

/-- What a command's device operation number `ops` leaves when a reset cuts it short; none where the command has no
such operation. -/
def cutCommand (i : Instr) (ops : Nat) (s : State) : Option State :=
  match i with
  | .programLock req => cutProgramLock req ops s
  | .programFlash size data => cutProgramFlash size data ops s
  | .programEeprom size data => cutProgramEeprom size data ops s
  | .selfUpdateReplay source destination size flags => some (cutReplay source destination size flags ops s)
  | .signOn | .getParameter _ | .enterProgmode | .leaveProgmode | .setParameter | .readSignature _ | .readLock
  | .readFuse _ _ | .chipErase | .loadAddress _ | .setUploadSize _ | .readFlash _ | .readEeprom _ | .spiMulti _ _
  | .unrecognised _ => none

/-- A reply of which the host receives the first bytes only. -/
def State.sendPart (s : State) (sent : Nat) : State :=
  { s with tx := s.tx ++ (frame s.cfg s.seq s.len (s.msg.take s.len.toNat)).take sent }

/-- A command with a reset inside it: cut short in a device operation, or run to its end and cut short in its reply. -/
def interrupted (i : Instr) (cause : ResetCause) (ops sent : Nat) (s : State) : Result :=
  match cutCommand i ops s with
  | some t => .next (t.afterReset cause)
  | none =>
    match exec i s with
    | .next t => .next ((t.sendPart sent).afterReset cause)
    | .fault r => .fault r
    | .refused r => .refused r

end Sys2Proof.Machine
end

