-- ==== Sys2Proof/Machine/Sequencer.lean ====
section
/-! DEFINITION. What the sequencer does in each phase (10_state R16, R24, 70_reset R267). -/

namespace Sys2Proof.Machine

/-- `Process` (40_framer R109): the command in the buffer runs to its end, the reply is sent, the exit flag tested;
unless the environment puts a reset inside it. -/
def processStep (s : State) : Result :=
  match decode s.cfg (.request s.msg) with
  | .ok i =>
    match s.env with
    | .resetInside cause ops sent :: rest => interrupted i cause ops sent { s with env := rest }
    | _ =>
      match exec i s with
      | .next t => .next t.finishCommand
      | .fault r => .fault r
      | .refused r => .refused r
  | .error _ => .fault .msgIndexOutOfRange

/-- `Replay`: `ReplayEntry` (46_self_update R216): the watchdog flags are cleared, then a trusted descriptor runs; any
other magic means normal boot; unless the environment puts a reset inside it. -/
def replayStep (s : State) : Result :=
  match s.env with
  | .resetInside cause ops sent :: rest =>
    match decode s.cfg (.mailbox s.desc) with
    | .ok i => interrupted i cause ops sent { s with env := rest }.clearWatchdog
    | .error _ => .next ({ s with env := rest }.afterReset cause)
  | _ =>
    match decode s.cfg (.mailbox s.desc) with
    | .ok i => exec i s.clearWatchdog
    | .error _ => .next s.clearWatchdog.normalBoot

/-- `Wait` (70_reset R269, R270): the next event, or a poll without a byte. -/
def waitStep (s : State) : Result :=
  match s.env with
  | [] => .next s.pollWait
  | e :: rest => .next ({ s with env := rest }.waitEvent e)

/-- `Loop` (40_framer R120): `Process`, or the blocking receive, where an exhausted environment is a silent one. -/
def loopStep (s : State) : Result :=
  if s.fstate = .process then processStep s
  else
    match s.env with
    | [] => .next s
    | e :: rest => .next ({ s with env := rest }.receiveEvent e)

/-- `HandedOff` (70_reset R267, R275): a reset restarts the block, with what the application did before it (00_scope R5);
any other event is the application's business and passes without a trace. With no event left nothing more happens
(notes/assumptions/12.md). -/
def handedOffStep (s : State) : Result :=
  match s.env with
  | [] => .fault .handedOff
  | e :: rest =>
    match e.resetCause with
    | some cause => .next (({ s with env := rest }.runApplication e.applicationEffects).afterReset cause)
    | none => .next { s with env := rest }

/-- The state in which a fetched command is the next to run (notes/assumptions/13.md): an accepted frame with that
payload, or a watchdog reset with that descriptor. -/
def State.withFetch (s : State) : Fetch → State
  | .request p => { s with phase := .loop, fstate := .process, msg := p }
  | .mailbox d => { s with phase := .replay, desc := d }

end Sys2Proof.Machine
end

