-- ==== Sys2Proof/Machine/Step.lean ====
section
/-! DEFINITION. One step of the sequencer, selected by `phase` (10_state R16, R24). -/

namespace Sys2Proof.Machine

/-- One step. -/
def step (s : State) : Host.Outcome State Fault Refusal :=
  match s.phase with
  | .replay => replayStep s
  | .wait => waitStep s
  | .loop => loopStep s
  | .handedOff => handedOffStep s

/-- The state whose next step runs the instruction of a table word (notes/assumptions/13.md), zero beyond it. -/
def State.withFetchWord (s : State) (nbits w : Nat) : State := s.withFetch (tableFetch s.cfg.msgBufSize nbits w)

end Sys2Proof.Machine
end

