-- ==== Sys2Proof/Safety.lean ====
section
/-! DEFINITION. The terms in which claims speak of the machine: the invariant of its reachable states, a reply in the
message buffer, runs of commands and of received bytes. -/

namespace Sys2Proof.Machine

/-- What holds of the machine at reset and after every step. The rules it collects: the bound on a received length
(30_encoding R74, 40_framer R105, R107), the form of the erase frontier (10_state R11), the empty page buffer between
commands (44_cmd_program R186), the widths of the address registers (R10, R11) and of the declared total (43_cmd_session
R167), the array bounds (R22, R26, R29), and what no step before the loop has changed (10_state R39, R118). -/
structure State.Inv (s : State) : Prop where
  cfg_wf : s.cfg.Wf
  msg_length : s.msg.length = s.cfg.msgBufSize
  pbuf_empty : s.pbuf = emptyPbuf s.cfg
  flash_wf : s.flash.wf
  flash_within : s.flash.within s.cfg.flashSize
  eeprom_wf : s.eeprom.wf
  eeprom_within : s.eeprom.within s.cfg.eepromSize
  ram_wf : s.ram.wf
  frontier_aligned : s.eraseFrontier.toNat % s.cfg.pageSize = 0
  frontier_le : s.eraseFrontier.toNat ≤ s.cfg.boundary
  address_lt : s.currentAddress.toNat < 2 ^ s.cfg.addrWidth.bits
  total_lt : s.totalUploadSize.toNat < 2 ^ 24
  len_ok : s.fstate = .awaitToken ∨ s.fstate = .awaitPayloadByte ∨ s.fstate = .awaitChecksum ∨ s.fstate = .process →
    1 ≤ s.len.toNat ∧ s.len.toNat ≤ s.cfg.msgBufSize
  idx_ok : s.fstate = .awaitPayloadByte → s.idx.toNat < s.len.toNat
  exit_handed : s.exitFlag = true → s.phase = .handedOff
  boot_clean : s.phase = .replay ∨ s.phase = .wait → s.rwwBlocked = false ∧ s.fstate = .awaitStart

/-- The state in which a reply payload stands in the buffer (30_encoding R76, R82): the opcode kept at `msg[0]`, the
body after it, every other byte as it was, the reply's length in `len`. -/
def State.withReply (s : State) (body : List Byte) : State :=
  { s with
    msg := s.msg.take 1 ++ body ++ s.msg.drop (1 + body.length)
    len := BitVec.ofNat 16 (1 + body.length) }

/-- Runs commands one after another, stopping at the first that gives no next state. -/
def execAll : List Instr → State → Result
  | [], s => .next s
  | i :: is, s =>
    match exec i s with
    | .next t => execAll is t
    | .fault r => .fault r
    | .refused r => .refused r

/-- Runs steps, stopping at the first that gives no next state. -/
def runSteps : Nat → State → Result
  | 0, s => .next s
  | n + 1, s =>
    match step s with
    | .next t => runSteps n t
    | .fault r => .fault r
    | .refused r => .refused r

/-- The next event is a reset of a cause. -/
abbrev State.resetNext (s : State) (cause : ResetCause) : Prop := ∃ e rest, s.env = e :: rest ∧ e.resetCause = some cause

/-- The environment puts no reset inside the command or the replay the next step runs (notes/assumptions/11.md). -/
abbrev State.uncut (s : State) : Prop := ∀ cause ops sent rest, s.env ≠ .resetInside cause ops sent :: rest

/-- The next event is a run of the application, after a hand-off, with an effect among those it leaves
(notes/assumptions/34.md). -/
abbrev State.applicationNext (s : State) (x : ApplicationEffect) : Prop :=
  s.phase = .handedOff ∧ ∃ did cause rest, s.env = .applicationThenReset did cause :: rest ∧ x ∈ did

/-- Whether a byte address lies in the page of another (20_memory R43). -/
abbrev inPageOf (c : Config) (a x : Nat) : Prop := pageOf c a ≤ x ∧ x < pageOf c a + c.pageSize

/-- The EEPROM byte that byte `i` of an EEPROM command goes to or comes from (20_memory R44, 44_cmd_program R191,
45_cmd_read R208): the address advances by 2 for each byte. -/
def State.eepromTarget (s : State) (i : Nat) : Nat :=
  eepromIndex s.cfg (eepromAddress (truncAddr s.cfg (s.currentAddress + BitVec.ofNat 32 (2 * i))))

/-- The flash byte that byte `i` of a Read flash comes from (45_cmd_read R201, R202). -/
def State.flashTarget (s : State) (i : Nat) : Nat :=
  flashIndex s.cfg (truncAddr s.cfg (s.currentAddress + BitVec.ofNat 32 i)).toNat

/-- The address `currentAddress` reaches after `n` bytes (30_encoding R93). -/
def State.addressAfter (s : State) (n : Nat) : Word := truncAddr s.cfg (s.currentAddress + BitVec.ofNat 32 n)

/-- Writes the bytes of a stored descriptor to RAM, as the application does before it asks for a watchdog reset
(10_state R32). -/
def storeCells (ram : Memory) (cells : List (Nat × Byte)) : Memory := cells.foldl (fun m c => m.write c.1 c.2) ram

/-- What a byte of a page holds when the replay commits the page: erased or as it was (46_self_update R219). -/
def State.beforeCopy (s : State) (flags : ReplayFlags) (x : Nat) : Byte :=
  if flags.eraseDestination then s.cfg.erasedByte else s.flash.read x

/-- What a copying replay of a span leaves outside the span (46_self_update R221): the slots of the last page beyond it
take the empty buffer, every byte of another page is as it was. -/
def State.CopiesNothingElse (s t : State) (flags : ReplayFlags) (destination : Word) (size : Half) : Prop :=
  let last := pageOf s.cfg (destination.toNat + size.toNat - 1) + s.cfg.pageSize
  (∀ x, destination.toNat + size.toNat ≤ x → x < last →
    t.flash.read x = s.beforeCopy flags x &&& s.cfg.erasedByte) ∧
  (∀ x, x < destination.toNat ∨ last ≤ x → t.flash.read x = s.flash.read x)

/-- Gives received bytes to the decoder one after another (40_framer R101). -/
def State.receive (s : State) (bs : List Byte) : State := bs.foldl State.decodeByte s

end Sys2Proof.Machine
end

