-- ==== Sys2Proof/Certificates/Slice0/Obligations.lean ====
section
/-! DEFINITION. The statements for the provers. -/

open Sys2Proof Sys2Proof.Machine

/-! ## Encoding -/

/-- 30_encoding R81, R84 to R87, R89: decoding a well-formed command as it is encoded gives the command back, whatever
bytes the buffer holds beyond it and whatever the opcodes are, as long as they differ. -/
def Obligations.DecodeOfEncodeIsIdentity : Prop :=
  ∀ (c : Config) (i : Instr) (tail : List Byte), c.Wf → i.operandsWf c = true →
    decode c ((encode c i).followedBy tail) = .ok i

/-- Words written out from the spec's encodings (30_encoding R78, R81, 46_self_update R229), under the default
constants, which are the spec's from general knowledge (notes/assumptions/25.md). -/
def Obligations.SpecWordsDecode : Prop :=
  decodeTableWord 8 0x01 = some .signOn ∧
  decodeTableWord 8 0x12 = some .chipErase ∧
  decodeTableWord 8 0x99 = some (.unrecognised 0x99) ∧
  decode defaultConfig (.request [0x1B, 0x00, 0x00, 0x00, 0x01]) = .ok (.readSignature 1) ∧
  decode defaultConfig (.request [0x06, 0x12, 0x34, 0x56, 0x78]) = .ok (.loadAddress 0x12345678) ∧
  decode defaultConfig (.request [0x50, 0x45, 0x23, 0x01]) = .ok (.setUploadSize 0x012345) ∧
  decode defaultConfig (.request [0x13, 0x00, 0x02, 0, 0, 0, 0, 0, 0, 0, 0xA1, 0xA2]) =
    .ok (.programFlash 2 [0xA1, 0xA2]) ∧
  decode defaultConfig (.request [0x16, 0x01, 0x04]) = .ok (.readEeprom 0x0104) ∧
  decodeTableWord 32 0x55AA55AA = some (.selfUpdateReplay 0 0 0 ⟨false, false, false, false⟩)

/-- 30_encoding R80, R88: a buffer that reaches every operand decodes, and exactly the opcodes that match no command
(`OP_SPI_MULTI` among them when its handler is absent) give the default. -/
def Obligations.EveryOpcodeIsDecoded : Prop :=
  ∀ (c : Config) (m : List Byte) (op : Byte), 7 ≤ m.length → m[0]? = some op →
    ∃ i, decode c (.request m) = .ok i ∧ (op ∉ c.recognised ↔ i = .unrecognised op)

/-- 46_self_update R229, 20_memory R52: a descriptor stored in RAM by the layout is read back as it was. -/
def Obligations.StoredDescriptorReadsBack : Prop :=
  ∀ (l : MailboxLayout) (ram : Memory) (d : Descriptor), l.Wf → ram.wf →
    descriptorOfRam l (storeCells ram (descriptorCells l d)).read = d

/-! ## The frame decoder -/

/-- 40_framer R102, R103, R104, R106, R107, R108: what one received byte does in each decoder state but
`AwaitLengthLow`. -/
def Obligations.DecoderFollowsByteRules : Prop :=
  ∀ (s : State) (b : Byte) (rest : List Event), s.phase = .loop → s.env = .byte b :: rest →
    (s.fstate = .awaitStart → step s = .next
      (if b = s.cfg.start then { s with env := rest, cksum := s.cfg.start, fstate := .awaitSequence }
        else { s with env := rest })) ∧
    (s.fstate = .awaitSequence → step s = .next
      { s with env := rest, seq := b, cksum := s.cksum ^^^ b, fstate := .awaitLengthHigh }) ∧
    (s.fstate = .awaitLengthHigh → step s = .next
      { s with env := rest, len := b.setWidth 16 <<< 8, cksum := s.cksum ^^^ b, fstate := .awaitLengthLow }) ∧
    (s.fstate = .awaitToken → step s = .next
      (if b = s.cfg.token then { s with env := rest, cksum := s.cksum ^^^ b, idx := 0, fstate := .awaitPayloadByte }
        else { s with env := rest, fstate := .awaitStart })) ∧
    (s.fstate = .awaitPayloadByte → step s = .next
      { s with
        env := rest
        msg := s.msg.set s.idx.toNat b
        idx := s.idx + 1
        cksum := s.cksum ^^^ b
        fstate := if s.idx + 1 = s.len then .awaitChecksum else .awaitPayloadByte }) ∧
    (s.fstate = .awaitChecksum → step s = .next
      { s with env := rest, fstate := if b = s.cksum then .process else .awaitStart })

/-- 40_framer R105, 30_encoding R74: the low length byte, and the restart on a length of 0 or above the buffer, which
is the spec's decision D6. -/
def Obligations.LengthIsBounded : Prop :=
  ∀ (s : State) (b : Byte) (rest : List Event), s.phase = .loop → s.env = .byte b :: rest →
    s.fstate = .awaitLengthLow →
    step s = .next
      { s with
        env := rest
        len := s.len ||| b.setWidth 16
        cksum := s.cksum ^^^ b
        fstate := if s.len ||| b.setWidth 16 = 0 ∨ s.cfg.msgBufSize < (s.len ||| b.setWidth 16).toNat then .awaitStart
          else .awaitToken }

/-- 30_encoding R70, R72, 40_framer R101 to R108: a whole frame, received byte by byte from `AwaitStart`, leaves its
payload in the buffer, its sequence number and length in their registers, and the decoder in `Process`. -/
def Obligations.WholeFrameIsAccepted : Prop :=
  ∀ (s : State) (seq : Byte) (payload : List Byte) (rest : List Event), s.Inv → s.phase = .loop →
    s.fstate = .awaitStart → 1 ≤ payload.length → payload.length ≤ s.cfg.msgBufSize →
    s.env = (frame s.cfg seq (BitVec.ofNat 16 payload.length) payload).map .byte ++ rest →
    runSteps (payload.length + 6) s = .next
      { s with
        env := rest
        fstate := .process
        seq := seq
        len := BitVec.ofNat 16 payload.length
        idx := BitVec.ofNat 16 payload.length
        cksum := xorBytes (frameBody s.cfg seq (BitVec.ofNat 16 payload.length) payload)
        msg := payload ++ s.msg.drop payload.length }

/-- 40_framer R108, 60_exceptions R237: the same frame with another last byte is dropped without a reply; the payload
stays in the buffer and nothing else has changed. -/
def Obligations.WrongChecksumIsDropped : Prop :=
  ∀ (s : State) (seq bad : Byte) (payload : List Byte) (rest : List Event), s.Inv → s.phase = .loop →
    s.fstate = .awaitStart → 1 ≤ payload.length → payload.length ≤ s.cfg.msgBufSize →
    bad ≠ xorBytes (frameBody s.cfg seq (BitVec.ofNat 16 payload.length) payload) →
    s.env = (frameBody s.cfg seq (BitVec.ofNat 16 payload.length) payload ++ [bad]).map .byte ++ rest →
    runSteps (payload.length + 6) s = .next
      { s with
        env := rest
        seq := seq
        len := BitVec.ofNat 16 payload.length
        idx := BitVec.ofNat 16 payload.length
        cksum := xorBytes (frameBody s.cfg seq (BitVec.ofNat 16 payload.length) payload)
        msg := payload ++ s.msg.drop payload.length }

/-- 30_encoding R72, 40_framer R121: whatever bytes are received from `AwaitStart` on, the byte that brings the decoder to
`Process` is the last byte of a frame, equal to the exclusive or of every byte since the start marker. That the frame's
length lies within 1 and the buffer's is the range test of R74 and R105, the spec's decision D6
(notes/assumptions/30.md). -/
def Obligations.OnlyFramesAreAccepted : Prop :=
  ∀ (s : State) (bs : List Byte) (b : Byte), s.cfg.Wf → s.fstate = .awaitStart → (s.receive bs).fstate ≠ .process →
    (s.receive (bs ++ [b])).fstate = .process →
    ∃ (noise : List Byte) (seq : Byte) (len : Half) (payload : List Byte),
      bs ++ [b] = noise ++ frame s.cfg seq len payload ∧ len.toNat = payload.length ∧
        1 ≤ payload.length ∧ payload.length ≤ s.cfg.msgBufSize

/-- 40_framer R121: a frame with another byte in place of its sequence number, of a payload byte or of its checksum is
rejected when its last byte is in, and one with another token as soon as the token is in. -/
def Obligations.CorruptFrameIsRejected : Prop :=
  ∀ (s : State) (seq b : Byte) (payload : List Byte) (p : Nat), s.cfg.Wf → s.fstate = .awaitStart →
    s.msg.length = s.cfg.msgBufSize → 1 ≤ payload.length → payload.length ≤ s.cfg.msgBufSize →
    let f := frame s.cfg seq (BitVec.ofNat 16 payload.length) payload
    p < f.length → f[p]? ≠ some b →
    (p = 1 ∨ 5 ≤ p → (s.receive (f.set p b)).fstate = .awaitStart) ∧
    (p = 4 → (s.receive ((f.set p b).take 5)).fstate = .awaitStart)

/-- 10_state R15, 40_framer R100, 60_exceptions R237: a received byte changes the decoder's registers and the buffer
alone; what it does depends on them and the configuration alone; a restart from the token or the checksum test changes
`fstate` alone. -/
def Obligations.DecoderIsIsolated : Prop :=
  ∀ (s : State) (b : Byte),
    s.decodeByte b =
      { s with
        fstate := (s.decodeByte b).fstate
        seq := (s.decodeByte b).seq
        len := (s.decodeByte b).len
        idx := (s.decodeByte b).idx
        cksum := (s.decodeByte b).cksum
        msg := (s.decodeByte b).msg } ∧
    (∀ t : State, t.cfg = s.cfg → t.fstate = s.fstate → t.seq = s.seq → t.len = s.len → t.idx = s.idx →
      t.cksum = s.cksum → t.msg = s.msg →
      (t.decodeByte b).fstate = (s.decodeByte b).fstate ∧ (t.decodeByte b).seq = (s.decodeByte b).seq ∧
      (t.decodeByte b).len = (s.decodeByte b).len ∧ (t.decodeByte b).idx = (s.decodeByte b).idx ∧
      (t.decodeByte b).cksum = (s.decodeByte b).cksum ∧ (t.decodeByte b).msg = (s.decodeByte b).msg) ∧
    (s.fstate = .awaitToken ∨ s.fstate = .awaitChecksum → (s.decodeByte b).fstate = .awaitStart →
      s.decodeByte b = { s with fstate := .awaitStart })

/-! ## The dispatcher and the reply -/

/-- 40_framer R109, R112, 46_self_update R216: the step in `Process` is the decoded command, then the reply frame over
the length it hands back, the decoder's restart and the exit test; the step in `Replay` with a trusted descriptor is
the replay, the watchdog flags cleared before it; where the environment puts no reset inside them. -/
def Obligations.StepRunsDecodedInstruction : Prop :=
  (∀ (s : State) (i : Instr), s.phase = .loop → s.fstate = .process → s.uncut →
    decode s.cfg (.request s.msg) = .ok i →
    (∀ t, exec i s = .next t → step s = .next
      { t with
        tx := t.tx ++ frame t.cfg t.seq t.len (t.msg.take t.len.toNat)
        fstate := .awaitStart
        led := if t.exitFlag then false else t.led
        phase := if t.exitFlag then .handedOff else t.phase }) ∧
    (∀ f, exec i s = .fault f → step s = .fault f)) ∧
  (∀ (s : State) (i : Instr), s.phase = .replay → s.uncut → decode s.cfg (.mailbox s.desc) = .ok i →
    step s = exec i { s with wdtReset := false, wdtEnable := false })

/-- 30_encoding R76, R77, 40_framer R115, R116: the step in `Process` sends exactly one frame, with the request's
sequence number, opcode and a status byte; the status is `FAILED` for Chip erase and for an opcode that matches no
command, and for nothing else. -/
def Obligations.ReplyNamesItsRequest : Prop :=
  ∀ (s t : State), s.Inv → s.phase = .loop → s.fstate = .process → s.uncut → step s = .next t →
    ∃ (op status : Byte) (rest : List Byte), s.msg[0]? = some op ∧
      t.tx = s.tx ++ frame s.cfg s.seq (BitVec.ofNat 16 (2 + rest.length)) (op :: status :: rest) ∧
      2 + rest.length ≤ s.cfg.msgBufSize ∧
      status = (if op = s.cfg.opcodes.chipErase ∨ op ∉ s.cfg.recognised then s.cfg.statusFailed else s.cfg.statusOk)

/-- 40_framer R115: every accepted frame whose command gives a next state produces exactly one reply frame and nothing
else produces any transmit byte: no framing error, no wait, no replay, no hand-off, no reset. Two clauses are the
model's: a reset inside the command (notes/assumptions/11.md) lets the host receive at most a first part of that frame,
and a command that stops on an index beyond the buffer (notes/assumptions/22.md) gives no next state and no reply. -/
def Obligations.OneReplyPerFrame : Prop :=
  ∀ (s t : State), s.Inv → step s = .next t →
    (s.phase = .loop → s.fstate = .process →
      ∃ (payload : List Byte) (sent : Nat), 2 ≤ payload.length ∧
        t.tx = s.tx ++ (frame s.cfg s.seq (BitVec.ofNat 16 payload.length) payload).take sent ∧
        (s.uncut → payload.length + 6 ≤ sent)) ∧
    (¬ (s.phase = .loop ∧ s.fstate = .process) → t.tx = s.tx)

/-! ## Identity and acknowledge commands -/

/-- 41_cmd_ident_ack R130, R134: acknowledge only; nothing but the buffer and the length changes. -/
def Obligations.AcknowledgeOnlyCommands : Prop :=
  ∀ s : State, s.msg.length = s.cfg.msgBufSize → 2 ≤ s.cfg.msgBufSize →
    exec .enterProgmode s = .next (s.withReply [s.cfg.statusOk]) ∧
    exec .setParameter s = .next (s.withReply [s.cfg.statusOk])

/-- 41_cmd_ident_ack R132: acknowledge, and the session-exit flag. -/
def Obligations.LeaveSetsExitFlag : Prop :=
  ∀ s : State, s.msg.length = s.cfg.msgBufSize → 2 ≤ s.cfg.msgBufSize →
    exec .leaveProgmode s = .next ({ s with exitFlag := true }.withReply [s.cfg.statusOk])

/-- 41_cmd_ident_ack R132, R133, 40_framer R119, 60_exceptions R250, 70_reset R274: the step that runs Leave sends the
whole reply, then deactivates the indicator and hands off; memory and the session registers stay as they are and no
byte is read. -/
def Obligations.LeaveEndsTheSession : Prop :=
  ∀ s : State, s.Inv → 2 ≤ s.cfg.msgBufSize → s.phase = .loop → s.fstate = .process → s.uncut →
    s.msg[0]? = some s.cfg.opcodes.leaveProgmode →
    step s = .next
      { s with
        exitFlag := true
        led := false
        phase := .handedOff
        fstate := .awaitStart
        msg := s.msg.take 1 ++ [s.cfg.statusOk] ++ s.msg.drop 2
        len := 2
        tx := s.tx ++ frame s.cfg s.seq 2 [s.cfg.opcodes.leaveProgmode, s.cfg.statusOk] }

/-- 41_cmd_ident_ack R126: status, the string's length, the string. -/
def Obligations.SignOnAnswersTheString : Prop :=
  ∀ s : State, s.msg.length = s.cfg.msgBufSize → 3 + s.cfg.signOnString.length ≤ s.cfg.msgBufSize →
    exec .signOn s = .next (s.withReply
      ([s.cfg.statusOk, BitVec.ofNat 8 s.cfg.signOnString.length] ++ s.cfg.signOnString))

/-- 41_cmd_ident_ack R128, R129: the constant of a known id, 0 for any other, always `OK`. That an id which two rows
share has the value of the first row of R129's table is the model's choice (notes/assumptions/33.md). -/
def Obligations.GetParameterAnswersConstants : Prop :=
  ∀ (s : State) (id : Byte), s.msg.length = s.cfg.msgBufSize → 3 ≤ s.cfg.msgBufSize →
    exec (.getParameter id) s = .next (s.withReply [s.cfg.statusOk,
      if id = s.cfg.params.buildLowId then s.cfg.params.buildLow
      else if id = s.cfg.params.buildHighId then s.cfg.params.buildHigh
      else if id = s.cfg.params.hwVerId then s.cfg.params.hwVer
      else if id = s.cfg.params.swMajorId then s.cfg.params.swMajor
      else if id = s.cfg.params.swMinorId then s.cfg.params.swMinor
      else 0])

/-- 41_cmd_ident_ack R136, 60_exceptions R240: reply length 2, status FAILED, no other effect. -/
def Obligations.UnrecognisedIsAnsweredFailed : Prop :=
  ∀ (s : State) (op : Byte), s.msg.length = s.cfg.msgBufSize → 2 ≤ s.cfg.msgBufSize →
    exec (.unrecognised op) s = .next (s.withReply [s.cfg.statusFailed])

/-! ## Device commands -/

/-- 42_cmd_device R140, R141: the signature byte the index selects, between two status bytes. -/
def Obligations.ReadSignatureSelectsByte : Prop :=
  ∀ (s : State) (index : Byte), s.msg.length = s.cfg.msgBufSize → 4 ≤ s.cfg.msgBufSize →
    exec (.readSignature index) s = .next (s.withReply [s.cfg.statusOk,
      if index = 0 then s.cfg.signature.extractLsb' 16 8
      else if index = 1 then s.cfg.signature.extractLsb' 8 8
      else s.cfg.signature.extractLsb' 0 8, s.cfg.statusOk])

/-- 42_cmd_device R142 to R146: lock bits verbatim; the fuse the two selectors choose; no side effect. -/
def Obligations.LockAndFuseAreReadVerbatim : Prop :=
  ∀ (s : State) (sel0 sel1 : Byte), s.msg.length = s.cfg.msgBufSize → 4 ≤ s.cfg.msgBufSize →
    exec .readLock s = .next (s.withReply [s.cfg.statusOk, s.lockBits, s.cfg.statusOk]) ∧
    exec (.readFuse sel0 sel1) s = .next (s.withReply [s.cfg.statusOk,
      if sel0 = 0x50 then (if sel1 = 0x08 then s.fuseExt else s.fuseLow) else s.fuseHigh, s.cfg.statusOk])

/-- 42_cmd_device R148: the net effect on the lock bits, and the reply. -/
def Obligations.ProgramLockNarrows : Prop :=
  ∀ (s : State) (req : Byte), s.msg.length = s.cfg.msgBufSize → 3 ≤ s.cfg.msgBufSize →
    exec (.programLock req) s = .next
      ({ s with lockBits := s.lockBits &&& (req ||| 0xC3) }.withReply [s.cfg.statusOk, s.cfg.statusOk])

/-- 42_cmd_device R151 to R153: the emulated sub-commands, the dummy answer for any other, `FAILED` where the handler
is absent; nothing is written. -/
def Obligations.SpiMultiAnswers : Prop :=
  ∀ (s : State) (sub sidx : Byte), s.msg.length = s.cfg.msgBufSize → 7 ≤ s.cfg.msgBufSize →
    (s.cfg.spiMultiPresent = true → exec (.spiMulti sub sidx) s = .next (s.withReply [s.cfg.statusOk, 0, sub, 0,
      if sub = 0x30 then
        (if sidx = 0 then s.cfg.signature.extractLsb' 16 8
        else if sidx = 1 then s.cfg.signature.extractLsb' 8 8
        else s.cfg.signature.extractLsb' 0 8)
      else if sub = 0x50 then s.fuseLow
      else if sub = 0x58 then s.fuseHigh
      else 0, s.cfg.statusOk])) ∧
    (s.cfg.spiMultiPresent = false → exec (.spiMulti sub sidx) s = .next (s.withReply [s.cfg.statusFailed]))

/-! ## Session commands -/

/-- 43_cmd_session R160, R161: the frontier goes to 0, the status is FAILED, nothing is erased. -/
def Obligations.ChipEraseErasesNothing : Prop :=
  ∀ s : State, s.msg.length = s.cfg.msgBufSize → 2 ≤ s.cfg.msgBufSize →
    exec .chipErase s = .next ({ s with eraseFrontier := 0 }.withReply [s.cfg.statusFailed])

/-- 43_cmd_session R163, R164, R165: twice the word address, modulo 2 to the `ADDR_W`; the result is even; nothing
else but the buffer and the length changes. -/
def Obligations.LoadAddressDoubles : Prop :=
  ∀ (s : State) (waddr : Word), s.msg.length = s.cfg.msgBufSize → 2 ≤ s.cfg.msgBufSize →
    ∃ a : Word, exec (.loadAddress waddr) s = .next ({ s with currentAddress := a }.withReply [s.cfg.statusOk]) ∧
      a.toNat = 2 * waddr.toNat % 2 ^ s.cfg.addrWidth.bits ∧ a.toNat % 2 = 0

/-- 43_cmd_session R166, R167: the total, the progress bookkeeping reset, the address registers untouched. -/
def Obligations.SetUploadSizeResetsProgress : Prop :=
  ∀ (s : State) (total : BitVec 24), s.msg.length = s.cfg.msgBufSize → 2 ≤ s.cfg.msgBufSize →
    ∃ n : Word, n.toNat = total.toNat ∧ exec (.setUploadSize total) s = .next
      ({ s with totalUploadSize := n, bytesTransferred := 0, operationKind := .none }.withReply [s.cfg.statusOk])

/-! ## Program and read commands -/

/-- 44_cmd_program R181, R182, R183, R184, R187, R189: the four outcomes by where the frontier and the packet start;
every register and every byte of flash the command leaves alone. Two kinds of packet are covered by the model's reading:
from an odd start address (R282, 93 U3 leave it unspecified) nothing but the packet's page is touched and the address
still advances (DESIGN CHOICE, notes/assumptions/15.md); a size of 0 or an odd size follows R189, the spec's decision
D22, which 93 U1 advises to refuse (DEDUCED, notes/assumptions/17.md). -/
def Obligations.ProgramFlashOutcomes : Prop :=
  ∀ (s : State) (size : Half) (data : List Byte), s.Inv → data.length = size.toNat → 2 ≤ s.cfg.msgBufSize →
    ∃ t, exec (.programFlash size data) s = .next t ∧
      t = { s with
        currentAddress := t.currentAddress
        eraseFrontier := t.eraseFrontier
        bytesTransferred := t.bytesTransferred
        operationKind := t.operationKind
        rwwBlocked := t.rwwBlocked
        flash := t.flash
        freeCount := t.freeCount
        msg := s.msg.take 1 ++ [s.cfg.statusOk] ++ s.msg.drop 2
        len := 2 } ∧
      t.eraseFrontier.toNat =
        (if s.eraseFrontier.toNat < s.cfg.boundary then s.eraseFrontier.toNat + s.cfg.pageSize
          else s.eraseFrontier.toNat) ∧
      t.currentAddress =
        (if s.currentAddress.toNat < s.cfg.boundary then s.addressAfter (2 * (size.toNat / 2)) else s.currentAddress) ∧
      t.rwwBlocked =
        (if s.currentAddress.toNat < s.cfg.boundary then false
          else if s.eraseFrontier.toNat < s.cfg.boundary then true else s.rwwBlocked) ∧
      t.bytesTransferred =
        (if s.totalUploadSize = 0 then s.bytesTransferred
          else if s.currentAddress = 0 then size.setWidth 32 else s.bytesTransferred + size.setWidth 32) ∧
      t.operationKind =
        (if s.totalUploadSize ≠ 0 ∧ s.currentAddress = 0 then .write else s.operationKind) ∧
      (∀ x, ¬ (s.eraseFrontier.toNat < s.cfg.boundary ∧ inPageOf s.cfg s.eraseFrontier.toNat x) →
        ¬ (s.currentAddress.toNat < s.cfg.boundary ∧ inPageOf s.cfg s.currentAddress.toNat x) →
        t.flash.read x = s.flash.read x) ∧
      (∀ x, s.eraseFrontier.toNat < s.cfg.boundary → inPageOf s.cfg s.eraseFrontier.toNat x →
        ¬ (s.currentAddress.toNat < s.cfg.boundary ∧ inPageOf s.cfg s.currentAddress.toNat x) →
        t.flash.read x = s.cfg.erasedByte)

/-- 44_cmd_program R177, R178, R183, R185, R188: the page a packet from an even address is committed to. The old
content is the erased byte where the erase-ahead took that page; the slot a data byte was filled into last holds old
and data; a slot never filled holds old and erased byte. The and-model and the page of the start address are
notes/assumptions/18.md. A size of 0 or an odd size is covered too, by the reading of R189, the spec's decision D22,
which 93 U1 advises to refuse (DEDUCED, notes/assumptions/17.md): whole words only. -/
def Obligations.ProgramFlashPageContents : Prop :=
  ∀ (s t : State) (size : Half) (data : List Byte), s.Inv → data.length = size.toNat →
    s.currentAddress.toNat < s.cfg.boundary → s.currentAddress.toNat % 2 = 0 →
    exec (.programFlash size data) s = .next t →
    ∀ k, k < s.cfg.pageSize →
      let x := pageOf s.cfg s.currentAddress.toNat + k
      let old := if s.eraseFrontier.toNat < s.cfg.boundary ∧ inPageOf s.cfg s.eraseFrontier.toNat x
        then s.cfg.erasedByte else s.flash.read x
      (∀ i, i < 2 * (size.toNat / 2) → (s.currentAddress.toNat + i) % s.cfg.pageSize = k →
        (∀ j, i < j → j < 2 * (size.toNat / 2) → (s.currentAddress.toNat + j) % s.cfg.pageSize ≠ k) →
        t.flash.read x = old &&& data.getD i 0) ∧
      ((∀ i, i < 2 * (size.toNat / 2) → (s.currentAddress.toNat + i) % s.cfg.pageSize ≠ k) →
        t.flash.read x = old &&& s.cfg.erasedByte)

/-- 44_cmd_program R190, R191, 20_memory R44, R59: each byte at half the address, which advances by 2; of bytes that
meet at one address the last stands; every other byte of EEPROM and everything else is unchanged. The reduction of an
address beyond the array is the spec's decision D32 (notes/assumptions/19.md). -/
def Obligations.ProgramEepromWritesBytes : Prop :=
  ∀ (s : State) (size : Half) (data : List Byte), s.Inv → data.length = size.toNat → 2 ≤ s.cfg.msgBufSize →
    ∃ e : Memory, exec (.programEeprom size data) s = .next
        ({ s with eeprom := e, currentAddress := s.addressAfter (2 * size.toNat) }.withReply [s.cfg.statusOk]) ∧
      (∀ x, (∀ i, i < size.toNat → s.eepromTarget i ≠ x) → e.read x = s.eeprom.read x) ∧
      (∀ i, i < size.toNat → (∀ j, i < j → j < size.toNat → s.eepromTarget j ≠ s.eepromTarget i) →
        e.read (s.eepromTarget i) = data.getD i 0)

/-- 45_cmd_read R201 to R204, 20_memory R57, R59: the bytes of flash from `currentAddress` on, but for the bytes that
R57 leaves unspecified; the progress registers; everything else unchanged. A size of 0 or an odd size is covered too,
byte by byte as R205 reads it, the spec's decision D22, which 93 U1 advises to refuse (DEDUCED,
notes/assumptions/17.md). An address beyond the array is reduced (decision D32, notes/assumptions/19.md). -/
def Obligations.ReadFlashReturnsBytes : Prop :=
  ∀ (s : State) (size : Half), s.Inv → size.toNat + 3 ≤ s.cfg.msgBufSize →
    ∃ (d : List Byte) (free : Nat), d.length = size.toNat ∧
      exec (.readFlash size) s = .next
        ({ s with
          currentAddress := s.addressAfter size.toNat
          bytesTransferred :=
            if s.totalUploadSize = 0 then s.bytesTransferred
            else if s.currentAddress = 0 then size.setWidth 32 else s.bytesTransferred + size.setWidth 32
          operationKind := if s.totalUploadSize ≠ 0 ∧ s.currentAddress = 0 then .verify else s.operationKind
          freeCount := free }.withReply (s.cfg.statusOk :: d ++ [s.cfg.statusOk])) ∧
      (∀ i, i < size.toNat → s.rwwBlocked = false ∨ s.cfg.boundary ≤ s.flashTarget i →
        d.getD i 0 = s.flash.read (s.flashTarget i)) ∧
      (s.rwwBlocked = false → free = s.freeCount)

/-- 45_cmd_read R207, R208: the bytes of EEPROM at half the address, which advances by 2; the progress registers and
everything else unchanged. An address beyond the array is reduced modulo its size: 20_memory R59, the spec's decision
D32, 93 U8 (DEDUCED, notes/assumptions/19.md). -/
def Obligations.ReadEepromReturnsBytes : Prop :=
  ∀ (s : State) (size : Half), s.Inv → size.toNat + 3 ≤ s.cfg.msgBufSize →
    exec (.readEeprom size) s = .next
      ({ s with currentAddress := s.addressAfter (2 * size.toNat) }.withReply
        (s.cfg.statusOk :: (List.range size.toNat).map (fun i => s.eeprom.read (s.eepromTarget i)) ++ [s.cfg.statusOk]))

/-- 20_memory R46, 93 U6: where a command forms an index of the buffer at or beyond its end. -/
def Obligations.BufferOverrunStops : Prop :=
  ∀ (s : State) (size : Half) (data : List Byte),
    (s.cfg.msgBufSize < size.toNat + 3 → exec (.readFlash size) s = .fault .msgIndexOutOfRange ∧
      exec (.readEeprom size) s = .fault .msgIndexOutOfRange) ∧
    (data.length < 2 * (size.toNat / 2) → s.currentAddress.toNat < s.cfg.boundary →
      exec (.programFlash size data) s = .fault .msgIndexOutOfRange) ∧
    (data.length < size.toNat → exec (.programEeprom size data) s = .fault .msgIndexOutOfRange)

/-- 44_cmd_program R193, R184, 45_cmd_read R211 (section 8, properties 3 and 5): packets of an even size that divides
the page, from address 0 with the frontier at 0, leave exactly their bytes in flash; the counter and the kind say so
when a total was declared; a Read flash from address 0 returns the bytes. The Read flash may have a size of 0 or an odd
size, the reading of R205 (decision D22, DEDUCED, notes/assumptions/17.md). -/
def Obligations.ProgrammingPassReadsBack : Prop :=
  ∀ (s : State) (size : Half) (packets : List (List Byte)), s.Inv → 2 ≤ s.cfg.msgBufSize →
    s.cfg.erasedByte = 0xFF → s.currentAddress = 0 → s.eraseFrontier = 0 →
    size.toNat % 2 = 0 → 0 < size.toNat → s.cfg.pageSize % size.toNat = 0 →
    (∀ p ∈ packets, p.length = size.toNat) → packets ≠ [] → packets.length * size.toNat ≤ s.cfg.boundary →
    ∃ t, execAll (packets.map (Instr.programFlash size)) s = .next t ∧
      t.rwwBlocked = false ∧ t.currentAddress.toNat = packets.length * size.toNat ∧
      (∀ x, x < packets.length * size.toNat → t.flash.read x = packets.flatten.getD x 0) ∧
      (∀ x, s.cfg.boundary ≤ x → t.flash.read x = s.flash.read x) ∧
      (s.totalUploadSize ≠ 0 →
        t.bytesTransferred.toNat = packets.length * size.toNat ∧ t.operationKind = .write) ∧
      (∀ n : Half, n.toNat ≤ packets.length * size.toNat → n.toNat + 3 ≤ s.cfg.msgBufSize →
        ∃ u, execAll [.loadAddress 0, .readFlash n] t = .next u ∧ u.len.toNat = n.toNat + 3 ∧
          (u.msg.drop 2).take n.toNat = packets.flatten.take n.toNat)

/-- 45_cmd_read R210 (section 8, property 5): after a declared total, Load address 0 and Read flash commands whose
sizes sum to N end with the counter at N and the kind Verify, and the display shows N of the total. That reads count as
writes do and how the percentage is formed is the spec's decision D20 (R203, 10_state R37); sizes of 0 and odd sizes
follow R205 (decision D22, which 93 U1 advises to refuse; DEDUCED, notes/assumptions/17.md). -/
def Obligations.VerifyPassCounts : Prop :=
  ∀ (s : State) (sizes : List Half), s.Inv → 2 ≤ s.cfg.msgBufSize → s.totalUploadSize ≠ 0 → sizes ≠ [] →
    (∀ n ∈ sizes, n.toNat + 3 ≤ s.cfg.msgBufSize) →
    (sizes.map BitVec.toNat).sum < 2 ^ s.cfg.addrWidth.bits →
    ∃ t, execAll (.loadAddress 0 :: sizes.map .readFlash) s = .next t ∧
      t.bytesTransferred.toNat = (sizes.map BitVec.toNat).sum ∧ t.operationKind = .verify ∧
      t.display = (.verify, some (100 * (sizes.map BitVec.toNat).sum / s.totalUploadSize.toNat))

/-! ## The self-update replay -/

/-- 46_self_update R217: with `DeferRun` nothing is erased or copied and control goes to the application at once; the
mailbox is untouched, which is the spec's decision D29. -/
def Obligations.DeferRunHandsOff : Prop :=
  ∀ (s : State) (source destination : Word) (size : Half) (flags : ReplayFlags), flags.deferRun = true →
    exec (.selfUpdateReplay source destination size flags) s = .next { s with phase := .handedOff }

/-- 46_self_update R216, R231 (a), 70_reset R268: a magic that is not the sentinel means normal boot; no other field of
the descriptor is read and nothing but the boot's own registers changes. -/
def Obligations.BadMagicBootsNormally : Prop :=
  ∀ s : State, s.phase = .replay → s.uncut → s.desc.magic ≠ s.cfg.magic →
    step s = .next { s with phase := .wait, led := true, wdtReset := false, wdtEnable := false }

/-- 46_self_update R218, R219, R225 to R227: the replay ends in the hand-off with the magic invalidated, the page
buffer empty and the read-while-write memory enabled; no session register, no reply, no EEPROM byte and no protected
flash byte is touched; with neither flag set no flash byte is. The values of the other descriptor fields are free. -/
def Obligations.ReplayEndsInHandoff : Prop :=
  ∀ (s : State) (source destination : Word) (size : Half) (flags : ReplayFlags), s.Inv → flags.deferRun = false →
    ∃ t, exec (.selfUpdateReplay source destination size flags) s = .next t ∧
      t = { s with
        phase := .handedOff
        flash := t.flash
        rwwBlocked := t.rwwBlocked
        freeCount := t.freeCount
        desc := t.desc } ∧
      t.desc.magic = 0 ∧ t.desc.magic ≠ s.cfg.magic ∧
      (s.rwwBlocked = false ∨ size ≠ 0 → t.rwwBlocked = false) ∧
      (∀ x, s.cfg.boundary ≤ x → t.flash.read x = s.flash.read x) ∧
      (flags.eraseDestination = false → flags.copyData = false → t.flash = s.flash)

/-- 46_self_update R219, R231 (b) (section 8, property 7): with `EraseDestination` alone, every byte of every page the
span touches below the boundary is erased and no other byte of flash changes. A span that is unaligned, has an odd size
or reaches the boundary is covered by the loop of R218 and the test of R224, the spec's decision D29; 93 U9 advises to
refuse such a descriptor (DEDUCED, notes/assumptions/20.md). -/
def Obligations.EraseOnlyReplayErasesTheSpan : Prop :=
  ∀ (s t : State) (source destination : Word) (size : Half) (flags : ReplayFlags), s.Inv →
    flags.deferRun = false → flags.eraseDestination = true → flags.copyData = false →
    destination.toNat + size.toNat ≤ 2 ^ 32 →
    exec (.selfUpdateReplay source destination size flags) s = .next t →
    ∀ x, t.flash.read x =
      if size ≠ 0 ∧ pageOf s.cfg destination.toNat ≤ x ∧
        x < pageOf s.cfg (destination.toNat + size.toNat - 1) + s.cfg.pageSize ∧ x < s.cfg.boundary
      then s.cfg.erasedByte else s.flash.read x

/-- 46_self_update R219, R221, R231 (c): a RAM source, a page-aligned destination, an even size and a span below the
boundary. Each byte of the span takes the RAM byte and-ed with what the commit finds there, the erased byte with
`EraseDestination` and the old content without; so, with both flags and an erased byte of 0xFF, the RAM byte itself.
The rest of the last page holds what the erase or the old content left, and-ed with the empty buffer. The and-model is
the spec's decision D17 (notes/assumptions/18.md); that a source span may wrap past the top of the 32-bit address, which
R230 calls not well formed, is the reading of notes/assumptions/20.md. -/
def Obligations.CopyReplayCopiesFromRam : Prop :=
  ∀ (s t : State) (source destination : Word) (size : Half) (flags : ReplayFlags), s.Inv →
    flags.deferRun = false → flags.copyData = true → flags.sourceIsProgramMemory = false →
    destination.toNat % s.cfg.pageSize = 0 → size.toNat % 2 = 0 → 0 < size.toNat →
    destination.toNat + size.toNat ≤ s.cfg.boundary →
    exec (.selfUpdateReplay source destination size flags) s = .next t →
    (∀ i, i < size.toNat →
      t.flash.read (destination.toNat + i) =
        s.beforeCopy flags (destination.toNat + i) &&& s.ram.read (source + BitVec.ofNat 32 i).toNat) ∧
    s.CopiesNothingElse t flags destination size ∧
    (flags.eraseDestination = true → s.cfg.erasedByte = 0xFF → ∀ i, i < size.toNat →
      t.flash.read (destination.toNat + i) = s.ram.read (source + BitVec.ofNat 32 i).toNat)

/-- 46_self_update R219, R221, R222, 20_memory R57, 70_reset R285: the same from program memory. A source byte at or above
the boundary is the flash byte there, with `EraseDestination` or without. A source byte below the boundary is read
without `EraseDestination` only, where the region is enabled: the flash byte there at the moment of the fill, so the new
one where an earlier page of the replay holds it; with `EraseDestination` it is unspecified and nothing is said of it.
The reduction of a source beyond the array and the test on the reduced address are log entries 19 and 14; the rest as
in the statement before. -/
def Obligations.CopyReplayCopiesFromFlash : Prop :=
  ∀ (s t : State) (source destination : Word) (size : Half) (flags : ReplayFlags), s.Inv →
    flags.deferRun = false → flags.copyData = true → flags.sourceIsProgramMemory = true →
    destination.toNat % s.cfg.pageSize = 0 → size.toNat % 2 = 0 → 0 < size.toNat →
    destination.toNat + size.toNat ≤ s.cfg.boundary →
    exec (.selfUpdateReplay source destination size flags) s = .next t →
    (∀ i, i < size.toNat →
      let x := flashIndex s.cfg (source + BitVec.ofNat 32 i).toNat
      (s.cfg.boundary ≤ x →
        t.flash.read (destination.toNat + i) =
          s.beforeCopy flags (destination.toNat + i) &&& s.flash.read x) ∧
      (x < s.cfg.boundary → flags.eraseDestination = false → s.rwwBlocked = false →
        t.flash.read (destination.toNat + i) =
          s.flash.read (destination.toNat + i) &&&
            (if destination.toNat ≤ x ∧ x < pageOf s.cfg (destination.toNat + i) then t.flash.read x
              else s.flash.read x))) ∧
    s.CopiesNothingElse t flags destination size

/-! ## The boot arbiter -/

/-- 60_exceptions R246, 70_reset R274: the outer time-out deactivates the indicator and hands off, unconditionally. -/
def Obligations.OuterTimeoutHandsOff : Prop :=
  ∀ (s : State) (rest : List Event), s.phase = .wait → s.env = .expire :: rest →
    step s = .next { s with env := rest, led := false, phase := .handedOff }

/-- 70_reset R270, R271, 40_framer R118: any first byte enters the loop and is the decoder's first input; nothing else
changes but the indicator, whose state in the loop is unspecified (92 D33), so that nothing is said of it, and the
model's own counter of free values. -/
def Obligations.FirstByteEntersLoop : Prop :=
  ∀ (s : State) (b : Byte) (rest : List Event), s.phase = .wait → s.env = .byte b :: rest →
    ∃ led free, step s = .next
      (if b = s.cfg.start then
        { s with
          env := rest, phase := .loop, cksum := s.cfg.start, fstate := .awaitSequence, led := led, freeCount := free }
      else { s with env := rest, phase := .loop, fstate := .awaitStart, led := led, freeCount := free })

/-- 70_reset R269: a poll of the first wait that finds no byte changes the indicator alone. That the indicator's value
is then free, counted by the model's own `freeCount`, is the model's choice (notes/assumptions/4.md, 14.md). -/
def Obligations.QuietPollChangesOnlyTheIndicator : Prop :=
  ∀ s : State, s.phase = .wait →
    (s.env = [] → ∃ led free, step s = .next { s with led := led, freeCount := free }) ∧
    (∀ rest, s.env = .quiet :: rest → ∃ led free, step s = .next { s with env := rest, led := led, freeCount := free })

/-- 60_exceptions R247, R248, R249: when the receive guard's counter expires, an application hands the run off at once
and an erased first word lets the wait go on; nothing else changes, in any decoder state. While the region is blocked
the word is unspecified and either may happen. -/
def Obligations.ReceiveGuardTestsTheFirstWord : Prop :=
  ∀ (s : State) (rest : List Event), s.cfg.Wf → s.phase = .loop → s.fstate ≠ .process → s.env = .expire :: rest →
    (s.rwwBlocked = false → step s = .next
      { s with
        env := rest
        phase := if (s.flash.read 1 ++ s.flash.read 0 : Half) ≠ s.cfg.erasedWord then .handedOff else .loop }) ∧
    (∃ (p : Phase) (free : Nat), (p = .loop ∨ p = .handedOff) ∧
      step s = .next { s with env := rest, phase := p, freeCount := free })

/-- 60_exceptions R249: with the first word erased and a silent host the block waits in the loop for ever. -/
def Obligations.SilentLoopWaitsForEver : Prop :=
  ∀ (s : State) (n : Nat), s.cfg.Wf → s.phase = .loop → s.fstate ≠ .process → s.rwwBlocked = false →
    (s.flash.read 1 ++ s.flash.read 0 : Half) = s.cfg.erasedWord →
    (∀ e ∈ s.env, e = .quiet ∨ e = .expire) →
    runSteps n s = .next { s with env := s.env.drop n }

/-- 70_reset R275: after the hand-off the block "receives nothing, sends nothing, writes nothing": a byte, a poll and a
time-out pass and change no piece of its state. That with no event left its step is the fault of that name is the
model's choice (notes/assumptions/12.md). -/
def Obligations.HandedOffIsTerminal : Prop :=
  ∀ s : State, s.phase = .handedOff →
    (∀ e rest, s.env = e :: rest → e.resetCause = none → step s = .next { s with env := rest }) ∧
    (s.env = [] → step s = .fault .handedOff)

/-- 70_reset R267: the phase transitions, complete. In `HandedOff` an event that is no reset passes and the phase stays,
the model's form of "no step" (notes/assumptions/12.md). -/
def Obligations.PhaseTransitionsAreComplete : Prop :=
  ∀ (s t : State), s.Inv → step s = .next t →
    (s.phase = .replay ∧ s.desc.magic ≠ s.cfg.magic ∧ t.phase = .wait) ∨
    (s.phase = .replay ∧ s.desc.magic = s.cfg.magic ∧ t.phase = .handedOff) ∨
    (s.phase = .wait ∧ t.phase = .wait ∧ (s.env = [] ∨ ∃ rest, s.env = .quiet :: rest)) ∨
    (s.phase = .wait ∧ t.phase = .loop ∧ ∃ b rest, s.env = .byte b :: rest) ∨
    (s.phase = .wait ∧ t.phase = .handedOff ∧ ∃ rest, s.env = .expire :: rest) ∨
    (s.phase = .loop ∧ t.phase = .loop ∧ t.exitFlag = false) ∨
    (s.phase = .loop ∧ t.phase = .handedOff ∧ s.fstate = .process ∧ t.exitFlag = true) ∨
    (s.phase = .loop ∧ t.phase = .handedOff ∧ s.fstate ≠ .process ∧ ∃ rest, s.env = .expire :: rest) ∨
    (s.phase = .handedOff ∧ ∃ e rest, s.env = e :: rest ∧ e.resetCause = none ∧ t = { s with env := rest }) ∨
    (∃ cause, s.resetNext cause ∧ t.phase = if cause = .watchdog then .replay else .wait)

/-- 70_reset R265, R266, R267: a reset restarts the block wherever it waits for an event; after the hand-off too, however
many bytes, polls and time-outs come before it there, and what the application did before the reset stands
(00_scope R5; notes/assumptions/12.md, 34.md). -/
def Obligations.ResetRestartsTheBlock : Prop :=
  ∀ (s : State) (cause : ResetCause) (e : Event) (rest : List Event), s.env = e :: rest →
    e.resetCause = some cause →
    (s.phase = .wait ∨ (s.phase = .loop ∧ s.fstate ≠ .process) →
      step s = .next ({ s with env := rest }.afterReset cause)) ∧
    (s.phase = .handedOff →
      step s = .next (({ s with env := rest }.runApplication e.applicationEffects).afterReset cause)) ∧
    (s.phase = .handedOff → ∀ before : List Event, (∀ x ∈ before, x.resetCause = none) →
      runSteps (before.length + 1) { s with env := before ++ s.env } =
        .next (({ s with env := rest }.runApplication e.applicationEffects).afterReset cause))

/-- 00_scope R5, 10_state R29, R32, 60_exceptions R259: what the application leaves between a hand-off and a reset is what
the next run of the block finds. The last write to a byte stands and a byte it does not write is as it was; the mailbox
and RAM likewise, unless the power was off; lock bits are at most cleared; the configuration, the fuses and the
transmitted bytes are as they were. Which of these the application can change is the model's choice
(notes/assumptions/34.md). -/
def Obligations.ApplicationEffectsReachTheNextRun : Prop :=
  ∀ (s : State) (did : List ApplicationEffect) (cause : ResetCause) (rest : List Event), s.Inv →
    s.phase = .handedOff → s.env = .applicationThenReset did cause :: rest →
    ∃ t, step s = .next t ∧ t.env = rest ∧ t.phase = (if cause = .watchdog then .replay else .wait) ∧
      t.cfg = s.cfg ∧ t.fuseLow = s.fuseLow ∧ t.fuseHigh = s.fuseHigh ∧ t.fuseExt = s.fuseExt ∧ t.tx = s.tx ∧
      (∀ x, (∀ a b, .flash a b ∈ did → flashIndex s.cfg a.toNat ≠ x) → t.flash.read x = s.flash.read x) ∧
      (∀ before a b after, did = before ++ .flash a b :: after →
        (∀ a' b', .flash a' b' ∈ after → flashIndex s.cfg a'.toNat ≠ flashIndex s.cfg a.toNat) →
        t.flash.read (flashIndex s.cfg a.toNat) = b) ∧
      (∀ x, (∀ a b, .eeprom a b ∈ did → eepromIndex s.cfg a ≠ x) → t.eeprom.read x = s.eeprom.read x) ∧
      (∀ before a b after, did = before ++ .eeprom a b :: after →
        (∀ a' b', .eeprom a' b' ∈ after → eepromIndex s.cfg a' ≠ eepromIndex s.cfg a) →
        t.eeprom.read (eepromIndex s.cfg a) = b) ∧
      (cause ≠ .powerOn →
        (∀ x, (∀ a b, .ram a b ∈ did → a.toNat ≠ x) → t.ram.read x = s.ram.read x) ∧
        (∀ before a b after, did = before ++ .ram a b :: after → (∀ b', .ram a b' ∉ after) →
          t.ram.read a.toNat = b) ∧
        ((∀ d, .descriptor d ∉ did) → t.desc = s.desc) ∧
        (∀ before d after, did = before ++ .descriptor d :: after → (∀ d', .descriptor d' ∉ after) → t.desc = d)) ∧
      (∃ m : Byte, t.lockBits = s.lockBits &&& m) ∧ ((∀ v, .lockBits v ∉ did) → t.lockBits = s.lockBits)

/-- 70_reset R277, 20_memory R55, 93 U12: a reset inside a command restarts the block and leaves every byte of flash,
EEPROM and the lock byte alone but those the command itself would change; below the boundary only, for flash. -/
def Obligations.ResetInsideACommand : Prop :=
  ∀ (s t : State) (i : Instr) (cause : ResetCause) (ops sent : Nat) (rest : List Event), s.Inv → s.phase = .loop →
    s.fstate = .process → s.env = .resetInside cause ops sent :: rest → decode s.cfg (.request s.msg) = .ok i →
    step s = .next t →
    t.env = rest ∧ t.phase = (if cause = .watchdog then .replay else .wait) ∧ t.fstate = .awaitStart ∧
    t.currentAddress = 0 ∧ t.eraseFrontier = 0 ∧ t.totalUploadSize = 0 ∧ t.exitFlag = false ∧
    t.rwwBlocked = false ∧ t.pbuf = emptyPbuf s.cfg ∧
    ((∀ size data, i ≠ .programFlash size data) → t.flash = s.flash) ∧
    (∀ x, ¬ (s.eraseFrontier.toNat < s.cfg.boundary ∧ inPageOf s.cfg s.eraseFrontier.toNat x) →
      ¬ (s.currentAddress.toNat < s.cfg.boundary ∧ inPageOf s.cfg s.currentAddress.toNat x) →
      t.flash.read x = s.flash.read x) ∧
    ((∀ size data, i ≠ .programEeprom size data) → t.eeprom = s.eeprom) ∧
    (∀ size data, i = .programEeprom size data →
      ∀ x, (∀ k, k < size.toNat → s.eepromTarget k ≠ x) → t.eeprom.read x = s.eeprom.read x) ∧
    ((∀ req, i ≠ .programLock req) → t.lockBits = s.lockBits)

/-- 70_reset R277: a replay cut short by a watchdog reset finds the magic still valid and runs again, whatever the
other fields then hold; cut short by another reset it is not resumed. The event and what it leaves of the mailbox are the
model's (notes/assumptions/11.md). -/
def Obligations.ResetInsideAReplay : Prop :=
  ∀ (s : State) (cause : ResetCause) (ops sent : Nat) (rest : List Event), s.phase = .replay →
    s.env = .resetInside cause ops sent :: rest → s.desc.magic = s.cfg.magic →
    ∃ t, step s = .next t ∧ t.env = rest ∧ t.tx = s.tx ∧
      (cause = .watchdog → t.phase = .replay ∧ t.desc.magic = t.cfg.magic) ∧
      (cause ≠ .watchdog → t.phase = .wait) ∧
      (s.desc.flags.deferRun = true → cause ≠ .powerOn → t.desc = s.desc) ∧
      (s.desc.flags.deferRun = true → t.flash = s.flash)

/-- 70_reset R265, R266, 10_state R39: what any of the three resets leaves in the registers whose reset value the
spec gives, what it keeps, and which phase follows. The registers' zeros are the spec's decision D25. -/
def Obligations.ResetLeavesTheSpecValues : Prop :=
  ∀ (s : State) (cause : ResetCause),
    let t := s.afterReset cause
    t.currentAddress = 0 ∧ t.eraseFrontier = 0 ∧ t.totalUploadSize = 0 ∧ t.bytesTransferred = 0 ∧
    t.operationKind = .none ∧ t.fstate = .awaitStart ∧ t.exitFlag = false ∧ t.pbuf = emptyPbuf s.cfg ∧
    t.rwwBlocked = false ∧ t.phase = (if cause = .watchdog then .replay else .wait) ∧
    t.cfg = s.cfg ∧ t.flash = s.flash ∧ t.eeprom = s.eeprom ∧ t.lockBits = s.lockBits ∧
    t.fuseLow = s.fuseLow ∧ t.fuseHigh = s.fuseHigh ∧ t.fuseExt = s.fuseExt ∧ t.tx = s.tx ∧ t.env = s.env ∧
    (cause ≠ .powerOn → t.desc = s.desc ∧ t.ram = s.ram) ∧
    (cause = .powerOn → t.desc.magic = 0)

/-! ## The whole machine -/

/-- `State.reset` meets the invariant. -/
def Obligations.ResetMeetsInvariant : Prop := State.reset.Inv

/-- 10_state R11, R22, R26, R29, 30_encoding R74, 44_cmd_program R186: every step keeps the invariant. -/
def Obligations.StepKeepsInvariant : Prop :=
  ∀ (s t : State), s.Inv → step s = .next t → t.Inv

/-- 20_memory R60, 46_self_update R224 (section 8, property 4): no run, whatever the host sends and whatever the
mailbox holds, changes a flash byte at or above the protection boundary; where the run goes on after a hand-off and a
reset, unless the application itself, which is no part of the block (00_scope R5), writes that byte. -/
def Obligations.ProtectedRegionNeverChanges : Prop :=
  ∀ (s t : State) (n a : Nat), s.Inv → runSteps n s = .next t → s.cfg.boundary ≤ a →
    (∀ did cause x b, .applicationThenReset did cause ∈ s.env → .flash x b ∈ did →
      flashIndex s.cfg x.toNat ≠ a) →
    t.flash.read a = s.flash.read a

/-- 42_cmd_device R149: over any step lock bits are only cleared, and only bits 5 to 2, but for a reset event before
which the application, outside the block, clears others (notes/assumptions/34.md). A lock write that a reset cuts short
is covered: that it may clear only the bits it was to clear, where 93 U12 gives the lock byte any value, is the model's
reading of R149 (DEDUCED, notes/assumptions/11.md). -/
def Obligations.LockBitsOnlyNarrow : Prop :=
  ∀ (s t : State), step s = .next t →
    ∃ m : Byte, t.lockBits = s.lockBits &&& m ∧ (m ||| 0x3C = 0xFF ∨ ∃ v, s.applicationNext (.lockBits v))

/-- 10_state R29, R31, R33, 20_memory R42: the configuration and the fuses never change; EEPROM changes only by a
Program EEPROM, flash only by a Program flash or a trusted replay, RAM only by a loss of power; or, between a hand-off
and a reset, by the application (00_scope R5; notes/assumptions/34.md). -/
def Obligations.ArraysChangeOnlyByTheirCommands : Prop :=
  ∀ (s t : State), step s = .next t →
    t.cfg = s.cfg ∧ t.fuseLow = s.fuseLow ∧ t.fuseHigh = s.fuseHigh ∧ t.fuseExt = s.fuseExt ∧
    (t.eeprom = s.eeprom ∨
      (s.phase = .loop ∧ s.fstate = .process ∧ s.msg[0]? = some s.cfg.opcodes.programEeprom) ∨
      (∃ a b, s.applicationNext (.eeprom a b))) ∧
    (t.flash = s.flash ∨
      (s.phase = .loop ∧ s.fstate = .process ∧ s.msg[0]? = some s.cfg.opcodes.programFlash) ∨
      (s.phase = .replay ∧ s.desc.magic = s.cfg.magic) ∨
      (∃ a b, s.applicationNext (.flash a b))) ∧
    (t.ram = s.ram ∨ s.resetNext .powerOn ∨ ∃ a b, s.applicationNext (.ram a b))

/-- 10_state R11, 44_cmd_program R194, 43_cmd_session R161: over any step the frontier stays, advances by one page from
below the boundary (a Program flash), or returns to 0 (a Chip erase or a reset). -/
def Obligations.FrontierAdvancesPageByPage : Prop :=
  ∀ (s t : State), s.Inv → step s = .next t →
    t.eraseFrontier = s.eraseFrontier ∨
    (t.eraseFrontier.toNat = s.eraseFrontier.toNat + s.cfg.pageSize ∧ s.eraseFrontier.toNat < s.cfg.boundary ∧
      s.phase = .loop ∧ s.fstate = .process ∧ s.msg[0]? = some s.cfg.opcodes.programFlash) ∨
    (t.eraseFrontier = 0 ∧
      ((s.phase = .loop ∧ s.fstate = .process ∧ s.msg[0]? = some s.cfg.opcodes.chipErase) ∨
        ∃ cause, s.resetNext cause))

/-- 20_memory R53: `currentAddress` stays even over any step but a Read flash of an odd size. -/
def Obligations.AddressStaysEven : Prop :=
  ∀ (s t : State), s.Inv → s.currentAddress.toNat % 2 = 0 → step s = .next t →
    t.currentAddress.toNat % 2 = 0 ∨
    (s.phase = .loop ∧ s.fstate = .process ∧
      ∃ size, decode s.cfg (.request s.msg) = .ok (.readFlash size) ∧ size.toNat % 2 = 1)
end

