-- ==== Sys2Proof/Laws/Memory.lean ====
section
/-! SUPPORT. The laws of a sparse memory: a read after a write, the rest of memory, and the canonical form, which
every operation keeps. -/

namespace Sys2Proof.Machine

@[simp] theorem Memory.read_nil (a : Nat) : Memory.read [] a = unlistedByte := rfl

/-- A canonical memory reads as unlisted below its first listed address. -/
theorem Memory.read_below {m : Memory} {a : Nat} (h : ∀ c ∈ m, a < c.1) : m.read a = unlistedByte := by
  cases m with
  | nil => rfl
  | cons c m => simp [Memory.read, h c (by simp)]

theorem Memory.wf_cons {c : Host.Cell} {m : Memory} :
    Memory.wf (c :: m) ↔ (∀ d ∈ m, c.1 < d.1) ∧ c.2 ≠ unlistedByte ∧ m.wf := by
  simp only [Memory.wf, List.pairwise_cons, List.forall_mem_cons]
  tauto

/-- Reading any address after a write to a canonical memory. -/
theorem Memory.read_write {m : Memory} (h : m.wf) (a x : Nat) (b : Byte) :
    (m.write a b).read x = if x = a then b else m.read x := by
  induction m with
  | nil =>
    by_cases hb : b = unlistedByte
    · simp [Memory.write, hb]
    · by_cases hx : x = a <;> simp [Memory.write, hb, Memory.read, hx]
  | cons c m ih =>
    obtain ⟨k, v⟩ := c
    obtain ⟨hlt, _, hm⟩ := Memory.wf_cons.1 h
    have hbelow : ∀ y, y ≤ k → Memory.read m y = unlistedByte := fun y hy =>
      Memory.read_below fun d hd => by have := hlt d hd; simp at this; omega
    rcases Nat.lt_trichotomy a k with hak | hak | hak
    · by_cases hb : b = unlistedByte
      · by_cases hx : x = a
        · subst hx; simp [Memory.write, hak, hb, Memory.read]
        · simp [Memory.write, hak, hb, hx]
      · by_cases hx : x = a
        · subst hx; simp [Memory.write, hak, hb, Memory.read]
        · by_cases hxa : x < a
          · have : x < k := by omega
            simp [Memory.write, hak, hb, Memory.read, hx, hxa, this]
          · simp [Memory.write, hak, hb, Memory.read, hx, hxa]
    · subst hak
      by_cases hx : x = a
      · subst hx
        by_cases hb : b = unlistedByte
        · simp [Memory.write, hb, hbelow]
        · simp [Memory.write, hb, Memory.read]
      · by_cases hb : b = unlistedByte
        · by_cases hxa : x < a
          · simp [Memory.write, hb, Memory.read, hx, hxa, hbelow x (by omega)]
          · simp [Memory.write, hb, Memory.read, hx, hxa]
        · by_cases hxa : x < a <;> simp [Memory.write, hb, Memory.read, hx, hxa]
    · have h1 : ¬ a < k := by omega
      have h2 : a ≠ k := by omega
      have hw : Memory.write ((k, v) :: m) a b = (k, v) :: Memory.write m a b := by
        simp only [Memory.write, if_neg h1, if_neg h2]
      rw [hw]
      simp only [Memory.read, ih hm]
      by_cases hx : x = a
      · rw [if_neg (by omega), if_neg (by omega), if_pos hx, if_pos hx]
      · simp only [if_neg hx]

theorem Memory.mem_write {m : Memory} {a : Nat} {b : Byte} {c : Host.Cell} (h : c ∈ m.write a b) :
    c ∈ m ∨ (c = (a, b) ∧ b ≠ unlistedByte) := by
  induction m with
  | nil => by_cases hb : b = unlistedByte <;> simp_all [Memory.write]
  | cons d m ih =>
    simp only [Memory.write] at h
    split at h
    · split at h <;> simp_all
      tauto
    · split at h
      · split at h <;> simp_all
        tauto
      · simp only [List.mem_cons] at h ⊢
        rcases h with h | h
        · exact .inl (.inl h)
        · rcases ih h with h | h
          · exact .inl (.inr h)
          · exact .inr h

/-- A write keeps the canonical form. -/
theorem Memory.write_wf {m : Memory} (h : m.wf) (a : Nat) (b : Byte) : (m.write a b).wf := by
  induction m with
  | nil => by_cases hb : b = unlistedByte <;> simp [Memory.write, hb, Memory.wf]
  | cons c m ih =>
    obtain ⟨k, v⟩ := c
    have hc := Memory.wf_cons.1 h
    obtain ⟨hlt, hv, hm⟩ := hc
    by_cases h1 : a < k
    · by_cases hb : b = unlistedByte
      · simpa only [Memory.write, h1, hb, if_true] using h
      · simp only [Memory.write, h1, hb, if_true, if_false]
        refine Memory.wf_cons.2 ⟨?_, hb, h⟩
        intro d hd
        rcases List.mem_cons.1 hd with rfl | hd
        · exact h1
        · exact Nat.lt_trans h1 (hlt d hd)
    · by_cases h2 : a = k
      · subst h2
        by_cases hb : b = unlistedByte
        · simpa only [Memory.write, h1, hb, if_true, if_false] using hm
        · simp only [Memory.write, h1, hb, if_true, if_false]
          exact Memory.wf_cons.2 ⟨hlt, hb, hm⟩
      · simp only [Memory.write, h1, h2, if_false]
        refine Memory.wf_cons.2 ⟨?_, hv, ih hm⟩
        intro d hd
        rcases Memory.mem_write hd with hd | ⟨rfl, _⟩
        · exact hlt d hd
        · simp only; omega

/-- A write below a size keeps every listed address below it. -/
theorem Memory.write_within {m : Memory} {size : Nat} (h : m.within size) {a : Nat} (ha : a < size) (b : Byte) :
    (m.write a b).within size := by
  intro c hc
  rcases Memory.mem_write hc with hc | ⟨rfl, _⟩
  · exact h c hc
  · exact ha

/-- Writing bytes keeps the canonical form. -/
theorem Memory.writeBytes_wf {m : Memory} (h : m.wf) (a : Nat) (bs : List Byte) : (m.writeBytes a bs).wf := by
  induction bs generalizing m a with
  | nil => exact h
  | cons b bs ih => exact ih (Memory.write_wf h a b) (a + 1)

theorem Memory.writeBytes_within {m : Memory} {size : Nat} (h : m.within size) {a : Nat} {bs : List Byte}
    (ha : a + bs.length ≤ size) : (m.writeBytes a bs).within size := by
  induction bs generalizing m a with
  | nil => exact h
  | cons b bs ih =>
    simp only [List.length_cons] at ha
    exact ih (Memory.write_within h (by omega) b) (by omega)

/-- Reading any address after writing bytes to a canonical memory. -/
theorem Memory.read_writeBytes {m : Memory} (h : m.wf) (a x : Nat) (bs : List Byte) :
    (m.writeBytes a bs).read x = if a ≤ x ∧ x < a + bs.length then bs.getD (x - a) 0 else m.read x := by
  induction bs generalizing m a with
  | nil =>
    have : ¬ (a ≤ x ∧ x < a) := by omega
    simp [Memory.writeBytes, this]
  | cons b bs ih =>
    simp only [Memory.writeBytes]
    rw [ih (Memory.write_wf h a b), Memory.read_write h]
    by_cases hx : x = a
    · subst hx
      simp
    · by_cases hin : a + 1 ≤ x ∧ x < a + 1 + bs.length
      · have hin' : a ≤ x ∧ x < a + (b :: bs).length := by simp only [List.length_cons]; omega
        obtain ⟨j, hj⟩ : ∃ j, x - a = j + 1 := ⟨x - a - 1, by omega⟩
        have hj' : x - (a + 1) = j := by omega
        simp only [hin, hin', hj, hj', and_self, if_true, List.getD_cons_succ]
      · have hin' : ¬ (a ≤ x ∧ x < a + (b :: bs).length) := by simp only [List.length_cons]; omega
        rw [if_neg hin, if_neg hin', if_neg hx]

/-- Bytes outside the written range keep their value. -/
theorem Memory.read_writeBytes_outside {m : Memory} (h : m.wf) {a x : Nat} {bs : List Byte}
    (hx : x < a ∨ a + bs.length ≤ x) : (m.writeBytes a bs).read x = m.read x := by
  rw [Memory.read_writeBytes h, if_neg (by omega)]

end Sys2Proof.Machine
end

