-- ==== Sys2Proof/Laws/State.lean ====
section
/-! SUPPORT. One lemma per field per update of the state, so that no later proof unfolds a record update: what each named
operation of Machine/Ops.lean, Program.lean, Framer.lean,
Boot.lean and Interrupted.lean leaves in every field. -/

namespace Sys2Proof.Machine

/-! ## `drawByte` -/

@[simp] theorem State.drawByte_cfg (s : State) : s.drawByte.2.cfg = s.cfg := rfl
@[simp] theorem State.drawByte_currentAddress (s : State) : s.drawByte.2.currentAddress = s.currentAddress := rfl
@[simp] theorem State.drawByte_eraseFrontier (s : State) : s.drawByte.2.eraseFrontier = s.eraseFrontier := rfl
@[simp] theorem State.drawByte_totalUploadSize (s : State) : s.drawByte.2.totalUploadSize = s.totalUploadSize := rfl
@[simp] theorem State.drawByte_bytesTransferred (s : State) : s.drawByte.2.bytesTransferred = s.bytesTransferred := rfl
@[simp] theorem State.drawByte_operationKind (s : State) : s.drawByte.2.operationKind = s.operationKind := rfl
@[simp] theorem State.drawByte_phase (s : State) : s.drawByte.2.phase = s.phase := rfl
@[simp] theorem State.drawByte_fstate (s : State) : s.drawByte.2.fstate = s.fstate := rfl
@[simp] theorem State.drawByte_seq (s : State) : s.drawByte.2.seq = s.seq := rfl
@[simp] theorem State.drawByte_len (s : State) : s.drawByte.2.len = s.len := rfl
@[simp] theorem State.drawByte_idx (s : State) : s.drawByte.2.idx = s.idx := rfl
@[simp] theorem State.drawByte_cksum (s : State) : s.drawByte.2.cksum = s.cksum := rfl
@[simp] theorem State.drawByte_msg (s : State) : s.drawByte.2.msg = s.msg := rfl
@[simp] theorem State.drawByte_exitFlag (s : State) : s.drawByte.2.exitFlag = s.exitFlag := rfl
@[simp] theorem State.drawByte_pbuf (s : State) : s.drawByte.2.pbuf = s.pbuf := rfl
@[simp] theorem State.drawByte_rwwBlocked (s : State) : s.drawByte.2.rwwBlocked = s.rwwBlocked := rfl
@[simp] theorem State.drawByte_flash (s : State) : s.drawByte.2.flash = s.flash := rfl
@[simp] theorem State.drawByte_eeprom (s : State) : s.drawByte.2.eeprom = s.eeprom := rfl
@[simp] theorem State.drawByte_ram (s : State) : s.drawByte.2.ram = s.ram := rfl
@[simp] theorem State.drawByte_lockBits (s : State) : s.drawByte.2.lockBits = s.lockBits := rfl
@[simp] theorem State.drawByte_fuseLow (s : State) : s.drawByte.2.fuseLow = s.fuseLow := rfl
@[simp] theorem State.drawByte_fuseHigh (s : State) : s.drawByte.2.fuseHigh = s.fuseHigh := rfl
@[simp] theorem State.drawByte_fuseExt (s : State) : s.drawByte.2.fuseExt = s.fuseExt := rfl
@[simp] theorem State.drawByte_desc (s : State) : s.drawByte.2.desc = s.desc := rfl
@[simp] theorem State.drawByte_led (s : State) : s.drawByte.2.led = s.led := rfl
@[simp] theorem State.drawByte_wdtReset (s : State) : s.drawByte.2.wdtReset = s.wdtReset := rfl
@[simp] theorem State.drawByte_wdtEnable (s : State) : s.drawByte.2.wdtEnable = s.wdtEnable := rfl
@[simp] theorem State.drawByte_env (s : State) : s.drawByte.2.env = s.env := rfl
@[simp] theorem State.drawByte_tx (s : State) : s.drawByte.2.tx = s.tx := rfl
@[simp] theorem State.drawByte_freeCount (s : State) : s.drawByte.2.freeCount = s.freeCount + 1 := rfl

/-! ## `advance` -/

@[simp] theorem State.advance_cfg (s : State) (n : Word) : (s.advance n).cfg = s.cfg := rfl
@[simp] theorem State.advance_currentAddress (s : State) (n : Word) : (s.advance n).currentAddress = truncAddr s.cfg (s.currentAddress + n) := rfl
@[simp] theorem State.advance_eraseFrontier (s : State) (n : Word) : (s.advance n).eraseFrontier = s.eraseFrontier := rfl
@[simp] theorem State.advance_totalUploadSize (s : State) (n : Word) : (s.advance n).totalUploadSize = s.totalUploadSize := rfl
@[simp] theorem State.advance_bytesTransferred (s : State) (n : Word) : (s.advance n).bytesTransferred = s.bytesTransferred := rfl
@[simp] theorem State.advance_operationKind (s : State) (n : Word) : (s.advance n).operationKind = s.operationKind := rfl
@[simp] theorem State.advance_phase (s : State) (n : Word) : (s.advance n).phase = s.phase := rfl
@[simp] theorem State.advance_fstate (s : State) (n : Word) : (s.advance n).fstate = s.fstate := rfl
@[simp] theorem State.advance_seq (s : State) (n : Word) : (s.advance n).seq = s.seq := rfl
@[simp] theorem State.advance_len (s : State) (n : Word) : (s.advance n).len = s.len := rfl
@[simp] theorem State.advance_idx (s : State) (n : Word) : (s.advance n).idx = s.idx := rfl
@[simp] theorem State.advance_cksum (s : State) (n : Word) : (s.advance n).cksum = s.cksum := rfl
@[simp] theorem State.advance_msg (s : State) (n : Word) : (s.advance n).msg = s.msg := rfl
@[simp] theorem State.advance_exitFlag (s : State) (n : Word) : (s.advance n).exitFlag = s.exitFlag := rfl
@[simp] theorem State.advance_pbuf (s : State) (n : Word) : (s.advance n).pbuf = s.pbuf := rfl
@[simp] theorem State.advance_rwwBlocked (s : State) (n : Word) : (s.advance n).rwwBlocked = s.rwwBlocked := rfl
@[simp] theorem State.advance_flash (s : State) (n : Word) : (s.advance n).flash = s.flash := rfl
@[simp] theorem State.advance_eeprom (s : State) (n : Word) : (s.advance n).eeprom = s.eeprom := rfl
@[simp] theorem State.advance_ram (s : State) (n : Word) : (s.advance n).ram = s.ram := rfl
@[simp] theorem State.advance_lockBits (s : State) (n : Word) : (s.advance n).lockBits = s.lockBits := rfl
@[simp] theorem State.advance_fuseLow (s : State) (n : Word) : (s.advance n).fuseLow = s.fuseLow := rfl
@[simp] theorem State.advance_fuseHigh (s : State) (n : Word) : (s.advance n).fuseHigh = s.fuseHigh := rfl
@[simp] theorem State.advance_fuseExt (s : State) (n : Word) : (s.advance n).fuseExt = s.fuseExt := rfl
@[simp] theorem State.advance_desc (s : State) (n : Word) : (s.advance n).desc = s.desc := rfl
@[simp] theorem State.advance_led (s : State) (n : Word) : (s.advance n).led = s.led := rfl
@[simp] theorem State.advance_wdtReset (s : State) (n : Word) : (s.advance n).wdtReset = s.wdtReset := rfl
@[simp] theorem State.advance_wdtEnable (s : State) (n : Word) : (s.advance n).wdtEnable = s.wdtEnable := rfl
@[simp] theorem State.advance_env (s : State) (n : Word) : (s.advance n).env = s.env := rfl
@[simp] theorem State.advance_tx (s : State) (n : Word) : (s.advance n).tx = s.tx := rfl
@[simp] theorem State.advance_freeCount (s : State) (n : Word) : (s.advance n).freeCount = s.freeCount := rfl

/-! ## `setExit` -/

@[simp] theorem State.setExit_cfg (s : State) : s.setExit.cfg = s.cfg := rfl
@[simp] theorem State.setExit_currentAddress (s : State) : s.setExit.currentAddress = s.currentAddress := rfl
@[simp] theorem State.setExit_eraseFrontier (s : State) : s.setExit.eraseFrontier = s.eraseFrontier := rfl
@[simp] theorem State.setExit_totalUploadSize (s : State) : s.setExit.totalUploadSize = s.totalUploadSize := rfl
@[simp] theorem State.setExit_bytesTransferred (s : State) : s.setExit.bytesTransferred = s.bytesTransferred := rfl
@[simp] theorem State.setExit_operationKind (s : State) : s.setExit.operationKind = s.operationKind := rfl
@[simp] theorem State.setExit_phase (s : State) : s.setExit.phase = s.phase := rfl
@[simp] theorem State.setExit_fstate (s : State) : s.setExit.fstate = s.fstate := rfl
@[simp] theorem State.setExit_seq (s : State) : s.setExit.seq = s.seq := rfl
@[simp] theorem State.setExit_len (s : State) : s.setExit.len = s.len := rfl
@[simp] theorem State.setExit_idx (s : State) : s.setExit.idx = s.idx := rfl
@[simp] theorem State.setExit_cksum (s : State) : s.setExit.cksum = s.cksum := rfl
@[simp] theorem State.setExit_msg (s : State) : s.setExit.msg = s.msg := rfl
@[simp] theorem State.setExit_exitFlag (s : State) : s.setExit.exitFlag = true := rfl
@[simp] theorem State.setExit_pbuf (s : State) : s.setExit.pbuf = s.pbuf := rfl
@[simp] theorem State.setExit_rwwBlocked (s : State) : s.setExit.rwwBlocked = s.rwwBlocked := rfl
@[simp] theorem State.setExit_flash (s : State) : s.setExit.flash = s.flash := rfl
@[simp] theorem State.setExit_eeprom (s : State) : s.setExit.eeprom = s.eeprom := rfl
@[simp] theorem State.setExit_ram (s : State) : s.setExit.ram = s.ram := rfl
@[simp] theorem State.setExit_lockBits (s : State) : s.setExit.lockBits = s.lockBits := rfl
@[simp] theorem State.setExit_fuseLow (s : State) : s.setExit.fuseLow = s.fuseLow := rfl
@[simp] theorem State.setExit_fuseHigh (s : State) : s.setExit.fuseHigh = s.fuseHigh := rfl
@[simp] theorem State.setExit_fuseExt (s : State) : s.setExit.fuseExt = s.fuseExt := rfl
@[simp] theorem State.setExit_desc (s : State) : s.setExit.desc = s.desc := rfl
@[simp] theorem State.setExit_led (s : State) : s.setExit.led = s.led := rfl
@[simp] theorem State.setExit_wdtReset (s : State) : s.setExit.wdtReset = s.wdtReset := rfl
@[simp] theorem State.setExit_wdtEnable (s : State) : s.setExit.wdtEnable = s.wdtEnable := rfl
@[simp] theorem State.setExit_env (s : State) : s.setExit.env = s.env := rfl
@[simp] theorem State.setExit_tx (s : State) : s.setExit.tx = s.tx := rfl
@[simp] theorem State.setExit_freeCount (s : State) : s.setExit.freeCount = s.freeCount := rfl

/-! ## `pageErase` -/

@[simp] theorem State.pageErase_cfg (s : State) (a : Nat) : (s.pageErase a).cfg = s.cfg := rfl
@[simp] theorem State.pageErase_currentAddress (s : State) (a : Nat) : (s.pageErase a).currentAddress = s.currentAddress := rfl
@[simp] theorem State.pageErase_eraseFrontier (s : State) (a : Nat) : (s.pageErase a).eraseFrontier = s.eraseFrontier := rfl
@[simp] theorem State.pageErase_totalUploadSize (s : State) (a : Nat) : (s.pageErase a).totalUploadSize = s.totalUploadSize := rfl
@[simp] theorem State.pageErase_bytesTransferred (s : State) (a : Nat) : (s.pageErase a).bytesTransferred = s.bytesTransferred := rfl
@[simp] theorem State.pageErase_operationKind (s : State) (a : Nat) : (s.pageErase a).operationKind = s.operationKind := rfl
@[simp] theorem State.pageErase_phase (s : State) (a : Nat) : (s.pageErase a).phase = s.phase := rfl
@[simp] theorem State.pageErase_fstate (s : State) (a : Nat) : (s.pageErase a).fstate = s.fstate := rfl
@[simp] theorem State.pageErase_seq (s : State) (a : Nat) : (s.pageErase a).seq = s.seq := rfl
@[simp] theorem State.pageErase_len (s : State) (a : Nat) : (s.pageErase a).len = s.len := rfl
@[simp] theorem State.pageErase_idx (s : State) (a : Nat) : (s.pageErase a).idx = s.idx := rfl
@[simp] theorem State.pageErase_cksum (s : State) (a : Nat) : (s.pageErase a).cksum = s.cksum := rfl
@[simp] theorem State.pageErase_msg (s : State) (a : Nat) : (s.pageErase a).msg = s.msg := rfl
@[simp] theorem State.pageErase_exitFlag (s : State) (a : Nat) : (s.pageErase a).exitFlag = s.exitFlag := rfl
@[simp] theorem State.pageErase_pbuf (s : State) (a : Nat) : (s.pageErase a).pbuf = s.pbuf := rfl
@[simp] theorem State.pageErase_rwwBlocked (s : State) (a : Nat) : (s.pageErase a).rwwBlocked = true := rfl
@[simp] theorem State.pageErase_flash (s : State) (a : Nat) : (s.pageErase a).flash = s.flash.writeBytes (pageOf s.cfg a) (List.replicate s.cfg.pageSize s.cfg.erasedByte) := rfl
@[simp] theorem State.pageErase_eeprom (s : State) (a : Nat) : (s.pageErase a).eeprom = s.eeprom := rfl
@[simp] theorem State.pageErase_ram (s : State) (a : Nat) : (s.pageErase a).ram = s.ram := rfl
@[simp] theorem State.pageErase_lockBits (s : State) (a : Nat) : (s.pageErase a).lockBits = s.lockBits := rfl
@[simp] theorem State.pageErase_fuseLow (s : State) (a : Nat) : (s.pageErase a).fuseLow = s.fuseLow := rfl
@[simp] theorem State.pageErase_fuseHigh (s : State) (a : Nat) : (s.pageErase a).fuseHigh = s.fuseHigh := rfl
@[simp] theorem State.pageErase_fuseExt (s : State) (a : Nat) : (s.pageErase a).fuseExt = s.fuseExt := rfl
@[simp] theorem State.pageErase_desc (s : State) (a : Nat) : (s.pageErase a).desc = s.desc := rfl
@[simp] theorem State.pageErase_led (s : State) (a : Nat) : (s.pageErase a).led = s.led := rfl
@[simp] theorem State.pageErase_wdtReset (s : State) (a : Nat) : (s.pageErase a).wdtReset = s.wdtReset := rfl
@[simp] theorem State.pageErase_wdtEnable (s : State) (a : Nat) : (s.pageErase a).wdtEnable = s.wdtEnable := rfl
@[simp] theorem State.pageErase_env (s : State) (a : Nat) : (s.pageErase a).env = s.env := rfl
@[simp] theorem State.pageErase_tx (s : State) (a : Nat) : (s.pageErase a).tx = s.tx := rfl
@[simp] theorem State.pageErase_freeCount (s : State) (a : Nat) : (s.pageErase a).freeCount = s.freeCount := rfl

/-! ## `freePbuf` -/

@[simp] theorem State.freePbuf_cfg (s : State) : s.freePbuf.cfg = s.cfg := rfl
@[simp] theorem State.freePbuf_currentAddress (s : State) : s.freePbuf.currentAddress = s.currentAddress := rfl
@[simp] theorem State.freePbuf_eraseFrontier (s : State) : s.freePbuf.eraseFrontier = s.eraseFrontier := rfl
@[simp] theorem State.freePbuf_totalUploadSize (s : State) : s.freePbuf.totalUploadSize = s.totalUploadSize := rfl
@[simp] theorem State.freePbuf_bytesTransferred (s : State) : s.freePbuf.bytesTransferred = s.bytesTransferred := rfl
@[simp] theorem State.freePbuf_operationKind (s : State) : s.freePbuf.operationKind = s.operationKind := rfl
@[simp] theorem State.freePbuf_phase (s : State) : s.freePbuf.phase = s.phase := rfl
@[simp] theorem State.freePbuf_fstate (s : State) : s.freePbuf.fstate = s.fstate := rfl
@[simp] theorem State.freePbuf_seq (s : State) : s.freePbuf.seq = s.seq := rfl
@[simp] theorem State.freePbuf_len (s : State) : s.freePbuf.len = s.len := rfl
@[simp] theorem State.freePbuf_idx (s : State) : s.freePbuf.idx = s.idx := rfl
@[simp] theorem State.freePbuf_cksum (s : State) : s.freePbuf.cksum = s.cksum := rfl
@[simp] theorem State.freePbuf_msg (s : State) : s.freePbuf.msg = s.msg := rfl
@[simp] theorem State.freePbuf_exitFlag (s : State) : s.freePbuf.exitFlag = s.exitFlag := rfl
@[simp] theorem State.freePbuf_pbuf (s : State) : s.freePbuf.pbuf = (List.range s.cfg.pageSize).map (fun k => Config.freeByte (s.freeCount + k)) := rfl
@[simp] theorem State.freePbuf_rwwBlocked (s : State) : s.freePbuf.rwwBlocked = s.rwwBlocked := rfl
@[simp] theorem State.freePbuf_flash (s : State) : s.freePbuf.flash = s.flash := rfl
@[simp] theorem State.freePbuf_eeprom (s : State) : s.freePbuf.eeprom = s.eeprom := rfl
@[simp] theorem State.freePbuf_ram (s : State) : s.freePbuf.ram = s.ram := rfl
@[simp] theorem State.freePbuf_lockBits (s : State) : s.freePbuf.lockBits = s.lockBits := rfl
@[simp] theorem State.freePbuf_fuseLow (s : State) : s.freePbuf.fuseLow = s.fuseLow := rfl
@[simp] theorem State.freePbuf_fuseHigh (s : State) : s.freePbuf.fuseHigh = s.fuseHigh := rfl
@[simp] theorem State.freePbuf_fuseExt (s : State) : s.freePbuf.fuseExt = s.fuseExt := rfl
@[simp] theorem State.freePbuf_desc (s : State) : s.freePbuf.desc = s.desc := rfl
@[simp] theorem State.freePbuf_led (s : State) : s.freePbuf.led = s.led := rfl
@[simp] theorem State.freePbuf_wdtReset (s : State) : s.freePbuf.wdtReset = s.wdtReset := rfl
@[simp] theorem State.freePbuf_wdtEnable (s : State) : s.freePbuf.wdtEnable = s.wdtEnable := rfl
@[simp] theorem State.freePbuf_env (s : State) : s.freePbuf.env = s.env := rfl
@[simp] theorem State.freePbuf_tx (s : State) : s.freePbuf.tx = s.tx := rfl
@[simp] theorem State.freePbuf_freeCount (s : State) : s.freePbuf.freeCount = s.freeCount + s.cfg.pageSize := rfl

/-! ## `pageWrite` -/

@[simp] theorem State.pageWrite_cfg (s : State) (a : Nat) : (s.pageWrite a).cfg = s.cfg := rfl
@[simp] theorem State.pageWrite_currentAddress (s : State) (a : Nat) : (s.pageWrite a).currentAddress = s.currentAddress := rfl
@[simp] theorem State.pageWrite_eraseFrontier (s : State) (a : Nat) : (s.pageWrite a).eraseFrontier = s.eraseFrontier := rfl
@[simp] theorem State.pageWrite_totalUploadSize (s : State) (a : Nat) : (s.pageWrite a).totalUploadSize = s.totalUploadSize := rfl
@[simp] theorem State.pageWrite_bytesTransferred (s : State) (a : Nat) : (s.pageWrite a).bytesTransferred = s.bytesTransferred := rfl
@[simp] theorem State.pageWrite_operationKind (s : State) (a : Nat) : (s.pageWrite a).operationKind = s.operationKind := rfl
@[simp] theorem State.pageWrite_phase (s : State) (a : Nat) : (s.pageWrite a).phase = s.phase := rfl
@[simp] theorem State.pageWrite_fstate (s : State) (a : Nat) : (s.pageWrite a).fstate = s.fstate := rfl
@[simp] theorem State.pageWrite_seq (s : State) (a : Nat) : (s.pageWrite a).seq = s.seq := rfl
@[simp] theorem State.pageWrite_len (s : State) (a : Nat) : (s.pageWrite a).len = s.len := rfl
@[simp] theorem State.pageWrite_idx (s : State) (a : Nat) : (s.pageWrite a).idx = s.idx := rfl
@[simp] theorem State.pageWrite_cksum (s : State) (a : Nat) : (s.pageWrite a).cksum = s.cksum := rfl
@[simp] theorem State.pageWrite_msg (s : State) (a : Nat) : (s.pageWrite a).msg = s.msg := rfl
@[simp] theorem State.pageWrite_exitFlag (s : State) (a : Nat) : (s.pageWrite a).exitFlag = s.exitFlag := rfl
@[simp] theorem State.pageWrite_pbuf (s : State) (a : Nat) : (s.pageWrite a).pbuf = emptyPbuf s.cfg := rfl
@[simp] theorem State.pageWrite_rwwBlocked (s : State) (a : Nat) : (s.pageWrite a).rwwBlocked = true := rfl
@[simp] theorem State.pageWrite_flash (s : State) (a : Nat) : (s.pageWrite a).flash = s.flash.writeBytes (pageOf s.cfg a) (s.mergedPage (pageOf s.cfg a)) := rfl
@[simp] theorem State.pageWrite_eeprom (s : State) (a : Nat) : (s.pageWrite a).eeprom = s.eeprom := rfl
@[simp] theorem State.pageWrite_ram (s : State) (a : Nat) : (s.pageWrite a).ram = s.ram := rfl
@[simp] theorem State.pageWrite_lockBits (s : State) (a : Nat) : (s.pageWrite a).lockBits = s.lockBits := rfl
@[simp] theorem State.pageWrite_fuseLow (s : State) (a : Nat) : (s.pageWrite a).fuseLow = s.fuseLow := rfl
@[simp] theorem State.pageWrite_fuseHigh (s : State) (a : Nat) : (s.pageWrite a).fuseHigh = s.fuseHigh := rfl
@[simp] theorem State.pageWrite_fuseExt (s : State) (a : Nat) : (s.pageWrite a).fuseExt = s.fuseExt := rfl
@[simp] theorem State.pageWrite_desc (s : State) (a : Nat) : (s.pageWrite a).desc = s.desc := rfl
@[simp] theorem State.pageWrite_led (s : State) (a : Nat) : (s.pageWrite a).led = s.led := rfl
@[simp] theorem State.pageWrite_wdtReset (s : State) (a : Nat) : (s.pageWrite a).wdtReset = s.wdtReset := rfl
@[simp] theorem State.pageWrite_wdtEnable (s : State) (a : Nat) : (s.pageWrite a).wdtEnable = s.wdtEnable := rfl
@[simp] theorem State.pageWrite_env (s : State) (a : Nat) : (s.pageWrite a).env = s.env := rfl
@[simp] theorem State.pageWrite_tx (s : State) (a : Nat) : (s.pageWrite a).tx = s.tx := rfl
@[simp] theorem State.pageWrite_freeCount (s : State) (a : Nat) : (s.pageWrite a).freeCount = s.freeCount := rfl

/-! ## `rwwEnable` -/

@[simp] theorem State.rwwEnable_cfg (s : State) : s.rwwEnable.cfg = s.cfg := rfl
@[simp] theorem State.rwwEnable_currentAddress (s : State) : s.rwwEnable.currentAddress = s.currentAddress := rfl
@[simp] theorem State.rwwEnable_eraseFrontier (s : State) : s.rwwEnable.eraseFrontier = s.eraseFrontier := rfl
@[simp] theorem State.rwwEnable_totalUploadSize (s : State) : s.rwwEnable.totalUploadSize = s.totalUploadSize := rfl
@[simp] theorem State.rwwEnable_bytesTransferred (s : State) : s.rwwEnable.bytesTransferred = s.bytesTransferred := rfl
@[simp] theorem State.rwwEnable_operationKind (s : State) : s.rwwEnable.operationKind = s.operationKind := rfl
@[simp] theorem State.rwwEnable_phase (s : State) : s.rwwEnable.phase = s.phase := rfl
@[simp] theorem State.rwwEnable_fstate (s : State) : s.rwwEnable.fstate = s.fstate := rfl
@[simp] theorem State.rwwEnable_seq (s : State) : s.rwwEnable.seq = s.seq := rfl
@[simp] theorem State.rwwEnable_len (s : State) : s.rwwEnable.len = s.len := rfl
@[simp] theorem State.rwwEnable_idx (s : State) : s.rwwEnable.idx = s.idx := rfl
@[simp] theorem State.rwwEnable_cksum (s : State) : s.rwwEnable.cksum = s.cksum := rfl
@[simp] theorem State.rwwEnable_msg (s : State) : s.rwwEnable.msg = s.msg := rfl
@[simp] theorem State.rwwEnable_exitFlag (s : State) : s.rwwEnable.exitFlag = s.exitFlag := rfl
@[simp] theorem State.rwwEnable_pbuf (s : State) : s.rwwEnable.pbuf = emptyPbuf s.cfg := rfl
@[simp] theorem State.rwwEnable_rwwBlocked (s : State) : s.rwwEnable.rwwBlocked = false := rfl
@[simp] theorem State.rwwEnable_flash (s : State) : s.rwwEnable.flash = s.flash := rfl
@[simp] theorem State.rwwEnable_eeprom (s : State) : s.rwwEnable.eeprom = s.eeprom := rfl
@[simp] theorem State.rwwEnable_ram (s : State) : s.rwwEnable.ram = s.ram := rfl
@[simp] theorem State.rwwEnable_lockBits (s : State) : s.rwwEnable.lockBits = s.lockBits := rfl
@[simp] theorem State.rwwEnable_fuseLow (s : State) : s.rwwEnable.fuseLow = s.fuseLow := rfl
@[simp] theorem State.rwwEnable_fuseHigh (s : State) : s.rwwEnable.fuseHigh = s.fuseHigh := rfl
@[simp] theorem State.rwwEnable_fuseExt (s : State) : s.rwwEnable.fuseExt = s.fuseExt := rfl
@[simp] theorem State.rwwEnable_desc (s : State) : s.rwwEnable.desc = s.desc := rfl
@[simp] theorem State.rwwEnable_led (s : State) : s.rwwEnable.led = s.led := rfl
@[simp] theorem State.rwwEnable_wdtReset (s : State) : s.rwwEnable.wdtReset = s.wdtReset := rfl
@[simp] theorem State.rwwEnable_wdtEnable (s : State) : s.rwwEnable.wdtEnable = s.wdtEnable := rfl
@[simp] theorem State.rwwEnable_env (s : State) : s.rwwEnable.env = s.env := rfl
@[simp] theorem State.rwwEnable_tx (s : State) : s.rwwEnable.tx = s.tx := rfl
@[simp] theorem State.rwwEnable_freeCount (s : State) : s.rwwEnable.freeCount = s.freeCount := rfl

/-! ## `eeWrite` -/

@[simp] theorem State.eeWrite_cfg (s : State) (a : Half) (b : Byte) : (s.eeWrite a b).cfg = s.cfg := rfl
@[simp] theorem State.eeWrite_currentAddress (s : State) (a : Half) (b : Byte) : (s.eeWrite a b).currentAddress = s.currentAddress := rfl
@[simp] theorem State.eeWrite_eraseFrontier (s : State) (a : Half) (b : Byte) : (s.eeWrite a b).eraseFrontier = s.eraseFrontier := rfl
@[simp] theorem State.eeWrite_totalUploadSize (s : State) (a : Half) (b : Byte) : (s.eeWrite a b).totalUploadSize = s.totalUploadSize := rfl
@[simp] theorem State.eeWrite_bytesTransferred (s : State) (a : Half) (b : Byte) : (s.eeWrite a b).bytesTransferred = s.bytesTransferred := rfl
@[simp] theorem State.eeWrite_operationKind (s : State) (a : Half) (b : Byte) : (s.eeWrite a b).operationKind = s.operationKind := rfl
@[simp] theorem State.eeWrite_phase (s : State) (a : Half) (b : Byte) : (s.eeWrite a b).phase = s.phase := rfl
@[simp] theorem State.eeWrite_fstate (s : State) (a : Half) (b : Byte) : (s.eeWrite a b).fstate = s.fstate := rfl
@[simp] theorem State.eeWrite_seq (s : State) (a : Half) (b : Byte) : (s.eeWrite a b).seq = s.seq := rfl
@[simp] theorem State.eeWrite_len (s : State) (a : Half) (b : Byte) : (s.eeWrite a b).len = s.len := rfl
@[simp] theorem State.eeWrite_idx (s : State) (a : Half) (b : Byte) : (s.eeWrite a b).idx = s.idx := rfl
@[simp] theorem State.eeWrite_cksum (s : State) (a : Half) (b : Byte) : (s.eeWrite a b).cksum = s.cksum := rfl
@[simp] theorem State.eeWrite_msg (s : State) (a : Half) (b : Byte) : (s.eeWrite a b).msg = s.msg := rfl
@[simp] theorem State.eeWrite_exitFlag (s : State) (a : Half) (b : Byte) : (s.eeWrite a b).exitFlag = s.exitFlag := rfl
@[simp] theorem State.eeWrite_pbuf (s : State) (a : Half) (b : Byte) : (s.eeWrite a b).pbuf = s.pbuf := rfl
@[simp] theorem State.eeWrite_rwwBlocked (s : State) (a : Half) (b : Byte) : (s.eeWrite a b).rwwBlocked = s.rwwBlocked := rfl
@[simp] theorem State.eeWrite_flash (s : State) (a : Half) (b : Byte) : (s.eeWrite a b).flash = s.flash := rfl
@[simp] theorem State.eeWrite_eeprom (s : State) (a : Half) (b : Byte) : (s.eeWrite a b).eeprom = s.eeprom.write (eepromIndex s.cfg a) b := rfl
@[simp] theorem State.eeWrite_ram (s : State) (a : Half) (b : Byte) : (s.eeWrite a b).ram = s.ram := rfl
@[simp] theorem State.eeWrite_lockBits (s : State) (a : Half) (b : Byte) : (s.eeWrite a b).lockBits = s.lockBits := rfl
@[simp] theorem State.eeWrite_fuseLow (s : State) (a : Half) (b : Byte) : (s.eeWrite a b).fuseLow = s.fuseLow := rfl
@[simp] theorem State.eeWrite_fuseHigh (s : State) (a : Half) (b : Byte) : (s.eeWrite a b).fuseHigh = s.fuseHigh := rfl
@[simp] theorem State.eeWrite_fuseExt (s : State) (a : Half) (b : Byte) : (s.eeWrite a b).fuseExt = s.fuseExt := rfl
@[simp] theorem State.eeWrite_desc (s : State) (a : Half) (b : Byte) : (s.eeWrite a b).desc = s.desc := rfl
@[simp] theorem State.eeWrite_led (s : State) (a : Half) (b : Byte) : (s.eeWrite a b).led = s.led := rfl
@[simp] theorem State.eeWrite_wdtReset (s : State) (a : Half) (b : Byte) : (s.eeWrite a b).wdtReset = s.wdtReset := rfl
@[simp] theorem State.eeWrite_wdtEnable (s : State) (a : Half) (b : Byte) : (s.eeWrite a b).wdtEnable = s.wdtEnable := rfl
@[simp] theorem State.eeWrite_env (s : State) (a : Half) (b : Byte) : (s.eeWrite a b).env = s.env := rfl
@[simp] theorem State.eeWrite_tx (s : State) (a : Half) (b : Byte) : (s.eeWrite a b).tx = s.tx := rfl
@[simp] theorem State.eeWrite_freeCount (s : State) (a : Half) (b : Byte) : (s.eeWrite a b).freeCount = s.freeCount := rfl

/-! ## `lockSet` -/

@[simp] theorem State.lockSet_cfg (s : State) (v : Byte) : (s.lockSet v).cfg = s.cfg := rfl
@[simp] theorem State.lockSet_currentAddress (s : State) (v : Byte) : (s.lockSet v).currentAddress = s.currentAddress := rfl
@[simp] theorem State.lockSet_eraseFrontier (s : State) (v : Byte) : (s.lockSet v).eraseFrontier = s.eraseFrontier := rfl
@[simp] theorem State.lockSet_totalUploadSize (s : State) (v : Byte) : (s.lockSet v).totalUploadSize = s.totalUploadSize := rfl
@[simp] theorem State.lockSet_bytesTransferred (s : State) (v : Byte) : (s.lockSet v).bytesTransferred = s.bytesTransferred := rfl
@[simp] theorem State.lockSet_operationKind (s : State) (v : Byte) : (s.lockSet v).operationKind = s.operationKind := rfl
@[simp] theorem State.lockSet_phase (s : State) (v : Byte) : (s.lockSet v).phase = s.phase := rfl
@[simp] theorem State.lockSet_fstate (s : State) (v : Byte) : (s.lockSet v).fstate = s.fstate := rfl
@[simp] theorem State.lockSet_seq (s : State) (v : Byte) : (s.lockSet v).seq = s.seq := rfl
@[simp] theorem State.lockSet_len (s : State) (v : Byte) : (s.lockSet v).len = s.len := rfl
@[simp] theorem State.lockSet_idx (s : State) (v : Byte) : (s.lockSet v).idx = s.idx := rfl
@[simp] theorem State.lockSet_cksum (s : State) (v : Byte) : (s.lockSet v).cksum = s.cksum := rfl
@[simp] theorem State.lockSet_msg (s : State) (v : Byte) : (s.lockSet v).msg = s.msg := rfl
@[simp] theorem State.lockSet_exitFlag (s : State) (v : Byte) : (s.lockSet v).exitFlag = s.exitFlag := rfl
@[simp] theorem State.lockSet_pbuf (s : State) (v : Byte) : (s.lockSet v).pbuf = s.pbuf := rfl
@[simp] theorem State.lockSet_rwwBlocked (s : State) (v : Byte) : (s.lockSet v).rwwBlocked = s.rwwBlocked := rfl
@[simp] theorem State.lockSet_flash (s : State) (v : Byte) : (s.lockSet v).flash = s.flash := rfl
@[simp] theorem State.lockSet_eeprom (s : State) (v : Byte) : (s.lockSet v).eeprom = s.eeprom := rfl
@[simp] theorem State.lockSet_ram (s : State) (v : Byte) : (s.lockSet v).ram = s.ram := rfl
@[simp] theorem State.lockSet_lockBits (s : State) (v : Byte) : (s.lockSet v).lockBits = s.lockBits &&& ~~~v := rfl
@[simp] theorem State.lockSet_fuseLow (s : State) (v : Byte) : (s.lockSet v).fuseLow = s.fuseLow := rfl
@[simp] theorem State.lockSet_fuseHigh (s : State) (v : Byte) : (s.lockSet v).fuseHigh = s.fuseHigh := rfl
@[simp] theorem State.lockSet_fuseExt (s : State) (v : Byte) : (s.lockSet v).fuseExt = s.fuseExt := rfl
@[simp] theorem State.lockSet_desc (s : State) (v : Byte) : (s.lockSet v).desc = s.desc := rfl
@[simp] theorem State.lockSet_led (s : State) (v : Byte) : (s.lockSet v).led = s.led := rfl
@[simp] theorem State.lockSet_wdtReset (s : State) (v : Byte) : (s.lockSet v).wdtReset = s.wdtReset := rfl
@[simp] theorem State.lockSet_wdtEnable (s : State) (v : Byte) : (s.lockSet v).wdtEnable = s.wdtEnable := rfl
@[simp] theorem State.lockSet_env (s : State) (v : Byte) : (s.lockSet v).env = s.env := rfl
@[simp] theorem State.lockSet_tx (s : State) (v : Byte) : (s.lockSet v).tx = s.tx := rfl
@[simp] theorem State.lockSet_freeCount (s : State) (v : Byte) : (s.lockSet v).freeCount = s.freeCount := rfl

/-! ## `handoff` -/

@[simp] theorem State.handoff_cfg (s : State) : s.handoff.cfg = s.cfg := rfl
@[simp] theorem State.handoff_currentAddress (s : State) : s.handoff.currentAddress = s.currentAddress := rfl
@[simp] theorem State.handoff_eraseFrontier (s : State) : s.handoff.eraseFrontier = s.eraseFrontier := rfl
@[simp] theorem State.handoff_totalUploadSize (s : State) : s.handoff.totalUploadSize = s.totalUploadSize := rfl
@[simp] theorem State.handoff_bytesTransferred (s : State) : s.handoff.bytesTransferred = s.bytesTransferred := rfl
@[simp] theorem State.handoff_operationKind (s : State) : s.handoff.operationKind = s.operationKind := rfl
@[simp] theorem State.handoff_phase (s : State) : s.handoff.phase = .handedOff := rfl
@[simp] theorem State.handoff_fstate (s : State) : s.handoff.fstate = s.fstate := rfl
@[simp] theorem State.handoff_seq (s : State) : s.handoff.seq = s.seq := rfl
@[simp] theorem State.handoff_len (s : State) : s.handoff.len = s.len := rfl
@[simp] theorem State.handoff_idx (s : State) : s.handoff.idx = s.idx := rfl
@[simp] theorem State.handoff_cksum (s : State) : s.handoff.cksum = s.cksum := rfl
@[simp] theorem State.handoff_msg (s : State) : s.handoff.msg = s.msg := rfl
@[simp] theorem State.handoff_exitFlag (s : State) : s.handoff.exitFlag = s.exitFlag := rfl
@[simp] theorem State.handoff_pbuf (s : State) : s.handoff.pbuf = s.pbuf := rfl
@[simp] theorem State.handoff_rwwBlocked (s : State) : s.handoff.rwwBlocked = s.rwwBlocked := rfl
@[simp] theorem State.handoff_flash (s : State) : s.handoff.flash = s.flash := rfl
@[simp] theorem State.handoff_eeprom (s : State) : s.handoff.eeprom = s.eeprom := rfl
@[simp] theorem State.handoff_ram (s : State) : s.handoff.ram = s.ram := rfl
@[simp] theorem State.handoff_lockBits (s : State) : s.handoff.lockBits = s.lockBits := rfl
@[simp] theorem State.handoff_fuseLow (s : State) : s.handoff.fuseLow = s.fuseLow := rfl
@[simp] theorem State.handoff_fuseHigh (s : State) : s.handoff.fuseHigh = s.fuseHigh := rfl
@[simp] theorem State.handoff_fuseExt (s : State) : s.handoff.fuseExt = s.fuseExt := rfl
@[simp] theorem State.handoff_desc (s : State) : s.handoff.desc = s.desc := rfl
@[simp] theorem State.handoff_led (s : State) : s.handoff.led = s.led := rfl
@[simp] theorem State.handoff_wdtReset (s : State) : s.handoff.wdtReset = s.wdtReset := rfl
@[simp] theorem State.handoff_wdtEnable (s : State) : s.handoff.wdtEnable = s.wdtEnable := rfl
@[simp] theorem State.handoff_env (s : State) : s.handoff.env = s.env := rfl
@[simp] theorem State.handoff_tx (s : State) : s.handoff.tx = s.tx := rfl
@[simp] theorem State.handoff_freeCount (s : State) : s.handoff.freeCount = s.freeCount := rfl

/-! ## `exitToApplication` -/

@[simp] theorem State.exitToApplication_cfg (s : State) : s.exitToApplication.cfg = s.cfg := rfl
@[simp] theorem State.exitToApplication_currentAddress (s : State) : s.exitToApplication.currentAddress = s.currentAddress := rfl
@[simp] theorem State.exitToApplication_eraseFrontier (s : State) : s.exitToApplication.eraseFrontier = s.eraseFrontier := rfl
@[simp] theorem State.exitToApplication_totalUploadSize (s : State) : s.exitToApplication.totalUploadSize = s.totalUploadSize := rfl
@[simp] theorem State.exitToApplication_bytesTransferred (s : State) : s.exitToApplication.bytesTransferred = s.bytesTransferred := rfl
@[simp] theorem State.exitToApplication_operationKind (s : State) : s.exitToApplication.operationKind = s.operationKind := rfl
@[simp] theorem State.exitToApplication_phase (s : State) : s.exitToApplication.phase = .handedOff := rfl
@[simp] theorem State.exitToApplication_fstate (s : State) : s.exitToApplication.fstate = s.fstate := rfl
@[simp] theorem State.exitToApplication_seq (s : State) : s.exitToApplication.seq = s.seq := rfl
@[simp] theorem State.exitToApplication_len (s : State) : s.exitToApplication.len = s.len := rfl
@[simp] theorem State.exitToApplication_idx (s : State) : s.exitToApplication.idx = s.idx := rfl
@[simp] theorem State.exitToApplication_cksum (s : State) : s.exitToApplication.cksum = s.cksum := rfl
@[simp] theorem State.exitToApplication_msg (s : State) : s.exitToApplication.msg = s.msg := rfl
@[simp] theorem State.exitToApplication_exitFlag (s : State) : s.exitToApplication.exitFlag = s.exitFlag := rfl
@[simp] theorem State.exitToApplication_pbuf (s : State) : s.exitToApplication.pbuf = s.pbuf := rfl
@[simp] theorem State.exitToApplication_rwwBlocked (s : State) : s.exitToApplication.rwwBlocked = s.rwwBlocked := rfl
@[simp] theorem State.exitToApplication_flash (s : State) : s.exitToApplication.flash = s.flash := rfl
@[simp] theorem State.exitToApplication_eeprom (s : State) : s.exitToApplication.eeprom = s.eeprom := rfl
@[simp] theorem State.exitToApplication_ram (s : State) : s.exitToApplication.ram = s.ram := rfl
@[simp] theorem State.exitToApplication_lockBits (s : State) : s.exitToApplication.lockBits = s.lockBits := rfl
@[simp] theorem State.exitToApplication_fuseLow (s : State) : s.exitToApplication.fuseLow = s.fuseLow := rfl
@[simp] theorem State.exitToApplication_fuseHigh (s : State) : s.exitToApplication.fuseHigh = s.fuseHigh := rfl
@[simp] theorem State.exitToApplication_fuseExt (s : State) : s.exitToApplication.fuseExt = s.fuseExt := rfl
@[simp] theorem State.exitToApplication_desc (s : State) : s.exitToApplication.desc = s.desc := rfl
@[simp] theorem State.exitToApplication_led (s : State) : s.exitToApplication.led = false := rfl
@[simp] theorem State.exitToApplication_wdtReset (s : State) : s.exitToApplication.wdtReset = s.wdtReset := rfl
@[simp] theorem State.exitToApplication_wdtEnable (s : State) : s.exitToApplication.wdtEnable = s.wdtEnable := rfl
@[simp] theorem State.exitToApplication_env (s : State) : s.exitToApplication.env = s.env := rfl
@[simp] theorem State.exitToApplication_tx (s : State) : s.exitToApplication.tx = s.tx := rfl
@[simp] theorem State.exitToApplication_freeCount (s : State) : s.exitToApplication.freeCount = s.freeCount := rfl

/-! ## `clearWatchdog` -/

@[simp] theorem State.clearWatchdog_cfg (s : State) : s.clearWatchdog.cfg = s.cfg := rfl
@[simp] theorem State.clearWatchdog_currentAddress (s : State) : s.clearWatchdog.currentAddress = s.currentAddress := rfl
@[simp] theorem State.clearWatchdog_eraseFrontier (s : State) : s.clearWatchdog.eraseFrontier = s.eraseFrontier := rfl
@[simp] theorem State.clearWatchdog_totalUploadSize (s : State) : s.clearWatchdog.totalUploadSize = s.totalUploadSize := rfl
@[simp] theorem State.clearWatchdog_bytesTransferred (s : State) : s.clearWatchdog.bytesTransferred = s.bytesTransferred := rfl
@[simp] theorem State.clearWatchdog_operationKind (s : State) : s.clearWatchdog.operationKind = s.operationKind := rfl
@[simp] theorem State.clearWatchdog_phase (s : State) : s.clearWatchdog.phase = s.phase := rfl
@[simp] theorem State.clearWatchdog_fstate (s : State) : s.clearWatchdog.fstate = s.fstate := rfl
@[simp] theorem State.clearWatchdog_seq (s : State) : s.clearWatchdog.seq = s.seq := rfl
@[simp] theorem State.clearWatchdog_len (s : State) : s.clearWatchdog.len = s.len := rfl
@[simp] theorem State.clearWatchdog_idx (s : State) : s.clearWatchdog.idx = s.idx := rfl
@[simp] theorem State.clearWatchdog_cksum (s : State) : s.clearWatchdog.cksum = s.cksum := rfl
@[simp] theorem State.clearWatchdog_msg (s : State) : s.clearWatchdog.msg = s.msg := rfl
@[simp] theorem State.clearWatchdog_exitFlag (s : State) : s.clearWatchdog.exitFlag = s.exitFlag := rfl
@[simp] theorem State.clearWatchdog_pbuf (s : State) : s.clearWatchdog.pbuf = s.pbuf := rfl
@[simp] theorem State.clearWatchdog_rwwBlocked (s : State) : s.clearWatchdog.rwwBlocked = s.rwwBlocked := rfl
@[simp] theorem State.clearWatchdog_flash (s : State) : s.clearWatchdog.flash = s.flash := rfl
@[simp] theorem State.clearWatchdog_eeprom (s : State) : s.clearWatchdog.eeprom = s.eeprom := rfl
@[simp] theorem State.clearWatchdog_ram (s : State) : s.clearWatchdog.ram = s.ram := rfl
@[simp] theorem State.clearWatchdog_lockBits (s : State) : s.clearWatchdog.lockBits = s.lockBits := rfl
@[simp] theorem State.clearWatchdog_fuseLow (s : State) : s.clearWatchdog.fuseLow = s.fuseLow := rfl
@[simp] theorem State.clearWatchdog_fuseHigh (s : State) : s.clearWatchdog.fuseHigh = s.fuseHigh := rfl
@[simp] theorem State.clearWatchdog_fuseExt (s : State) : s.clearWatchdog.fuseExt = s.fuseExt := rfl
@[simp] theorem State.clearWatchdog_desc (s : State) : s.clearWatchdog.desc = s.desc := rfl
@[simp] theorem State.clearWatchdog_led (s : State) : s.clearWatchdog.led = s.led := rfl
@[simp] theorem State.clearWatchdog_wdtReset (s : State) : s.clearWatchdog.wdtReset = false := rfl
@[simp] theorem State.clearWatchdog_wdtEnable (s : State) : s.clearWatchdog.wdtEnable = false := rfl
@[simp] theorem State.clearWatchdog_env (s : State) : s.clearWatchdog.env = s.env := rfl
@[simp] theorem State.clearWatchdog_tx (s : State) : s.clearWatchdog.tx = s.tx := rfl
@[simp] theorem State.clearWatchdog_freeCount (s : State) : s.clearWatchdog.freeCount = s.freeCount := rfl

/-! ## `normalBoot` -/

@[simp] theorem State.normalBoot_cfg (s : State) : s.normalBoot.cfg = s.cfg := rfl
@[simp] theorem State.normalBoot_currentAddress (s : State) : s.normalBoot.currentAddress = s.currentAddress := rfl
@[simp] theorem State.normalBoot_eraseFrontier (s : State) : s.normalBoot.eraseFrontier = s.eraseFrontier := rfl
@[simp] theorem State.normalBoot_totalUploadSize (s : State) : s.normalBoot.totalUploadSize = s.totalUploadSize := rfl
@[simp] theorem State.normalBoot_bytesTransferred (s : State) : s.normalBoot.bytesTransferred = s.bytesTransferred := rfl
@[simp] theorem State.normalBoot_operationKind (s : State) : s.normalBoot.operationKind = s.operationKind := rfl
@[simp] theorem State.normalBoot_phase (s : State) : s.normalBoot.phase = .wait := rfl
@[simp] theorem State.normalBoot_fstate (s : State) : s.normalBoot.fstate = s.fstate := rfl
@[simp] theorem State.normalBoot_seq (s : State) : s.normalBoot.seq = s.seq := rfl
@[simp] theorem State.normalBoot_len (s : State) : s.normalBoot.len = s.len := rfl
@[simp] theorem State.normalBoot_idx (s : State) : s.normalBoot.idx = s.idx := rfl
@[simp] theorem State.normalBoot_cksum (s : State) : s.normalBoot.cksum = s.cksum := rfl
@[simp] theorem State.normalBoot_msg (s : State) : s.normalBoot.msg = s.msg := rfl
@[simp] theorem State.normalBoot_exitFlag (s : State) : s.normalBoot.exitFlag = s.exitFlag := rfl
@[simp] theorem State.normalBoot_pbuf (s : State) : s.normalBoot.pbuf = s.pbuf := rfl
@[simp] theorem State.normalBoot_rwwBlocked (s : State) : s.normalBoot.rwwBlocked = s.rwwBlocked := rfl
@[simp] theorem State.normalBoot_flash (s : State) : s.normalBoot.flash = s.flash := rfl
@[simp] theorem State.normalBoot_eeprom (s : State) : s.normalBoot.eeprom = s.eeprom := rfl
@[simp] theorem State.normalBoot_ram (s : State) : s.normalBoot.ram = s.ram := rfl
@[simp] theorem State.normalBoot_lockBits (s : State) : s.normalBoot.lockBits = s.lockBits := rfl
@[simp] theorem State.normalBoot_fuseLow (s : State) : s.normalBoot.fuseLow = s.fuseLow := rfl
@[simp] theorem State.normalBoot_fuseHigh (s : State) : s.normalBoot.fuseHigh = s.fuseHigh := rfl
@[simp] theorem State.normalBoot_fuseExt (s : State) : s.normalBoot.fuseExt = s.fuseExt := rfl
@[simp] theorem State.normalBoot_desc (s : State) : s.normalBoot.desc = s.desc := rfl
@[simp] theorem State.normalBoot_led (s : State) : s.normalBoot.led = true := rfl
@[simp] theorem State.normalBoot_wdtReset (s : State) : s.normalBoot.wdtReset = false := rfl
@[simp] theorem State.normalBoot_wdtEnable (s : State) : s.normalBoot.wdtEnable = false := rfl
@[simp] theorem State.normalBoot_env (s : State) : s.normalBoot.env = s.env := rfl
@[simp] theorem State.normalBoot_tx (s : State) : s.normalBoot.tx = s.tx := rfl
@[simp] theorem State.normalBoot_freeCount (s : State) : s.normalBoot.freeCount = s.freeCount := rfl

/-! ## `pollWait` -/

@[simp] theorem State.pollWait_cfg (s : State) : s.pollWait.cfg = s.cfg := rfl
@[simp] theorem State.pollWait_currentAddress (s : State) : s.pollWait.currentAddress = s.currentAddress := rfl
@[simp] theorem State.pollWait_eraseFrontier (s : State) : s.pollWait.eraseFrontier = s.eraseFrontier := rfl
@[simp] theorem State.pollWait_totalUploadSize (s : State) : s.pollWait.totalUploadSize = s.totalUploadSize := rfl
@[simp] theorem State.pollWait_bytesTransferred (s : State) : s.pollWait.bytesTransferred = s.bytesTransferred := rfl
@[simp] theorem State.pollWait_operationKind (s : State) : s.pollWait.operationKind = s.operationKind := rfl
@[simp] theorem State.pollWait_phase (s : State) : s.pollWait.phase = s.phase := rfl
@[simp] theorem State.pollWait_fstate (s : State) : s.pollWait.fstate = s.fstate := rfl
@[simp] theorem State.pollWait_seq (s : State) : s.pollWait.seq = s.seq := rfl
@[simp] theorem State.pollWait_len (s : State) : s.pollWait.len = s.len := rfl
@[simp] theorem State.pollWait_idx (s : State) : s.pollWait.idx = s.idx := rfl
@[simp] theorem State.pollWait_cksum (s : State) : s.pollWait.cksum = s.cksum := rfl
@[simp] theorem State.pollWait_msg (s : State) : s.pollWait.msg = s.msg := rfl
@[simp] theorem State.pollWait_exitFlag (s : State) : s.pollWait.exitFlag = s.exitFlag := rfl
@[simp] theorem State.pollWait_pbuf (s : State) : s.pollWait.pbuf = s.pbuf := rfl
@[simp] theorem State.pollWait_rwwBlocked (s : State) : s.pollWait.rwwBlocked = s.rwwBlocked := rfl
@[simp] theorem State.pollWait_flash (s : State) : s.pollWait.flash = s.flash := rfl
@[simp] theorem State.pollWait_eeprom (s : State) : s.pollWait.eeprom = s.eeprom := rfl
@[simp] theorem State.pollWait_ram (s : State) : s.pollWait.ram = s.ram := rfl
@[simp] theorem State.pollWait_lockBits (s : State) : s.pollWait.lockBits = s.lockBits := rfl
@[simp] theorem State.pollWait_fuseLow (s : State) : s.pollWait.fuseLow = s.fuseLow := rfl
@[simp] theorem State.pollWait_fuseHigh (s : State) : s.pollWait.fuseHigh = s.fuseHigh := rfl
@[simp] theorem State.pollWait_fuseExt (s : State) : s.pollWait.fuseExt = s.fuseExt := rfl
@[simp] theorem State.pollWait_desc (s : State) : s.pollWait.desc = s.desc := rfl
@[simp] theorem State.pollWait_led (s : State) : s.pollWait.led = Config.freeBit s.freeCount := rfl
@[simp] theorem State.pollWait_wdtReset (s : State) : s.pollWait.wdtReset = s.wdtReset := rfl
@[simp] theorem State.pollWait_wdtEnable (s : State) : s.pollWait.wdtEnable = s.wdtEnable := rfl
@[simp] theorem State.pollWait_env (s : State) : s.pollWait.env = s.env := rfl
@[simp] theorem State.pollWait_tx (s : State) : s.pollWait.tx = s.tx := rfl
@[simp] theorem State.pollWait_freeCount (s : State) : s.pollWait.freeCount = s.freeCount + 1 := rfl

/-! ## `sendReply` -/

@[simp] theorem State.sendReply_cfg (s : State) : s.sendReply.cfg = s.cfg := rfl
@[simp] theorem State.sendReply_currentAddress (s : State) : s.sendReply.currentAddress = s.currentAddress := rfl
@[simp] theorem State.sendReply_eraseFrontier (s : State) : s.sendReply.eraseFrontier = s.eraseFrontier := rfl
@[simp] theorem State.sendReply_totalUploadSize (s : State) : s.sendReply.totalUploadSize = s.totalUploadSize := rfl
@[simp] theorem State.sendReply_bytesTransferred (s : State) : s.sendReply.bytesTransferred = s.bytesTransferred := rfl
@[simp] theorem State.sendReply_operationKind (s : State) : s.sendReply.operationKind = s.operationKind := rfl
@[simp] theorem State.sendReply_phase (s : State) : s.sendReply.phase = s.phase := rfl
@[simp] theorem State.sendReply_fstate (s : State) : s.sendReply.fstate = s.fstate := rfl
@[simp] theorem State.sendReply_seq (s : State) : s.sendReply.seq = s.seq := rfl
@[simp] theorem State.sendReply_len (s : State) : s.sendReply.len = s.len := rfl
@[simp] theorem State.sendReply_idx (s : State) : s.sendReply.idx = s.idx := rfl
@[simp] theorem State.sendReply_cksum (s : State) : s.sendReply.cksum = s.cksum := rfl
@[simp] theorem State.sendReply_msg (s : State) : s.sendReply.msg = s.msg := rfl
@[simp] theorem State.sendReply_exitFlag (s : State) : s.sendReply.exitFlag = s.exitFlag := rfl
@[simp] theorem State.sendReply_pbuf (s : State) : s.sendReply.pbuf = s.pbuf := rfl
@[simp] theorem State.sendReply_rwwBlocked (s : State) : s.sendReply.rwwBlocked = s.rwwBlocked := rfl
@[simp] theorem State.sendReply_flash (s : State) : s.sendReply.flash = s.flash := rfl
@[simp] theorem State.sendReply_eeprom (s : State) : s.sendReply.eeprom = s.eeprom := rfl
@[simp] theorem State.sendReply_ram (s : State) : s.sendReply.ram = s.ram := rfl
@[simp] theorem State.sendReply_lockBits (s : State) : s.sendReply.lockBits = s.lockBits := rfl
@[simp] theorem State.sendReply_fuseLow (s : State) : s.sendReply.fuseLow = s.fuseLow := rfl
@[simp] theorem State.sendReply_fuseHigh (s : State) : s.sendReply.fuseHigh = s.fuseHigh := rfl
@[simp] theorem State.sendReply_fuseExt (s : State) : s.sendReply.fuseExt = s.fuseExt := rfl
@[simp] theorem State.sendReply_desc (s : State) : s.sendReply.desc = s.desc := rfl
@[simp] theorem State.sendReply_led (s : State) : s.sendReply.led = s.led := rfl
@[simp] theorem State.sendReply_wdtReset (s : State) : s.sendReply.wdtReset = s.wdtReset := rfl
@[simp] theorem State.sendReply_wdtEnable (s : State) : s.sendReply.wdtEnable = s.wdtEnable := rfl
@[simp] theorem State.sendReply_env (s : State) : s.sendReply.env = s.env := rfl
@[simp] theorem State.sendReply_tx (s : State) : s.sendReply.tx = s.tx ++ frame s.cfg s.seq s.len (s.msg.take s.len.toNat) := rfl
@[simp] theorem State.sendReply_freeCount (s : State) : s.sendReply.freeCount = s.freeCount := rfl

/-! ## `freePage` -/

@[simp] theorem State.freePage_cfg (s : State) (a : Nat) : (s.freePage a).cfg = s.cfg := rfl
@[simp] theorem State.freePage_currentAddress (s : State) (a : Nat) : (s.freePage a).currentAddress = s.currentAddress := rfl
@[simp] theorem State.freePage_eraseFrontier (s : State) (a : Nat) : (s.freePage a).eraseFrontier = s.eraseFrontier := rfl
@[simp] theorem State.freePage_totalUploadSize (s : State) (a : Nat) : (s.freePage a).totalUploadSize = s.totalUploadSize := rfl
@[simp] theorem State.freePage_bytesTransferred (s : State) (a : Nat) : (s.freePage a).bytesTransferred = s.bytesTransferred := rfl
@[simp] theorem State.freePage_operationKind (s : State) (a : Nat) : (s.freePage a).operationKind = s.operationKind := rfl
@[simp] theorem State.freePage_phase (s : State) (a : Nat) : (s.freePage a).phase = s.phase := rfl
@[simp] theorem State.freePage_fstate (s : State) (a : Nat) : (s.freePage a).fstate = s.fstate := rfl
@[simp] theorem State.freePage_seq (s : State) (a : Nat) : (s.freePage a).seq = s.seq := rfl
@[simp] theorem State.freePage_len (s : State) (a : Nat) : (s.freePage a).len = s.len := rfl
@[simp] theorem State.freePage_idx (s : State) (a : Nat) : (s.freePage a).idx = s.idx := rfl
@[simp] theorem State.freePage_cksum (s : State) (a : Nat) : (s.freePage a).cksum = s.cksum := rfl
@[simp] theorem State.freePage_msg (s : State) (a : Nat) : (s.freePage a).msg = s.msg := rfl
@[simp] theorem State.freePage_exitFlag (s : State) (a : Nat) : (s.freePage a).exitFlag = s.exitFlag := rfl
@[simp] theorem State.freePage_pbuf (s : State) (a : Nat) : (s.freePage a).pbuf = s.pbuf := rfl
@[simp] theorem State.freePage_rwwBlocked (s : State) (a : Nat) : (s.freePage a).rwwBlocked = s.rwwBlocked := rfl
@[simp] theorem State.freePage_flash (s : State) (a : Nat) : (s.freePage a).flash = s.flash.writeBytes (pageOf s.cfg a) ((List.range s.cfg.pageSize).map fun k => Config.freeByte (s.freeCount + k)) := rfl
@[simp] theorem State.freePage_eeprom (s : State) (a : Nat) : (s.freePage a).eeprom = s.eeprom := rfl
@[simp] theorem State.freePage_ram (s : State) (a : Nat) : (s.freePage a).ram = s.ram := rfl
@[simp] theorem State.freePage_lockBits (s : State) (a : Nat) : (s.freePage a).lockBits = s.lockBits := rfl
@[simp] theorem State.freePage_fuseLow (s : State) (a : Nat) : (s.freePage a).fuseLow = s.fuseLow := rfl
@[simp] theorem State.freePage_fuseHigh (s : State) (a : Nat) : (s.freePage a).fuseHigh = s.fuseHigh := rfl
@[simp] theorem State.freePage_fuseExt (s : State) (a : Nat) : (s.freePage a).fuseExt = s.fuseExt := rfl
@[simp] theorem State.freePage_desc (s : State) (a : Nat) : (s.freePage a).desc = s.desc := rfl
@[simp] theorem State.freePage_led (s : State) (a : Nat) : (s.freePage a).led = s.led := rfl
@[simp] theorem State.freePage_wdtReset (s : State) (a : Nat) : (s.freePage a).wdtReset = s.wdtReset := rfl
@[simp] theorem State.freePage_wdtEnable (s : State) (a : Nat) : (s.freePage a).wdtEnable = s.wdtEnable := rfl
@[simp] theorem State.freePage_env (s : State) (a : Nat) : (s.freePage a).env = s.env := rfl
@[simp] theorem State.freePage_tx (s : State) (a : Nat) : (s.freePage a).tx = s.tx := rfl
@[simp] theorem State.freePage_freeCount (s : State) (a : Nat) : (s.freePage a).freeCount = s.freeCount + s.cfg.pageSize := rfl

/-! ## `sendPart` -/

@[simp] theorem State.sendPart_cfg (s : State) (sent : Nat) : (s.sendPart sent).cfg = s.cfg := rfl
@[simp] theorem State.sendPart_currentAddress (s : State) (sent : Nat) : (s.sendPart sent).currentAddress = s.currentAddress := rfl
@[simp] theorem State.sendPart_eraseFrontier (s : State) (sent : Nat) : (s.sendPart sent).eraseFrontier = s.eraseFrontier := rfl
@[simp] theorem State.sendPart_totalUploadSize (s : State) (sent : Nat) : (s.sendPart sent).totalUploadSize = s.totalUploadSize := rfl
@[simp] theorem State.sendPart_bytesTransferred (s : State) (sent : Nat) : (s.sendPart sent).bytesTransferred = s.bytesTransferred := rfl
@[simp] theorem State.sendPart_operationKind (s : State) (sent : Nat) : (s.sendPart sent).operationKind = s.operationKind := rfl
@[simp] theorem State.sendPart_phase (s : State) (sent : Nat) : (s.sendPart sent).phase = s.phase := rfl
@[simp] theorem State.sendPart_fstate (s : State) (sent : Nat) : (s.sendPart sent).fstate = s.fstate := rfl
@[simp] theorem State.sendPart_seq (s : State) (sent : Nat) : (s.sendPart sent).seq = s.seq := rfl
@[simp] theorem State.sendPart_len (s : State) (sent : Nat) : (s.sendPart sent).len = s.len := rfl
@[simp] theorem State.sendPart_idx (s : State) (sent : Nat) : (s.sendPart sent).idx = s.idx := rfl
@[simp] theorem State.sendPart_cksum (s : State) (sent : Nat) : (s.sendPart sent).cksum = s.cksum := rfl
@[simp] theorem State.sendPart_msg (s : State) (sent : Nat) : (s.sendPart sent).msg = s.msg := rfl
@[simp] theorem State.sendPart_exitFlag (s : State) (sent : Nat) : (s.sendPart sent).exitFlag = s.exitFlag := rfl
@[simp] theorem State.sendPart_pbuf (s : State) (sent : Nat) : (s.sendPart sent).pbuf = s.pbuf := rfl
@[simp] theorem State.sendPart_rwwBlocked (s : State) (sent : Nat) : (s.sendPart sent).rwwBlocked = s.rwwBlocked := rfl
@[simp] theorem State.sendPart_flash (s : State) (sent : Nat) : (s.sendPart sent).flash = s.flash := rfl
@[simp] theorem State.sendPart_eeprom (s : State) (sent : Nat) : (s.sendPart sent).eeprom = s.eeprom := rfl
@[simp] theorem State.sendPart_ram (s : State) (sent : Nat) : (s.sendPart sent).ram = s.ram := rfl
@[simp] theorem State.sendPart_lockBits (s : State) (sent : Nat) : (s.sendPart sent).lockBits = s.lockBits := rfl
@[simp] theorem State.sendPart_fuseLow (s : State) (sent : Nat) : (s.sendPart sent).fuseLow = s.fuseLow := rfl
@[simp] theorem State.sendPart_fuseHigh (s : State) (sent : Nat) : (s.sendPart sent).fuseHigh = s.fuseHigh := rfl
@[simp] theorem State.sendPart_fuseExt (s : State) (sent : Nat) : (s.sendPart sent).fuseExt = s.fuseExt := rfl
@[simp] theorem State.sendPart_desc (s : State) (sent : Nat) : (s.sendPart sent).desc = s.desc := rfl
@[simp] theorem State.sendPart_led (s : State) (sent : Nat) : (s.sendPart sent).led = s.led := rfl
@[simp] theorem State.sendPart_wdtReset (s : State) (sent : Nat) : (s.sendPart sent).wdtReset = s.wdtReset := rfl
@[simp] theorem State.sendPart_wdtEnable (s : State) (sent : Nat) : (s.sendPart sent).wdtEnable = s.wdtEnable := rfl
@[simp] theorem State.sendPart_env (s : State) (sent : Nat) : (s.sendPart sent).env = s.env := rfl
@[simp] theorem State.sendPart_tx (s : State) (sent : Nat) : (s.sendPart sent).tx = s.tx ++ (frame s.cfg s.seq s.len (s.msg.take s.len.toNat)).take sent := rfl
@[simp] theorem State.sendPart_freeCount (s : State) (sent : Nat) : (s.sendPart sent).freeCount = s.freeCount := rfl

/-! ## `commit` -/

@[simp] theorem State.commit_cfg (s : State) (a0 : Word) : (s.commit a0).cfg = s.cfg := rfl
@[simp] theorem State.commit_currentAddress (s : State) (a0 : Word) : (s.commit a0).currentAddress = s.currentAddress := rfl
@[simp] theorem State.commit_eraseFrontier (s : State) (a0 : Word) : (s.commit a0).eraseFrontier = s.eraseFrontier := rfl
@[simp] theorem State.commit_totalUploadSize (s : State) (a0 : Word) : (s.commit a0).totalUploadSize = s.totalUploadSize := rfl
@[simp] theorem State.commit_bytesTransferred (s : State) (a0 : Word) : (s.commit a0).bytesTransferred = s.bytesTransferred := rfl
@[simp] theorem State.commit_operationKind (s : State) (a0 : Word) : (s.commit a0).operationKind = s.operationKind := rfl
@[simp] theorem State.commit_phase (s : State) (a0 : Word) : (s.commit a0).phase = s.phase := rfl
@[simp] theorem State.commit_fstate (s : State) (a0 : Word) : (s.commit a0).fstate = s.fstate := rfl
@[simp] theorem State.commit_seq (s : State) (a0 : Word) : (s.commit a0).seq = s.seq := rfl
@[simp] theorem State.commit_len (s : State) (a0 : Word) : (s.commit a0).len = s.len := rfl
@[simp] theorem State.commit_idx (s : State) (a0 : Word) : (s.commit a0).idx = s.idx := rfl
@[simp] theorem State.commit_cksum (s : State) (a0 : Word) : (s.commit a0).cksum = s.cksum := rfl
@[simp] theorem State.commit_msg (s : State) (a0 : Word) : (s.commit a0).msg = s.msg := rfl
@[simp] theorem State.commit_exitFlag (s : State) (a0 : Word) : (s.commit a0).exitFlag = s.exitFlag := rfl
@[simp] theorem State.commit_pbuf (s : State) (a0 : Word) : (s.commit a0).pbuf = emptyPbuf s.cfg := rfl
@[simp] theorem State.commit_rwwBlocked (s : State) (a0 : Word) : (s.commit a0).rwwBlocked = false := rfl
@[simp] theorem State.commit_flash (s : State) (a0 : Word) : (s.commit a0).flash = s.flash.writeBytes (pageOf s.cfg a0.toNat) (s.mergedPage (pageOf s.cfg a0.toNat)) := rfl
@[simp] theorem State.commit_eeprom (s : State) (a0 : Word) : (s.commit a0).eeprom = s.eeprom := rfl
@[simp] theorem State.commit_ram (s : State) (a0 : Word) : (s.commit a0).ram = s.ram := rfl
@[simp] theorem State.commit_lockBits (s : State) (a0 : Word) : (s.commit a0).lockBits = s.lockBits := rfl
@[simp] theorem State.commit_fuseLow (s : State) (a0 : Word) : (s.commit a0).fuseLow = s.fuseLow := rfl
@[simp] theorem State.commit_fuseHigh (s : State) (a0 : Word) : (s.commit a0).fuseHigh = s.fuseHigh := rfl
@[simp] theorem State.commit_fuseExt (s : State) (a0 : Word) : (s.commit a0).fuseExt = s.fuseExt := rfl
@[simp] theorem State.commit_desc (s : State) (a0 : Word) : (s.commit a0).desc = s.desc := rfl
@[simp] theorem State.commit_led (s : State) (a0 : Word) : (s.commit a0).led = s.led := rfl
@[simp] theorem State.commit_wdtReset (s : State) (a0 : Word) : (s.commit a0).wdtReset = s.wdtReset := rfl
@[simp] theorem State.commit_wdtEnable (s : State) (a0 : Word) : (s.commit a0).wdtEnable = s.wdtEnable := rfl
@[simp] theorem State.commit_env (s : State) (a0 : Word) : (s.commit a0).env = s.env := rfl
@[simp] theorem State.commit_tx (s : State) (a0 : Word) : (s.commit a0).tx = s.tx := rfl
@[simp] theorem State.commit_freeCount (s : State) (a0 : Word) : (s.commit a0).freeCount = s.freeCount := rfl

/-! ## `progress`: the fields it never writes -/

@[simp] theorem State.progress_cfg (s : State) (kind : OperationKind) (a0 : Word) (size : Half) : (s.progress kind a0 size).cfg = s.cfg := by
  unfold State.progress; split; rfl; split <;> rfl
@[simp] theorem State.progress_currentAddress (s : State) (kind : OperationKind) (a0 : Word) (size : Half) : (s.progress kind a0 size).currentAddress = s.currentAddress := by
  unfold State.progress; split; rfl; split <;> rfl
@[simp] theorem State.progress_eraseFrontier (s : State) (kind : OperationKind) (a0 : Word) (size : Half) : (s.progress kind a0 size).eraseFrontier = s.eraseFrontier := by
  unfold State.progress; split; rfl; split <;> rfl
@[simp] theorem State.progress_totalUploadSize (s : State) (kind : OperationKind) (a0 : Word) (size : Half) : (s.progress kind a0 size).totalUploadSize = s.totalUploadSize := by
  unfold State.progress; split; rfl; split <;> rfl
@[simp] theorem State.progress_phase (s : State) (kind : OperationKind) (a0 : Word) (size : Half) : (s.progress kind a0 size).phase = s.phase := by
  unfold State.progress; split; rfl; split <;> rfl
@[simp] theorem State.progress_fstate (s : State) (kind : OperationKind) (a0 : Word) (size : Half) : (s.progress kind a0 size).fstate = s.fstate := by
  unfold State.progress; split; rfl; split <;> rfl
@[simp] theorem State.progress_seq (s : State) (kind : OperationKind) (a0 : Word) (size : Half) : (s.progress kind a0 size).seq = s.seq := by
  unfold State.progress; split; rfl; split <;> rfl
@[simp] theorem State.progress_len (s : State) (kind : OperationKind) (a0 : Word) (size : Half) : (s.progress kind a0 size).len = s.len := by
  unfold State.progress; split; rfl; split <;> rfl
@[simp] theorem State.progress_idx (s : State) (kind : OperationKind) (a0 : Word) (size : Half) : (s.progress kind a0 size).idx = s.idx := by
  unfold State.progress; split; rfl; split <;> rfl
@[simp] theorem State.progress_cksum (s : State) (kind : OperationKind) (a0 : Word) (size : Half) : (s.progress kind a0 size).cksum = s.cksum := by
  unfold State.progress; split; rfl; split <;> rfl
@[simp] theorem State.progress_msg (s : State) (kind : OperationKind) (a0 : Word) (size : Half) : (s.progress kind a0 size).msg = s.msg := by
  unfold State.progress; split; rfl; split <;> rfl
@[simp] theorem State.progress_exitFlag (s : State) (kind : OperationKind) (a0 : Word) (size : Half) : (s.progress kind a0 size).exitFlag = s.exitFlag := by
  unfold State.progress; split; rfl; split <;> rfl
@[simp] theorem State.progress_pbuf (s : State) (kind : OperationKind) (a0 : Word) (size : Half) : (s.progress kind a0 size).pbuf = s.pbuf := by
  unfold State.progress; split; rfl; split <;> rfl
@[simp] theorem State.progress_rwwBlocked (s : State) (kind : OperationKind) (a0 : Word) (size : Half) : (s.progress kind a0 size).rwwBlocked = s.rwwBlocked := by
  unfold State.progress; split; rfl; split <;> rfl
@[simp] theorem State.progress_flash (s : State) (kind : OperationKind) (a0 : Word) (size : Half) : (s.progress kind a0 size).flash = s.flash := by
  unfold State.progress; split; rfl; split <;> rfl
@[simp] theorem State.progress_eeprom (s : State) (kind : OperationKind) (a0 : Word) (size : Half) : (s.progress kind a0 size).eeprom = s.eeprom := by
  unfold State.progress; split; rfl; split <;> rfl
@[simp] theorem State.progress_ram (s : State) (kind : OperationKind) (a0 : Word) (size : Half) : (s.progress kind a0 size).ram = s.ram := by
  unfold State.progress; split; rfl; split <;> rfl
@[simp] theorem State.progress_lockBits (s : State) (kind : OperationKind) (a0 : Word) (size : Half) : (s.progress kind a0 size).lockBits = s.lockBits := by
  unfold State.progress; split; rfl; split <;> rfl
@[simp] theorem State.progress_fuseLow (s : State) (kind : OperationKind) (a0 : Word) (size : Half) : (s.progress kind a0 size).fuseLow = s.fuseLow := by
  unfold State.progress; split; rfl; split <;> rfl
@[simp] theorem State.progress_fuseHigh (s : State) (kind : OperationKind) (a0 : Word) (size : Half) : (s.progress kind a0 size).fuseHigh = s.fuseHigh := by
  unfold State.progress; split; rfl; split <;> rfl
@[simp] theorem State.progress_fuseExt (s : State) (kind : OperationKind) (a0 : Word) (size : Half) : (s.progress kind a0 size).fuseExt = s.fuseExt := by
  unfold State.progress; split; rfl; split <;> rfl
@[simp] theorem State.progress_desc (s : State) (kind : OperationKind) (a0 : Word) (size : Half) : (s.progress kind a0 size).desc = s.desc := by
  unfold State.progress; split; rfl; split <;> rfl
@[simp] theorem State.progress_led (s : State) (kind : OperationKind) (a0 : Word) (size : Half) : (s.progress kind a0 size).led = s.led := by
  unfold State.progress; split; rfl; split <;> rfl
@[simp] theorem State.progress_wdtReset (s : State) (kind : OperationKind) (a0 : Word) (size : Half) : (s.progress kind a0 size).wdtReset = s.wdtReset := by
  unfold State.progress; split; rfl; split <;> rfl
@[simp] theorem State.progress_wdtEnable (s : State) (kind : OperationKind) (a0 : Word) (size : Half) : (s.progress kind a0 size).wdtEnable = s.wdtEnable := by
  unfold State.progress; split; rfl; split <;> rfl
@[simp] theorem State.progress_env (s : State) (kind : OperationKind) (a0 : Word) (size : Half) : (s.progress kind a0 size).env = s.env := by
  unfold State.progress; split; rfl; split <;> rfl
@[simp] theorem State.progress_tx (s : State) (kind : OperationKind) (a0 : Word) (size : Half) : (s.progress kind a0 size).tx = s.tx := by
  unfold State.progress; split; rfl; split <;> rfl
@[simp] theorem State.progress_freeCount (s : State) (kind : OperationKind) (a0 : Word) (size : Half) : (s.progress kind a0 size).freeCount = s.freeCount := by
  unfold State.progress; split; rfl; split <;> rfl

/-! ## `pageFill`: the fields it never writes -/

@[simp] theorem State.pageFill_cfg (s : State) (a : Nat) (lo hi : Byte) : (s.pageFill a lo hi).cfg = s.cfg := by
  unfold State.pageFill; split <;> rfl
@[simp] theorem State.pageFill_currentAddress (s : State) (a : Nat) (lo hi : Byte) : (s.pageFill a lo hi).currentAddress = s.currentAddress := by
  unfold State.pageFill; split <;> rfl
@[simp] theorem State.pageFill_eraseFrontier (s : State) (a : Nat) (lo hi : Byte) : (s.pageFill a lo hi).eraseFrontier = s.eraseFrontier := by
  unfold State.pageFill; split <;> rfl
@[simp] theorem State.pageFill_totalUploadSize (s : State) (a : Nat) (lo hi : Byte) : (s.pageFill a lo hi).totalUploadSize = s.totalUploadSize := by
  unfold State.pageFill; split <;> rfl
@[simp] theorem State.pageFill_bytesTransferred (s : State) (a : Nat) (lo hi : Byte) : (s.pageFill a lo hi).bytesTransferred = s.bytesTransferred := by
  unfold State.pageFill; split <;> rfl
@[simp] theorem State.pageFill_operationKind (s : State) (a : Nat) (lo hi : Byte) : (s.pageFill a lo hi).operationKind = s.operationKind := by
  unfold State.pageFill; split <;> rfl
@[simp] theorem State.pageFill_phase (s : State) (a : Nat) (lo hi : Byte) : (s.pageFill a lo hi).phase = s.phase := by
  unfold State.pageFill; split <;> rfl
@[simp] theorem State.pageFill_fstate (s : State) (a : Nat) (lo hi : Byte) : (s.pageFill a lo hi).fstate = s.fstate := by
  unfold State.pageFill; split <;> rfl
@[simp] theorem State.pageFill_seq (s : State) (a : Nat) (lo hi : Byte) : (s.pageFill a lo hi).seq = s.seq := by
  unfold State.pageFill; split <;> rfl
@[simp] theorem State.pageFill_len (s : State) (a : Nat) (lo hi : Byte) : (s.pageFill a lo hi).len = s.len := by
  unfold State.pageFill; split <;> rfl
@[simp] theorem State.pageFill_idx (s : State) (a : Nat) (lo hi : Byte) : (s.pageFill a lo hi).idx = s.idx := by
  unfold State.pageFill; split <;> rfl
@[simp] theorem State.pageFill_cksum (s : State) (a : Nat) (lo hi : Byte) : (s.pageFill a lo hi).cksum = s.cksum := by
  unfold State.pageFill; split <;> rfl
@[simp] theorem State.pageFill_msg (s : State) (a : Nat) (lo hi : Byte) : (s.pageFill a lo hi).msg = s.msg := by
  unfold State.pageFill; split <;> rfl
@[simp] theorem State.pageFill_exitFlag (s : State) (a : Nat) (lo hi : Byte) : (s.pageFill a lo hi).exitFlag = s.exitFlag := by
  unfold State.pageFill; split <;> rfl
@[simp] theorem State.pageFill_rwwBlocked (s : State) (a : Nat) (lo hi : Byte) : (s.pageFill a lo hi).rwwBlocked = s.rwwBlocked := by
  unfold State.pageFill; split <;> rfl
@[simp] theorem State.pageFill_flash (s : State) (a : Nat) (lo hi : Byte) : (s.pageFill a lo hi).flash = s.flash := by
  unfold State.pageFill; split <;> rfl
@[simp] theorem State.pageFill_eeprom (s : State) (a : Nat) (lo hi : Byte) : (s.pageFill a lo hi).eeprom = s.eeprom := by
  unfold State.pageFill; split <;> rfl
@[simp] theorem State.pageFill_ram (s : State) (a : Nat) (lo hi : Byte) : (s.pageFill a lo hi).ram = s.ram := by
  unfold State.pageFill; split <;> rfl
@[simp] theorem State.pageFill_lockBits (s : State) (a : Nat) (lo hi : Byte) : (s.pageFill a lo hi).lockBits = s.lockBits := by
  unfold State.pageFill; split <;> rfl
@[simp] theorem State.pageFill_fuseLow (s : State) (a : Nat) (lo hi : Byte) : (s.pageFill a lo hi).fuseLow = s.fuseLow := by
  unfold State.pageFill; split <;> rfl
@[simp] theorem State.pageFill_fuseHigh (s : State) (a : Nat) (lo hi : Byte) : (s.pageFill a lo hi).fuseHigh = s.fuseHigh := by
  unfold State.pageFill; split <;> rfl
@[simp] theorem State.pageFill_fuseExt (s : State) (a : Nat) (lo hi : Byte) : (s.pageFill a lo hi).fuseExt = s.fuseExt := by
  unfold State.pageFill; split <;> rfl
@[simp] theorem State.pageFill_desc (s : State) (a : Nat) (lo hi : Byte) : (s.pageFill a lo hi).desc = s.desc := by
  unfold State.pageFill; split <;> rfl
@[simp] theorem State.pageFill_led (s : State) (a : Nat) (lo hi : Byte) : (s.pageFill a lo hi).led = s.led := by
  unfold State.pageFill; split <;> rfl
@[simp] theorem State.pageFill_wdtReset (s : State) (a : Nat) (lo hi : Byte) : (s.pageFill a lo hi).wdtReset = s.wdtReset := by
  unfold State.pageFill; split <;> rfl
@[simp] theorem State.pageFill_wdtEnable (s : State) (a : Nat) (lo hi : Byte) : (s.pageFill a lo hi).wdtEnable = s.wdtEnable := by
  unfold State.pageFill; split <;> rfl
@[simp] theorem State.pageFill_env (s : State) (a : Nat) (lo hi : Byte) : (s.pageFill a lo hi).env = s.env := by
  unfold State.pageFill; split <;> rfl
@[simp] theorem State.pageFill_tx (s : State) (a : Nat) (lo hi : Byte) : (s.pageFill a lo hi).tx = s.tx := by
  unfold State.pageFill; split <;> rfl

/-! ## `eraseAhead`: the fields it never writes -/

@[simp] theorem State.eraseAhead_cfg (s : State) : s.eraseAhead.cfg = s.cfg := by
  unfold State.eraseAhead; split <;> rfl
@[simp] theorem State.eraseAhead_currentAddress (s : State) : s.eraseAhead.currentAddress = s.currentAddress := by
  unfold State.eraseAhead; split <;> rfl
@[simp] theorem State.eraseAhead_totalUploadSize (s : State) : s.eraseAhead.totalUploadSize = s.totalUploadSize := by
  unfold State.eraseAhead; split <;> rfl
@[simp] theorem State.eraseAhead_bytesTransferred (s : State) : s.eraseAhead.bytesTransferred = s.bytesTransferred := by
  unfold State.eraseAhead; split <;> rfl
@[simp] theorem State.eraseAhead_operationKind (s : State) : s.eraseAhead.operationKind = s.operationKind := by
  unfold State.eraseAhead; split <;> rfl
@[simp] theorem State.eraseAhead_phase (s : State) : s.eraseAhead.phase = s.phase := by
  unfold State.eraseAhead; split <;> rfl
@[simp] theorem State.eraseAhead_fstate (s : State) : s.eraseAhead.fstate = s.fstate := by
  unfold State.eraseAhead; split <;> rfl
@[simp] theorem State.eraseAhead_seq (s : State) : s.eraseAhead.seq = s.seq := by
  unfold State.eraseAhead; split <;> rfl
@[simp] theorem State.eraseAhead_len (s : State) : s.eraseAhead.len = s.len := by
  unfold State.eraseAhead; split <;> rfl
@[simp] theorem State.eraseAhead_idx (s : State) : s.eraseAhead.idx = s.idx := by
  unfold State.eraseAhead; split <;> rfl
@[simp] theorem State.eraseAhead_cksum (s : State) : s.eraseAhead.cksum = s.cksum := by
  unfold State.eraseAhead; split <;> rfl
@[simp] theorem State.eraseAhead_msg (s : State) : s.eraseAhead.msg = s.msg := by
  unfold State.eraseAhead; split <;> rfl
@[simp] theorem State.eraseAhead_exitFlag (s : State) : s.eraseAhead.exitFlag = s.exitFlag := by
  unfold State.eraseAhead; split <;> rfl
@[simp] theorem State.eraseAhead_pbuf (s : State) : s.eraseAhead.pbuf = s.pbuf := by
  unfold State.eraseAhead; split <;> rfl
@[simp] theorem State.eraseAhead_eeprom (s : State) : s.eraseAhead.eeprom = s.eeprom := by
  unfold State.eraseAhead; split <;> rfl
@[simp] theorem State.eraseAhead_ram (s : State) : s.eraseAhead.ram = s.ram := by
  unfold State.eraseAhead; split <;> rfl
@[simp] theorem State.eraseAhead_lockBits (s : State) : s.eraseAhead.lockBits = s.lockBits := by
  unfold State.eraseAhead; split <;> rfl
@[simp] theorem State.eraseAhead_fuseLow (s : State) : s.eraseAhead.fuseLow = s.fuseLow := by
  unfold State.eraseAhead; split <;> rfl
@[simp] theorem State.eraseAhead_fuseHigh (s : State) : s.eraseAhead.fuseHigh = s.fuseHigh := by
  unfold State.eraseAhead; split <;> rfl
@[simp] theorem State.eraseAhead_fuseExt (s : State) : s.eraseAhead.fuseExt = s.fuseExt := by
  unfold State.eraseAhead; split <;> rfl
@[simp] theorem State.eraseAhead_desc (s : State) : s.eraseAhead.desc = s.desc := by
  unfold State.eraseAhead; split <;> rfl
@[simp] theorem State.eraseAhead_led (s : State) : s.eraseAhead.led = s.led := by
  unfold State.eraseAhead; split <;> rfl
@[simp] theorem State.eraseAhead_wdtReset (s : State) : s.eraseAhead.wdtReset = s.wdtReset := by
  unfold State.eraseAhead; split <;> rfl
@[simp] theorem State.eraseAhead_wdtEnable (s : State) : s.eraseAhead.wdtEnable = s.wdtEnable := by
  unfold State.eraseAhead; split <;> rfl
@[simp] theorem State.eraseAhead_env (s : State) : s.eraseAhead.env = s.env := by
  unfold State.eraseAhead; split <;> rfl
@[simp] theorem State.eraseAhead_tx (s : State) : s.eraseAhead.tx = s.tx := by
  unfold State.eraseAhead; split <;> rfl
@[simp] theorem State.eraseAhead_freeCount (s : State) : s.eraseAhead.freeCount = s.freeCount := by
  unfold State.eraseAhead; split <;> rfl

/-! ## `flashReadByte`: the fields it never writes -/

@[simp] theorem State.flashReadByte_cfg (s : State) (a : Nat) : (s.flashReadByte a).2.cfg = s.cfg := by
  unfold State.flashReadByte; split <;> rfl
@[simp] theorem State.flashReadByte_currentAddress (s : State) (a : Nat) : (s.flashReadByte a).2.currentAddress = s.currentAddress := by
  unfold State.flashReadByte; split <;> rfl
@[simp] theorem State.flashReadByte_eraseFrontier (s : State) (a : Nat) : (s.flashReadByte a).2.eraseFrontier = s.eraseFrontier := by
  unfold State.flashReadByte; split <;> rfl
@[simp] theorem State.flashReadByte_totalUploadSize (s : State) (a : Nat) : (s.flashReadByte a).2.totalUploadSize = s.totalUploadSize := by
  unfold State.flashReadByte; split <;> rfl
@[simp] theorem State.flashReadByte_bytesTransferred (s : State) (a : Nat) : (s.flashReadByte a).2.bytesTransferred = s.bytesTransferred := by
  unfold State.flashReadByte; split <;> rfl
@[simp] theorem State.flashReadByte_operationKind (s : State) (a : Nat) : (s.flashReadByte a).2.operationKind = s.operationKind := by
  unfold State.flashReadByte; split <;> rfl
@[simp] theorem State.flashReadByte_phase (s : State) (a : Nat) : (s.flashReadByte a).2.phase = s.phase := by
  unfold State.flashReadByte; split <;> rfl
@[simp] theorem State.flashReadByte_fstate (s : State) (a : Nat) : (s.flashReadByte a).2.fstate = s.fstate := by
  unfold State.flashReadByte; split <;> rfl
@[simp] theorem State.flashReadByte_seq (s : State) (a : Nat) : (s.flashReadByte a).2.seq = s.seq := by
  unfold State.flashReadByte; split <;> rfl
@[simp] theorem State.flashReadByte_len (s : State) (a : Nat) : (s.flashReadByte a).2.len = s.len := by
  unfold State.flashReadByte; split <;> rfl
@[simp] theorem State.flashReadByte_idx (s : State) (a : Nat) : (s.flashReadByte a).2.idx = s.idx := by
  unfold State.flashReadByte; split <;> rfl
@[simp] theorem State.flashReadByte_cksum (s : State) (a : Nat) : (s.flashReadByte a).2.cksum = s.cksum := by
  unfold State.flashReadByte; split <;> rfl
@[simp] theorem State.flashReadByte_msg (s : State) (a : Nat) : (s.flashReadByte a).2.msg = s.msg := by
  unfold State.flashReadByte; split <;> rfl
@[simp] theorem State.flashReadByte_exitFlag (s : State) (a : Nat) : (s.flashReadByte a).2.exitFlag = s.exitFlag := by
  unfold State.flashReadByte; split <;> rfl
@[simp] theorem State.flashReadByte_pbuf (s : State) (a : Nat) : (s.flashReadByte a).2.pbuf = s.pbuf := by
  unfold State.flashReadByte; split <;> rfl
@[simp] theorem State.flashReadByte_rwwBlocked (s : State) (a : Nat) : (s.flashReadByte a).2.rwwBlocked = s.rwwBlocked := by
  unfold State.flashReadByte; split <;> rfl
@[simp] theorem State.flashReadByte_flash (s : State) (a : Nat) : (s.flashReadByte a).2.flash = s.flash := by
  unfold State.flashReadByte; split <;> rfl
@[simp] theorem State.flashReadByte_eeprom (s : State) (a : Nat) : (s.flashReadByte a).2.eeprom = s.eeprom := by
  unfold State.flashReadByte; split <;> rfl
@[simp] theorem State.flashReadByte_ram (s : State) (a : Nat) : (s.flashReadByte a).2.ram = s.ram := by
  unfold State.flashReadByte; split <;> rfl
@[simp] theorem State.flashReadByte_lockBits (s : State) (a : Nat) : (s.flashReadByte a).2.lockBits = s.lockBits := by
  unfold State.flashReadByte; split <;> rfl
@[simp] theorem State.flashReadByte_fuseLow (s : State) (a : Nat) : (s.flashReadByte a).2.fuseLow = s.fuseLow := by
  unfold State.flashReadByte; split <;> rfl
@[simp] theorem State.flashReadByte_fuseHigh (s : State) (a : Nat) : (s.flashReadByte a).2.fuseHigh = s.fuseHigh := by
  unfold State.flashReadByte; split <;> rfl
@[simp] theorem State.flashReadByte_fuseExt (s : State) (a : Nat) : (s.flashReadByte a).2.fuseExt = s.fuseExt := by
  unfold State.flashReadByte; split <;> rfl
@[simp] theorem State.flashReadByte_desc (s : State) (a : Nat) : (s.flashReadByte a).2.desc = s.desc := by
  unfold State.flashReadByte; split <;> rfl
@[simp] theorem State.flashReadByte_led (s : State) (a : Nat) : (s.flashReadByte a).2.led = s.led := by
  unfold State.flashReadByte; split <;> rfl
@[simp] theorem State.flashReadByte_wdtReset (s : State) (a : Nat) : (s.flashReadByte a).2.wdtReset = s.wdtReset := by
  unfold State.flashReadByte; split <;> rfl
@[simp] theorem State.flashReadByte_wdtEnable (s : State) (a : Nat) : (s.flashReadByte a).2.wdtEnable = s.wdtEnable := by
  unfold State.flashReadByte; split <;> rfl
@[simp] theorem State.flashReadByte_env (s : State) (a : Nat) : (s.flashReadByte a).2.env = s.env := by
  unfold State.flashReadByte; split <;> rfl
@[simp] theorem State.flashReadByte_tx (s : State) (a : Nat) : (s.flashReadByte a).2.tx = s.tx := by
  unfold State.flashReadByte; split <;> rfl

/-! ## `sourceByte`: the fields it never writes -/

@[simp] theorem State.sourceByte_cfg (s : State) (fromFlash : Bool) (a : Word) : (s.sourceByte fromFlash a).2.cfg = s.cfg := by
  unfold State.sourceByte; split; exact State.flashReadByte_cfg s a.toNat; rfl
@[simp] theorem State.sourceByte_currentAddress (s : State) (fromFlash : Bool) (a : Word) : (s.sourceByte fromFlash a).2.currentAddress = s.currentAddress := by
  unfold State.sourceByte; split; exact State.flashReadByte_currentAddress s a.toNat; rfl
@[simp] theorem State.sourceByte_eraseFrontier (s : State) (fromFlash : Bool) (a : Word) : (s.sourceByte fromFlash a).2.eraseFrontier = s.eraseFrontier := by
  unfold State.sourceByte; split; exact State.flashReadByte_eraseFrontier s a.toNat; rfl
@[simp] theorem State.sourceByte_totalUploadSize (s : State) (fromFlash : Bool) (a : Word) : (s.sourceByte fromFlash a).2.totalUploadSize = s.totalUploadSize := by
  unfold State.sourceByte; split; exact State.flashReadByte_totalUploadSize s a.toNat; rfl
@[simp] theorem State.sourceByte_bytesTransferred (s : State) (fromFlash : Bool) (a : Word) : (s.sourceByte fromFlash a).2.bytesTransferred = s.bytesTransferred := by
  unfold State.sourceByte; split; exact State.flashReadByte_bytesTransferred s a.toNat; rfl
@[simp] theorem State.sourceByte_operationKind (s : State) (fromFlash : Bool) (a : Word) : (s.sourceByte fromFlash a).2.operationKind = s.operationKind := by
  unfold State.sourceByte; split; exact State.flashReadByte_operationKind s a.toNat; rfl
@[simp] theorem State.sourceByte_phase (s : State) (fromFlash : Bool) (a : Word) : (s.sourceByte fromFlash a).2.phase = s.phase := by
  unfold State.sourceByte; split; exact State.flashReadByte_phase s a.toNat; rfl
@[simp] theorem State.sourceByte_fstate (s : State) (fromFlash : Bool) (a : Word) : (s.sourceByte fromFlash a).2.fstate = s.fstate := by
  unfold State.sourceByte; split; exact State.flashReadByte_fstate s a.toNat; rfl
@[simp] theorem State.sourceByte_seq (s : State) (fromFlash : Bool) (a : Word) : (s.sourceByte fromFlash a).2.seq = s.seq := by
  unfold State.sourceByte; split; exact State.flashReadByte_seq s a.toNat; rfl
@[simp] theorem State.sourceByte_len (s : State) (fromFlash : Bool) (a : Word) : (s.sourceByte fromFlash a).2.len = s.len := by
  unfold State.sourceByte; split; exact State.flashReadByte_len s a.toNat; rfl
@[simp] theorem State.sourceByte_idx (s : State) (fromFlash : Bool) (a : Word) : (s.sourceByte fromFlash a).2.idx = s.idx := by
  unfold State.sourceByte; split; exact State.flashReadByte_idx s a.toNat; rfl
@[simp] theorem State.sourceByte_cksum (s : State) (fromFlash : Bool) (a : Word) : (s.sourceByte fromFlash a).2.cksum = s.cksum := by
  unfold State.sourceByte; split; exact State.flashReadByte_cksum s a.toNat; rfl
@[simp] theorem State.sourceByte_msg (s : State) (fromFlash : Bool) (a : Word) : (s.sourceByte fromFlash a).2.msg = s.msg := by
  unfold State.sourceByte; split; exact State.flashReadByte_msg s a.toNat; rfl
@[simp] theorem State.sourceByte_exitFlag (s : State) (fromFlash : Bool) (a : Word) : (s.sourceByte fromFlash a).2.exitFlag = s.exitFlag := by
  unfold State.sourceByte; split; exact State.flashReadByte_exitFlag s a.toNat; rfl
@[simp] theorem State.sourceByte_pbuf (s : State) (fromFlash : Bool) (a : Word) : (s.sourceByte fromFlash a).2.pbuf = s.pbuf := by
  unfold State.sourceByte; split; exact State.flashReadByte_pbuf s a.toNat; rfl
@[simp] theorem State.sourceByte_rwwBlocked (s : State) (fromFlash : Bool) (a : Word) : (s.sourceByte fromFlash a).2.rwwBlocked = s.rwwBlocked := by
  unfold State.sourceByte; split; exact State.flashReadByte_rwwBlocked s a.toNat; rfl
@[simp] theorem State.sourceByte_flash (s : State) (fromFlash : Bool) (a : Word) : (s.sourceByte fromFlash a).2.flash = s.flash := by
  unfold State.sourceByte; split; exact State.flashReadByte_flash s a.toNat; rfl
@[simp] theorem State.sourceByte_eeprom (s : State) (fromFlash : Bool) (a : Word) : (s.sourceByte fromFlash a).2.eeprom = s.eeprom := by
  unfold State.sourceByte; split; exact State.flashReadByte_eeprom s a.toNat; rfl
@[simp] theorem State.sourceByte_ram (s : State) (fromFlash : Bool) (a : Word) : (s.sourceByte fromFlash a).2.ram = s.ram := by
  unfold State.sourceByte; split; exact State.flashReadByte_ram s a.toNat; rfl
@[simp] theorem State.sourceByte_lockBits (s : State) (fromFlash : Bool) (a : Word) : (s.sourceByte fromFlash a).2.lockBits = s.lockBits := by
  unfold State.sourceByte; split; exact State.flashReadByte_lockBits s a.toNat; rfl
@[simp] theorem State.sourceByte_fuseLow (s : State) (fromFlash : Bool) (a : Word) : (s.sourceByte fromFlash a).2.fuseLow = s.fuseLow := by
  unfold State.sourceByte; split; exact State.flashReadByte_fuseLow s a.toNat; rfl
@[simp] theorem State.sourceByte_fuseHigh (s : State) (fromFlash : Bool) (a : Word) : (s.sourceByte fromFlash a).2.fuseHigh = s.fuseHigh := by
  unfold State.sourceByte; split; exact State.flashReadByte_fuseHigh s a.toNat; rfl
@[simp] theorem State.sourceByte_fuseExt (s : State) (fromFlash : Bool) (a : Word) : (s.sourceByte fromFlash a).2.fuseExt = s.fuseExt := by
  unfold State.sourceByte; split; exact State.flashReadByte_fuseExt s a.toNat; rfl
@[simp] theorem State.sourceByte_desc (s : State) (fromFlash : Bool) (a : Word) : (s.sourceByte fromFlash a).2.desc = s.desc := by
  unfold State.sourceByte; split; exact State.flashReadByte_desc s a.toNat; rfl
@[simp] theorem State.sourceByte_led (s : State) (fromFlash : Bool) (a : Word) : (s.sourceByte fromFlash a).2.led = s.led := by
  unfold State.sourceByte; split; exact State.flashReadByte_led s a.toNat; rfl
@[simp] theorem State.sourceByte_wdtReset (s : State) (fromFlash : Bool) (a : Word) : (s.sourceByte fromFlash a).2.wdtReset = s.wdtReset := by
  unfold State.sourceByte; split; exact State.flashReadByte_wdtReset s a.toNat; rfl
@[simp] theorem State.sourceByte_wdtEnable (s : State) (fromFlash : Bool) (a : Word) : (s.sourceByte fromFlash a).2.wdtEnable = s.wdtEnable := by
  unfold State.sourceByte; split; exact State.flashReadByte_wdtEnable s a.toNat; rfl
@[simp] theorem State.sourceByte_env (s : State) (fromFlash : Bool) (a : Word) : (s.sourceByte fromFlash a).2.env = s.env := by
  unfold State.sourceByte; split; exact State.flashReadByte_env s a.toNat; rfl
@[simp] theorem State.sourceByte_tx (s : State) (fromFlash : Bool) (a : Word) : (s.sourceByte fromFlash a).2.tx = s.tx := by
  unfold State.sourceByte; split; exact State.flashReadByte_tx s a.toNat; rfl

/-! ## `appPresent`: the fields it never writes -/

@[simp] theorem State.appPresent_cfg (s : State) : s.appPresent.2.cfg = s.cfg := by simp [State.appPresent]
@[simp] theorem State.appPresent_currentAddress (s : State) : s.appPresent.2.currentAddress = s.currentAddress := by simp [State.appPresent]
@[simp] theorem State.appPresent_eraseFrontier (s : State) : s.appPresent.2.eraseFrontier = s.eraseFrontier := by simp [State.appPresent]
@[simp] theorem State.appPresent_totalUploadSize (s : State) : s.appPresent.2.totalUploadSize = s.totalUploadSize := by simp [State.appPresent]
@[simp] theorem State.appPresent_bytesTransferred (s : State) : s.appPresent.2.bytesTransferred = s.bytesTransferred := by simp [State.appPresent]
@[simp] theorem State.appPresent_operationKind (s : State) : s.appPresent.2.operationKind = s.operationKind := by simp [State.appPresent]
@[simp] theorem State.appPresent_phase (s : State) : s.appPresent.2.phase = s.phase := by simp [State.appPresent]
@[simp] theorem State.appPresent_fstate (s : State) : s.appPresent.2.fstate = s.fstate := by simp [State.appPresent]
@[simp] theorem State.appPresent_seq (s : State) : s.appPresent.2.seq = s.seq := by simp [State.appPresent]
@[simp] theorem State.appPresent_len (s : State) : s.appPresent.2.len = s.len := by simp [State.appPresent]
@[simp] theorem State.appPresent_idx (s : State) : s.appPresent.2.idx = s.idx := by simp [State.appPresent]
@[simp] theorem State.appPresent_cksum (s : State) : s.appPresent.2.cksum = s.cksum := by simp [State.appPresent]
@[simp] theorem State.appPresent_msg (s : State) : s.appPresent.2.msg = s.msg := by simp [State.appPresent]
@[simp] theorem State.appPresent_exitFlag (s : State) : s.appPresent.2.exitFlag = s.exitFlag := by simp [State.appPresent]
@[simp] theorem State.appPresent_pbuf (s : State) : s.appPresent.2.pbuf = s.pbuf := by simp [State.appPresent]
@[simp] theorem State.appPresent_rwwBlocked (s : State) : s.appPresent.2.rwwBlocked = s.rwwBlocked := by simp [State.appPresent]
@[simp] theorem State.appPresent_flash (s : State) : s.appPresent.2.flash = s.flash := by simp [State.appPresent]
@[simp] theorem State.appPresent_eeprom (s : State) : s.appPresent.2.eeprom = s.eeprom := by simp [State.appPresent]
@[simp] theorem State.appPresent_ram (s : State) : s.appPresent.2.ram = s.ram := by simp [State.appPresent]
@[simp] theorem State.appPresent_lockBits (s : State) : s.appPresent.2.lockBits = s.lockBits := by simp [State.appPresent]
@[simp] theorem State.appPresent_fuseLow (s : State) : s.appPresent.2.fuseLow = s.fuseLow := by simp [State.appPresent]
@[simp] theorem State.appPresent_fuseHigh (s : State) : s.appPresent.2.fuseHigh = s.fuseHigh := by simp [State.appPresent]
@[simp] theorem State.appPresent_fuseExt (s : State) : s.appPresent.2.fuseExt = s.fuseExt := by simp [State.appPresent]
@[simp] theorem State.appPresent_desc (s : State) : s.appPresent.2.desc = s.desc := by simp [State.appPresent]
@[simp] theorem State.appPresent_led (s : State) : s.appPresent.2.led = s.led := by simp [State.appPresent]
@[simp] theorem State.appPresent_wdtReset (s : State) : s.appPresent.2.wdtReset = s.wdtReset := by simp [State.appPresent]
@[simp] theorem State.appPresent_wdtEnable (s : State) : s.appPresent.2.wdtEnable = s.wdtEnable := by simp [State.appPresent]
@[simp] theorem State.appPresent_env (s : State) : s.appPresent.2.env = s.env := by simp [State.appPresent]
@[simp] theorem State.appPresent_tx (s : State) : s.appPresent.2.tx = s.tx := by simp [State.appPresent]

end Sys2Proof.Machine
end

