-- ==== Sys2Proof/Laws/Ops.lean ====
section
/-! SUPPORT. For each shared operation, one lemma that says once everything it can do. -/

namespace Sys2Proof.Machine

/-! ## Addresses -/

@[simp] theorem AddrWidth.bits_w16 : AddrWidth.bits .w16 = 16 := rfl

@[simp] theorem AddrWidth.bits_w32 : AddrWidth.bits .w32 = 32 := rfl

/-- `trunc_ADDR_W` is the remainder modulo `2 ^ ADDR_W`. -/
@[simp] theorem truncAddr_toNat (c : Config) (a : Word) : (truncAddr c a).toNat = a.toNat % 2 ^ c.addrWidth.bits := by
  have := a.isLt
  cases h : c.addrWidth
  · simp only [truncAddr, h, BitVec.toNat_setWidth, AddrWidth.bits_w16]; omega
  · simp only [truncAddr, h, AddrWidth.bits_w32]; omega

theorem truncAddr_lt (c : Config) (a : Word) : (truncAddr c a).toNat < 2 ^ c.addrWidth.bits := by
  rw [truncAddr_toNat]; exact Nat.mod_lt _ (Nat.two_pow_pos _)

theorem bits_le (w : AddrWidth) : w.bits ≤ 32 := by cases w <;> decide

theorem two_pow_bits_dvd (w : AddrWidth) : 2 ^ w.bits ∣ 2 ^ 32 := Nat.pow_dvd_pow 2 (bits_le w)

/-- Advancing an address is addition modulo `2 ^ ADDR_W`. -/
theorem truncAddr_add_toNat (c : Config) (a n : Word) :
    (truncAddr c (a + n)).toNat = (a.toNat + n.toNat) % 2 ^ c.addrWidth.bits := by
  rw [truncAddr_toNat, BitVec.toNat_add, Nat.mod_mod_of_dvd _ (two_pow_bits_dvd _)]

theorem truncAddr_add_add (c : Config) (a m n : Word) : truncAddr c (truncAddr c (a + m) + n) = truncAddr c (a + (m + n)) := by
  apply BitVec.eq_of_toNat_eq
  rw [truncAddr_add_toNat, truncAddr_add_toNat, truncAddr_add_toNat, Nat.mod_add_mod, BitVec.toNat_add]
  rw [← Nat.add_mod_mod, ← Nat.add_mod_mod (a.toNat) _ (2 ^ _), Nat.mod_mod_of_dvd _ (two_pow_bits_dvd _),
    Nat.add_mod_mod, Nat.add_mod_mod, Nat.add_assoc]

theorem pageOf_le (c : Config) (a : Nat) : pageOf c a ≤ a := Nat.sub_le _ _

theorem pageOf_mod (c : Config) (a : Nat) : pageOf c a % c.pageSize = 0 := by
  have h : pageOf c a = c.pageSize * (a / c.pageSize) := by
    have := Nat.div_add_mod a c.pageSize; unfold pageOf; omega
  rw [h, Nat.mul_mod_right]

theorem pageOf_add_mod (c : Config) (a : Nat) : pageOf c a + a % c.pageSize = a := by
  have := Nat.mod_le a c.pageSize; unfold pageOf; omega

theorem lt_pageOf_add {c : Config} (h : 0 < c.pageSize) (a : Nat) : a < pageOf c a + c.pageSize := by
  have := pageOf_add_mod c a; have := Nat.mod_lt a h; omega

theorem pageOf_of_aligned {c : Config} {a : Nat} (h : a % c.pageSize = 0) : pageOf c a = a := by
  simp [pageOf, h]

/-- A page that starts below a page-aligned bound ends at or below it. -/
theorem page_end_le {p a b : Nat} (ha : a % p = 0) (hb : b % p = 0) (h : a < b) : a + p ≤ b := by
  obtain ⟨x, rfl⟩ := Nat.dvd_of_mod_eq_zero ha
  obtain ⟨y, rfl⟩ := Nat.dvd_of_mod_eq_zero hb
  have : x < y := Nat.lt_of_mul_lt_mul_left h
  calc p * x + p = p * (x + 1) := by ring
    _ ≤ p * y := Nat.mul_le_mul_left p this

/-- The page of an address below the boundary ends at or below it. -/
theorem pageOf_add_le {c : Config} (hc : c.Wf) {a : Nat} (h : a < c.boundary) : pageOf c a + c.pageSize ≤ c.boundary :=
  page_end_le (pageOf_mod c a) hc.2.2.2.1 (Nat.lt_of_le_of_lt (pageOf_le c a) h)

theorem pageSize_even {c : Config} (hc : c.Wf) : c.pageSize % 2 = 0 := by
  obtain ⟨h2, hp, _⟩ := hc
  have : Nat.log2 c.pageSize ≠ 0 := by
    intro h; rw [h] at hp; omega
  obtain ⟨k, hk⟩ := Nat.exists_eq_succ_of_ne_zero this
  rw [← hp, hk, Nat.pow_succ]; omega

theorem pageSize_dvd {c : Config} (hc : c.Wf) : c.pageSize ∣ 2 ^ c.addrWidth.bits := by
  obtain ⟨h2, hp, _, hb, hb0, _, hlt, _⟩ := hc
  have hle : c.pageSize ≤ c.boundary := Nat.le_of_dvd hb0 (Nat.dvd_of_mod_eq_zero hb)
  rw [← hp]
  apply Nat.pow_dvd_pow
  by_contra h
  have : 2 ^ c.addrWidth.bits ≤ 2 ^ Nat.log2 c.pageSize := Nat.pow_le_pow_right (by decide) (by omega)
  omega

/-! ## The reply -/

@[simp] theorem overlay_length (m : List Byte) (i : Nat) (bs : List Byte) : (overlay m i bs).length = m.length := by
  induction bs generalizing m i with
  | nil => rfl
  | cons b bs ih => simp [overlay, ih]

/-- Overlaying bytes that fit replaces exactly them. -/
theorem overlay_eq {m bs : List Byte} {i : Nat} (h : i + bs.length ≤ m.length) :
    overlay m i bs = m.take i ++ bs ++ m.drop (i + bs.length) := by
  induction bs generalizing m i with
  | nil => simp [overlay]
  | cons b bs ih =>
    simp only [List.length_cons] at h
    rw [overlay, ih (by simp only [List.length_set]; omega)]
    have hi : i < m.length := by omega
    rw [List.take_succ_eq_append_getElem (by simp only [List.length_set]; omega), List.take_set_of_le (Nat.le_refl i),
      List.getElem_set_self, List.drop_set_of_lt (by omega)]
    simp only [List.append_assoc, List.cons_append, List.nil_append, List.length_cons]
    rw [show i + 1 + bs.length = i + (bs.length + 1) by omega]

/-- A reply that fits. -/
theorem reply_next {s : State} {body : List Byte} (hm : s.msg.length = s.cfg.msgBufSize)
    (h : 1 + body.length ≤ s.cfg.msgBufSize) : s.reply body = .next (s.withReply body) := by
  rw [State.reply, if_pos h, State.withReply, overlay_eq (by omega)]

/-- A reply that does not fit. -/
theorem reply_fault {s : State} {body : List Byte} (h : s.cfg.msgBufSize < 1 + body.length) :
    s.reply body = .fault .msgIndexOutOfRange := by
  rw [State.reply, if_neg (by omega)]

/-- Everything a reply that answers can do: only the buffer and the length change. -/
theorem reply_cases {s t : State} {body : List Byte} (h : s.reply body = .next t) :
    1 + body.length ≤ s.cfg.msgBufSize ∧
      t = { s with msg := overlay s.msg 1 body, len := BitVec.ofNat 16 (1 + body.length) } := by
  unfold State.reply at h
  split at h
  · exact ⟨‹_›, by simpa using h.symm⟩
  · cases h

/-! ## Flash -/

/-- What a page erase leaves at each address. -/
theorem pageErase_read {s : State} (h : s.flash.wf) (a x : Nat) :
    (s.pageErase a).flash.read x =
      if pageOf s.cfg a ≤ x ∧ x < pageOf s.cfg a + s.cfg.pageSize then s.cfg.erasedByte else s.flash.read x := by
  rw [State.pageErase_flash, Memory.read_writeBytes h, List.length_replicate]
  split
  · have : x - pageOf s.cfg a < s.cfg.pageSize := by omega
    simp [List.getD_eq_getElem?_getD, this]
  · rfl

@[simp] theorem mergedPage_length (s : State) (base : Nat) : (s.mergedPage base).length = s.cfg.pageSize := by
  simp [State.mergedPage]

/-- What a page write leaves at each address. -/
theorem pageWrite_read {s : State} (h : s.flash.wf) (a x : Nat) :
    (s.pageWrite a).flash.read x =
      if pageOf s.cfg a ≤ x ∧ x < pageOf s.cfg a + s.cfg.pageSize then
        s.flash.read x &&& s.pbuf.getD (x - pageOf s.cfg a) s.cfg.erasedByte
      else s.flash.read x := by
  rw [State.pageWrite_flash, Memory.read_writeBytes h, mergedPage_length]
  split
  · have h1 : x - pageOf s.cfg a < s.cfg.pageSize := by omega
    have h2 : pageOf s.cfg a + (x - pageOf s.cfg a) = x := by omega
    simp [State.mergedPage, List.getD_eq_getElem?_getD, h1, h2]
  · rfl

theorem pageErase_flash_wf {s : State} (h : s.flash.wf) (a : Nat) : (s.pageErase a).flash.wf :=
  Memory.writeBytes_wf h _ _

theorem pageWrite_flash_wf {s : State} (h : s.flash.wf) (a : Nat) : (s.pageWrite a).flash.wf :=
  Memory.writeBytes_wf h _ _

/-- A read of flash leaves a state that differs in the free-value counter only. -/
theorem flashReadByte_state (s : State) (a : Nat) :
    ∃ k, (s.flashReadByte a).2 = { s with freeCount := k } := by
  unfold State.flashReadByte
  split
  · exact ⟨_, rfl⟩
  · exact ⟨s.freeCount, rfl⟩

/-- A flash read outside the blocked region. -/
theorem flashReadByte_open {s : State} {a : Nat} (h : s.rwwBlocked = false ∨ s.cfg.boundary ≤ flashIndex s.cfg a) :
    s.flashReadByte a = (s.flash.read (flashIndex s.cfg a), s) := by
  have : s.readBlocked a = false := by
    unfold State.readBlocked
    rcases h with h | h
    · simp [h]
    · simp [Nat.not_lt.2 h]
  simp [State.flashReadByte, this]

/-- Everything a page fill can do: the buffer and the free-value counter. -/
theorem pageFill_state (s : State) (a : Nat) (lo hi : Byte) :
    ∃ p k, s.pageFill a lo hi = { s with pbuf := p, freeCount := k } := by
  unfold State.pageFill State.freePbuf
  split
  · exact ⟨_, s.freeCount, rfl⟩
  · exact ⟨_, _, rfl⟩

/-- Everything the fill loop of Program flash can do, and where it leaves the address. -/
theorem fillWords_state (data : List Byte) (s : State) :
    ∃ p k, fillWords data s =
      { s with
        pbuf := p
        freeCount := k
        currentAddress := if data.length < 2 then s.currentAddress
          else truncAddr s.cfg (s.currentAddress + BitVec.ofNat 32 (2 * (data.length / 2))) } := by
  induction data using List.twoStepInduction generalizing s with
  | nil => exact ⟨s.pbuf, s.freeCount, rfl⟩
  | singleton b => exact ⟨s.pbuf, s.freeCount, rfl⟩
  | cons_cons lo hi rest ih _ =>
    obtain ⟨p, k, h⟩ := pageFill_state s s.currentAddress.toNat lo hi
    obtain ⟨p', k', h'⟩ := ih ((s.pageFill s.currentAddress.toNat lo hi).advance 2)
    refine ⟨p', k', ?_⟩
    rw [fillWords, h', h]
    have h2 : ¬ (lo :: hi :: rest).length < 2 := by simp
    rw [if_neg h2]
    simp only [State.advance, List.length_cons]
    by_cases hr : rest.length < 2
    · have : 2 * ((rest.length + 1 + 1) / 2) = 2 := by omega
      simp [hr, this]
    · rw [if_neg hr, truncAddr_add_add]
      have : BitVec.ofNat 32 (2 * ((rest.length + 1 + 1) / 2)) = 2 + BitVec.ofNat 32 (2 * (rest.length / 2)) := by
        rw [show 2 * ((rest.length + 1 + 1) / 2) = 2 + 2 * (rest.length / 2) by omega, BitVec.ofNat_add]; rfl
      rw [this]

/-- Everything the copy loop of the replay can do. -/
theorem copyWords_state (fromFlash isOpen : Bool) (k : Nat) (d a : Word) (s : State) :
    ∃ p n, copyWords fromFlash isOpen k d a s = { s with pbuf := p, freeCount := n } := by
  induction k generalizing d a s with
  | zero => exact ⟨s.pbuf, s.freeCount, rfl⟩
  | succ k ih =>
    have hs : ∀ (u : State) (x : Word), ∃ n, (u.sourceByte fromFlash x).2 = { u with freeCount := n } := by
      intro u x
      unfold State.sourceByte
      split
      · exact flashReadByte_state u x.toNat
      · exact ⟨u.freeCount, rfl⟩
    obtain ⟨n1, h1⟩ := hs s a
    obtain ⟨n2, h2⟩ := hs (s.sourceByte fromFlash a).2 (a + 1)
    simp only [copyWords]
    cases isOpen
    · obtain ⟨p, n, h⟩ := ih (d + 2) (a + 2) ((s.sourceByte fromFlash a).2.sourceByte fromFlash (a + 1)).2
      refine ⟨p, n, ?_⟩
      simp only [Bool.false_eq_true, if_false]
      rw [h, h2, h1]
    · simp only [if_true]
      obtain ⟨p3, n3, h3⟩ := pageFill_state ((s.sourceByte fromFlash a).2.sourceByte fromFlash (a + 1)).2 d.toNat
        (s.sourceByte fromFlash a).1 ((s.sourceByte fromFlash a).2.sourceByte fromFlash (a + 1)).1
      obtain ⟨p, n, h⟩ := ih (d + 2) (a + 2) _
      refine ⟨p, n, ?_⟩
      rw [h, h3, h2, h1]

end Sys2Proof.Machine
end

