-- ==== Sys2Proof/Laws/Framer.lean ====
section
/-! SUPPORT. What the frame decoder and the reply framer leave alone, and one received byte as one step. -/

namespace Sys2Proof.Machine

/-- Everything one received byte can do: the decoder's registers and the buffer (40_framer R100). -/
theorem decodeByte_state (s : State) (b : Byte) : ∃ f q l i k m,
    s.decodeByte b = { s with fstate := f, seq := q, len := l, idx := i, cksum := k, msg := m } := by
  cases h : s.fstate <;> simp only [State.decodeByte, h] <;> (try split) <;> exact ⟨_, _, _, _, _, _, rfl⟩

@[simp] theorem decodeByte_cfg (s : State) (b : Byte) : (s.decodeByte b).cfg = s.cfg := by
  obtain ⟨_, _, _, _, _, _, h⟩ := decodeByte_state s b
  rw [h]

@[simp] theorem decodeByte_phase (s : State) (b : Byte) : (s.decodeByte b).phase = s.phase := by
  obtain ⟨_, _, _, _, _, _, h⟩ := decodeByte_state s b
  rw [h]

@[simp] theorem decodeByte_env (s : State) (b : Byte) : (s.decodeByte b).env = s.env := by
  obtain ⟨_, _, _, _, _, _, h⟩ := decodeByte_state s b
  rw [h]

@[simp] theorem decodeByte_tx (s : State) (b : Byte) : (s.decodeByte b).tx = s.tx := by
  obtain ⟨_, _, _, _, _, _, h⟩ := decodeByte_state s b
  rw [h]

/-- The decoder does not look at the events that are still to come. -/
theorem decodeByte_with_env (s : State) (b : Byte) (e : List Event) :
    { s with env := e }.decodeByte b = { s.decodeByte b with env := e } := by
  cases h : s.fstate <;> simp only [State.decodeByte, h] <;> (try split) <;> simp_all

/-- `Process` takes no byte (40_framer R109). -/
theorem decodeByte_of_process {s : State} (h : s.fstate = .process) (b : Byte) : s.decodeByte b = s := by
  simp only [State.decodeByte, h]

@[simp] theorem receive_nil (s : State) : s.receive [] = s := rfl

@[simp] theorem receive_cons (s : State) (b : Byte) (bs : List Byte) :
    s.receive (b :: bs) = (s.decodeByte b).receive bs := rfl

theorem receive_append (s : State) (a b : List Byte) : s.receive (a ++ b) = (s.receive a).receive b := by
  simp [State.receive]

theorem receive_of_process {s : State} (h : s.fstate = .process) (bs : List Byte) : s.receive bs = s := by
  induction bs with
  | nil => rfl
  | cons b bs ih => rw [receive_cons, decodeByte_of_process h, ih]

theorem receive_with_env (s : State) (bs : List Byte) (e : List Event) :
    { s with env := e }.receive bs = { s.receive bs with env := e } := by
  induction bs generalizing s with
  | nil => rfl
  | cons b bs ih => rw [receive_cons, receive_cons, decodeByte_with_env, ih]

/-- A byte that waits in the loop is the decoder's next input (40_framer R101). -/
theorem step_of_byte {s : State} {b : Byte} {rest : List Event} (hp : s.phase = .loop) (hf : s.fstate ≠ .process)
    (he : s.env = .byte b :: rest) : step s = .next { s.decodeByte b with env := rest } := by
  have h : step s = loopStep s := by simp only [step, hp]
  rw [h, ← decodeByte_with_env]
  simp only [loopStep, he, if_neg hf]
  rfl

/-- Everything `Process` does after the handler (40_framer R109, R119): the transmit stream, the restart, the exit. -/
theorem finishCommand_eq (s : State) :
    s.finishCommand =
      { s with
        tx := s.tx ++ frame s.cfg s.seq s.len (s.msg.take s.len.toNat)
        fstate := .awaitStart
        led := if s.exitFlag then false else s.led
        phase := if s.exitFlag then .handedOff else s.phase } := by
  simp only [State.finishCommand, State.sendReply]
  split <;> simp_all [State.exitToApplication, State.handoff]

end Sys2Proof.Machine
end

