-- ==== Sys2Proof/Laws/Boot.lean ====
section
/-! SUPPORT. What the first byte, a step after the hand-off and the application's run before a reset can do. -/

namespace Sys2Proof.Machine

/-- Everything the first byte can do (70_reset R270, R271): the indicator takes a free value. -/
theorem enterLoop_eq (s : State) (c : Byte) :
    s.enterLoop c =
      { s with
        phase := .loop
        led := Config.freeBit s.freeCount
        freeCount := s.freeCount + 1
        cksum := if c = s.cfg.start then c else s.cksum
        fstate := if c = s.cfg.start then .awaitSequence else .awaitStart } := by
  simp only [State.enterLoop, State.decodeByte]
  split <;> rfl

/-- Everything a step in `HandedOff` can do (70_reset R267, R275): an event passes, or a reset restarts the block. -/
theorem handedOffStep_cases {s t : State} (h : handedOffStep s = .next t) :
    ∃ e rest, s.env = e :: rest ∧
      ((e.resetCause = none ∧ t = { s with env := rest }) ∨
        ∃ cause, e.resetCause = some cause ∧
          t = ({ s with env := rest }.runApplication e.applicationEffects).afterReset cause) := by
  unfold handedOffStep at h
  split at h
  · cases h
  · refine ⟨_, _, ‹_›, ?_⟩
    split at h <;> cases h
    · exact .inr ⟨_, ‹_›, rfl⟩
    · exact .inl ⟨‹_›, rfl⟩

@[simp] theorem runApplication_nil (s : State) : s.runApplication [] = s := rfl

@[simp] theorem runApplication_cons (s : State) (x : ApplicationEffect) (did : List ApplicationEffect) :
    s.runApplication (x :: did) = (s.applicationEffect x).runApplication did := rfl

theorem runApplication_append (s : State) (a b : List ApplicationEffect) :
    s.runApplication (a ++ b) = (s.runApplication a).runApplication b := by
  simp [State.runApplication]

/-- Everything one effect of the application can do (00_scope R5). -/
theorem applicationEffect_state (s : State) (x : ApplicationEffect) : ∃ d r f e v,
    s.applicationEffect x = { s with desc := d, ram := r, flash := f, eeprom := e, lockBits := s.lockBits &&& v } := by
  have keep : s.lockBits = s.lockBits &&& BitVec.allOnes 8 := BitVec.and_allOnes.symm
  cases x with
  | descriptor d => exact ⟨d, s.ram, s.flash, s.eeprom, BitVec.allOnes 8, by rw [← keep]; rfl⟩
  | ram a b => exact ⟨s.desc, s.ram.write a.toNat b, s.flash, s.eeprom, BitVec.allOnes 8, by rw [← keep]; rfl⟩
  | flash a b =>
    exact ⟨s.desc, s.ram, s.flash.write (flashIndex s.cfg a.toNat) b, s.eeprom, BitVec.allOnes 8,
      by rw [← keep]; rfl⟩
  | eeprom a b =>
    exact ⟨s.desc, s.ram, s.flash, s.eeprom.write (eepromIndex s.cfg a) b, BitVec.allOnes 8, by rw [← keep]; rfl⟩
  | lockBits v => exact ⟨s.desc, s.ram, s.flash, s.eeprom, ~~~v, rfl⟩

/-- Everything a run of the application can do (00_scope R5). -/
theorem runApplication_state (s : State) (did : List ApplicationEffect) : ∃ d r f e v,
    s.runApplication did = { s with desc := d, ram := r, flash := f, eeprom := e, lockBits := s.lockBits &&& v } := by
  induction did generalizing s with
  | nil =>
    exact ⟨s.desc, s.ram, s.flash, s.eeprom, BitVec.allOnes 8, by rw [BitVec.and_allOnes, runApplication_nil]⟩
  | cons x did ih =>
    obtain ⟨d, r, f, e, v, h⟩ := applicationEffect_state s x
    obtain ⟨d', r', f', e', v', h'⟩ := ih (s.applicationEffect x)
    exact ⟨d', r', f', e', v &&& v', by rw [runApplication_cons, h', h, BitVec.and_assoc]⟩

/-- The application's run keeps the canonical form of the memories and the bounds of the arrays. -/
theorem runApplication_wf {s : State} (hc : s.cfg.Wf) (hf : s.flash.wf) (hfw : s.flash.within s.cfg.flashSize)
    (he : s.eeprom.wf) (hew : s.eeprom.within s.cfg.eepromSize) (hr : s.ram.wf) (did : List ApplicationEffect) :
    (s.runApplication did).flash.wf ∧ (s.runApplication did).flash.within s.cfg.flashSize ∧
      (s.runApplication did).eeprom.wf ∧ (s.runApplication did).eeprom.within s.cfg.eepromSize ∧
      (s.runApplication did).ram.wf := by
  induction did generalizing s with
  | nil => exact ⟨hf, hfw, he, hew, hr⟩
  | cons x did ih =>
    have ⟨_, _, _, _, h0, hle, _, h0e, _⟩ := hc
    cases x with
    | descriptor d => exact ih hc hf hfw he hew hr
    | ram a b => exact ih hc hf hfw he hew (Memory.write_wf hr _ _)
    | flash a b =>
      exact ih hc (Memory.write_wf hf _ _) (Memory.write_within hfw (Nat.mod_lt _ (Nat.lt_of_lt_of_le h0 hle)) b) he
        hew hr
    | eeprom a b =>
      exact ih hc hf hfw (Memory.write_wf he _ _) (Memory.write_within hew (Nat.mod_lt _ h0e) b) hr
    | lockBits v => exact ih hc hf hfw he hew hr

/-- A flash byte that no effect of the application names is as it was. -/
theorem runApplication_flash_read {s : State} (hf : s.flash.wf) {did : List ApplicationEffect} {x : Nat}
    (h : ∀ a b, .flash a b ∈ did → flashIndex s.cfg a.toNat ≠ x) :
    (s.runApplication did).flash.read x = s.flash.read x := by
  induction did generalizing s with
  | nil => rfl
  | cons y did ih =>
    have ht : ∀ a b, .flash a b ∈ did → flashIndex s.cfg a.toNat ≠ x := fun a b hm => h a b (List.mem_cons_of_mem _ hm)
    cases y with
    | flash a b =>
      rw [runApplication_cons, ih (s := s.applicationEffect (.flash a b)) (Memory.write_wf hf _ _) ht]
      simp only [State.applicationEffect]
      rw [Memory.read_write hf, if_neg fun e => h a b List.mem_cons_self e.symm]
    | descriptor d => exact ih (s := s.applicationEffect (.descriptor d)) hf ht
    | ram a b => exact ih (s := s.applicationEffect (.ram a b)) hf ht
    | eeprom a b => exact ih (s := s.applicationEffect (.eeprom a b)) hf ht
    | lockBits v => exact ih (s := s.applicationEffect (.lockBits v)) hf ht

end Sys2Proof.Machine
end

