-- ==== Sys2Proof/Laws/Commands.lean ====
section
/-! SUPPORT. For each shared step of the program, read and replay commands, one lemma that says what it can change. -/

namespace Sys2Proof.Machine

/-- Everything the progress rules can do: the counter and the kind (44_cmd_program R184, 45_cmd_read R203). -/
theorem progress_eq (s : State) (kind : OperationKind) (a0 : Word) (size : Half) :
    s.progress kind a0 size =
      { s with
        bytesTransferred :=
          if s.totalUploadSize = 0 then s.bytesTransferred
          else if a0 = 0 then size.setWidth 32 else s.bytesTransferred + size.setWidth 32
        operationKind := if s.totalUploadSize ≠ 0 ∧ a0 = 0 then kind else s.operationKind } := by
  unfold State.progress
  by_cases h : s.totalUploadSize = 0
  · rw [if_pos h, if_pos h, if_neg fun x => x.1 h]
  · rw [if_neg h, if_neg h]
    by_cases ha : a0 = 0
    · rw [if_pos ha, if_pos ha, if_pos ⟨h, ha⟩]
    · rw [if_neg ha, if_neg ha, if_neg fun x => ha x.2]

/-- Everything the erase-ahead can do (44_cmd_program R182). -/
theorem eraseAhead_eq (s : State) :
    s.eraseAhead =
      if s.eraseFrontier.toNat < s.cfg.boundary then
        { s with
          flash := s.flash.writeBytes (pageOf s.cfg s.eraseFrontier.toNat)
            (List.replicate s.cfg.pageSize s.cfg.erasedByte)
          rwwBlocked := true
          eraseFrontier := truncAddr s.cfg (s.eraseFrontier + BitVec.ofNat 32 s.cfg.pageSize) }
      else s := rfl

/-- Everything the byte loop of Program EEPROM can do (44_cmd_program R191). -/
theorem eeWriteBytes_state (bs : List Byte) (s : State) :
    ∃ e a, eeWriteBytes bs s = { s with eeprom := e, currentAddress := a } := by
  induction bs generalizing s with
  | nil => exact ⟨s.eeprom, s.currentAddress, rfl⟩
  | cons b bs ih =>
    obtain ⟨e, a, h⟩ := ih ((s.eeWrite (eepromAddress s.currentAddress) b).advance 2)
    exact ⟨e, a, h⟩

/-- The byte loop of Read flash gives as many bytes as asked (45_cmd_read R201). -/
@[simp] theorem flashReadBytes_length (n : Nat) (s : State) : (flashReadBytes n s).1.length = n := by
  induction n generalizing s with
  | zero => rfl
  | succ n ih => simp [flashReadBytes, ih]

/-- Everything the byte loop of Read flash can do: the address and the free-value counter (45_cmd_read R201). -/
theorem flashReadBytes_state (n : Nat) (s : State) :
    ∃ a k, (flashReadBytes n s).2 = { s with currentAddress := a, freeCount := k } := by
  induction n generalizing s with
  | zero => exact ⟨s.currentAddress, s.freeCount, rfl⟩
  | succ n ih =>
    obtain ⟨k, hk⟩ := flashReadByte_state s s.currentAddress.toNat
    obtain ⟨a, k', h⟩ := ih ((s.flashReadByte s.currentAddress.toNat).2.advance 1)
    refine ⟨a, k', ?_⟩
    simp only [flashReadBytes]
    rw [h, hk]
    rfl

/-- The byte loop of Read EEPROM gives as many bytes as asked (45_cmd_read R208). -/
@[simp] theorem eeReadBytes_length (n : Nat) (s : State) : (eeReadBytes n s).1.length = n := by
  induction n generalizing s with
  | zero => rfl
  | succ n ih => simp [eeReadBytes, ih]

/-- Everything the byte loop of Read EEPROM can do: the address (45_cmd_read R208). -/
theorem eeReadBytes_state (n : Nat) (s : State) : ∃ a, (eeReadBytes n s).2 = { s with currentAddress := a } := by
  induction n generalizing s with
  | zero => exact ⟨s.currentAddress, rfl⟩
  | succ n ih =>
    obtain ⟨a, h⟩ := ih (s.advance 2)
    exact ⟨a, h⟩

/-- Everything one page of the replay can do (46_self_update R218). -/
theorem replayPage_state (s : State) (flags : ReplayFlags) (d a : Word) (m : Nat) :
    ∃ f k, s.replayPage flags d a m =
      { s with flash := f, rwwBlocked := false, pbuf := emptyPbuf s.cfg, freeCount := k } := by
  unfold State.replayPage
  by_cases he : flags.eraseDestination && decide (pageOf s.cfg d.toNat < s.cfg.boundary)
  all_goals
    simp only [he, if_true, Bool.false_eq_true, if_false]
    by_cases hc : flags.copyData = true
    · simp only [hc, if_true]
      obtain ⟨p, n, h⟩ := copyWords_state flags.sourceIsProgramMemory (decide (pageOf s.cfg d.toNat < s.cfg.boundary))
        ((m + 1) / 2) d a (if flags.eraseDestination && decide (pageOf s.cfg d.toNat < s.cfg.boundary) then
          s.pageErase (pageOf s.cfg d.toNat) else s)
      simp only [he, if_true, Bool.false_eq_true, if_false] at h
      rw [h]
      split <;> exact ⟨_, _, rfl⟩
    · simp only [hc]
      exact ⟨_, _, rfl⟩

/-- Everything the page loop of the replay can do (46_self_update R218, R219): no register but the page buffer, the
read-while-write flag and the model's counter, no space but flash. -/
theorem replayPages_state (flags : ReplayFlags) (fuel : Nat) (d a : Word) (n : Nat) (s : State) :
    ∃ f r p k, replayPages flags fuel d a n s = { s with flash := f, rwwBlocked := r, pbuf := p, freeCount := k } := by
  induction fuel generalizing d a n s with
  | zero => exact ⟨s.flash, s.rwwBlocked, s.pbuf, s.freeCount, rfl⟩
  | succ fuel ih =>
    rw [replayPages]
    split
    · exact ⟨s.flash, s.rwwBlocked, s.pbuf, s.freeCount, rfl⟩
    · obtain ⟨f, k, h⟩ := replayPage_state s flags d a (spanInPage s.cfg d n)
      obtain ⟨f', r, p, k', h'⟩ := ih (d + destinationStep flags (spanInPage s.cfg d n))
        (a + sourceStep flags (spanInPage s.cfg d n)) (n - spanInPage s.cfg d n)
        (s.replayPage flags d a (spanInPage s.cfg d n))
      refine ⟨f', r, p, k', ?_⟩
      simp only
      rw [h', h]

/-! ## A reset inside a command -/

/-- Everything a reset does, but for the phase and the reset values themselves: what it keeps (10_state R39). -/
theorem afterReset_keeps (s : State) (cause : ResetCause) :
    (s.afterReset cause).cfg = s.cfg ∧ (s.afterReset cause).flash = s.flash ∧ (s.afterReset cause).eeprom = s.eeprom ∧
      (s.afterReset cause).lockBits = s.lockBits ∧ (s.afterReset cause).fuseLow = s.fuseLow ∧
      (s.afterReset cause).fuseHigh = s.fuseHigh ∧ (s.afterReset cause).fuseExt = s.fuseExt ∧
      (s.afterReset cause).tx = s.tx ∧ (s.afterReset cause).env = s.env ∧
      (s.afterReset cause).freeCount = s.freeCount := by
  unfold State.afterReset
  split <;> exact ⟨rfl, rfl, rfl, rfl, rfl, rfl, rfl, rfl, rfl, rfl⟩

/-- Everything a replay cut short in a page can do (46_self_update R218). -/
theorem cutPages_state {flags : ReplayFlags} {fuel : Nat} {d a : Word} {n ops : Nat} {s t : State}
    (h : cutPages flags fuel d a n ops s = some t) :
    ∃ f r p k, t = { s with flash := f, rwwBlocked := r, pbuf := p, freeCount := k } := by
  induction fuel generalizing d a n ops s with
  | zero => simp [cutPages] at h
  | succ fuel ih =>
    rw [cutPages] at h
    split at h
    · cases h
    · simp only at h
      by_cases hc : ops < if pageOf s.cfg d.toNat < s.cfg.boundary then
          flags.eraseDestination.toNat + flags.copyData.toNat else 0
      · rw [if_pos hc] at h
        cases h
        exact ⟨_, s.rwwBlocked, s.pbuf, _, rfl⟩
      · rw [if_neg hc] at h
        obtain ⟨f, k, hp⟩ := replayPage_state s flags d a (spanInPage s.cfg d n)
        obtain ⟨f', r, p, k', rfl⟩ := ih h
        exact ⟨f', r, p, k', by rw [hp]⟩

/-- What a command cut short leaves alone, whichever it is: the configuration, the fuses, RAM, both streams, and the
mailbox's magic. -/
theorem cutCommand_keeps {i : Instr} {ops : Nat} {s t : State} (h : cutCommand i ops s = some t) :
    t.cfg = s.cfg ∧ t.fuseLow = s.fuseLow ∧ t.fuseHigh = s.fuseHigh ∧ t.fuseExt = s.fuseExt ∧ t.ram = s.ram ∧
      t.env = s.env ∧ t.tx = s.tx ∧ t.desc.magic = s.desc.magic := by
  cases i <;> simp only [cutCommand, reduceCtorEq] at h
  case programLock req =>
    unfold cutProgramLock at h
    split at h <;> cases h
    exact ⟨rfl, rfl, rfl, rfl, rfl, rfl, rfl, rfl⟩
  case programFlash size data =>
    unfold cutProgramFlash at h
    simp only at h
    split at h
    · cases h
      exact ⟨rfl, rfl, rfl, rfl, rfl, rfl, rfl, rfl⟩
    · obtain ⟨-, h⟩ := Option.ite_none_right_eq_some.1 h
      cases h
      simp
  case programEeprom size data =>
    unfold cutProgramEeprom at h
    split at h <;> cases h
    obtain ⟨e, a, he⟩ := eeWriteBytes_state (data.take ops) s
    rw [he]
    exact ⟨rfl, rfl, rfl, rfl, rfl, rfl, rfl, rfl⟩
  case selfUpdateReplay source destination size flags =>
    cases h
    unfold cutReplay
    split
    · exact ⟨rfl, rfl, rfl, rfl, rfl, rfl, rfl, rfl⟩
    · split
      · obtain ⟨f, r, p, k, rfl⟩ := cutPages_state ‹_›
        exact ⟨rfl, rfl, rfl, rfl, rfl, rfl, rfl, rfl⟩
      · obtain ⟨f, r, p, k, hr⟩ := replayPages_state flags size.toNat destination source size.toNat s
        rw [hr]
        exact ⟨rfl, rfl, rfl, rfl, rfl, rfl, rfl, rfl⟩

end Sys2Proof.Machine
end

