-- ==== Sys2Proof/Laws/Encoding.lean ====
section
/-! SUPPORT. The byte-order helpers put together what they took apart, and the list of recognised opcodes. -/

namespace Sys2Proof

/-- A 16-bit value is its two bytes (30_encoding R83, R86). -/
@[simp] theorem halfOf_byteOf (w : Half) : halfOf (byteOf w 1) (byteOf w 0) = w := by
  simp only [halfOf, byteOf]
  apply BitVec.eq_of_getLsbD_eq
  intro i hi
  simp only [BitVec.getLsbD_append, BitVec.getLsbD_extractLsb']
  by_cases h : i < 8
  · simp [h]
  · simp [h, show i - 8 < 8 by omega, show 8 + (i - 8) = i by omega]

/-- A 24-bit value is its three bytes (30_encoding R85). -/
@[simp] theorem tripleOf_byteOf (w : BitVec 24) : tripleOf (byteOf w 2) (byteOf w 1) (byteOf w 0) = w := by
  simp only [tripleOf, byteOf]
  apply BitVec.eq_of_getLsbD_eq
  intro i hi
  rw [BitVec.getLsbD_append, BitVec.getLsbD_append]
  simp only [BitVec.getLsbD_extractLsb']
  by_cases h : i < 8
  · simp only [h, show i < 8 + 8 by omega, if_true]; simp
  · by_cases h1 : i < 16
    · simp only [h, h1, show i - 8 < 8 by omega, if_true]
      simp [show 8 + (i - 8) = i by omega]
    · simp only [show ¬ i < 8 + 8 by omega, show i - (8 + 8) < 8 by omega]
      simp [show 16 + (i - 16) = i by omega]

/-- A 32-bit value is its four bytes (30_encoding R84). -/
@[simp] theorem wordOf_byteOf (w : Word) : wordOf (byteOf w 3) (byteOf w 2) (byteOf w 1) (byteOf w 0) = w := by
  simp only [wordOf, byteOf]
  apply BitVec.eq_of_getLsbD_eq
  intro i hi
  rw [BitVec.getLsbD_append, BitVec.getLsbD_append, BitVec.getLsbD_append]
  simp only [BitVec.getLsbD_extractLsb']
  by_cases h : i < 8
  · simp only [h, show i < 8 + 8 by omega, show i < 8 + (8 + 8) by omega, if_true]; simp
  · by_cases h1 : i < 16
    · simp only [h, h1, show i - 8 < 8 by omega, show i < 8 + (8 + 8) by omega, if_true]
      simp [show 8 + (i - 8) = i by omega]
    · by_cases h2 : i < 24
      · simp only [show ¬ i < 8 + 8 by omega, show i - (8 + 8) < 8 by omega, show i < 8 + (8 + 8) by omega, if_true]
        simp [show 16 + (i - 16) = i by omega]
      · simp only [show ¬ i < 8 + (8 + 8) by omega, show i - (8 + (8 + 8)) < 8 by omega]
        simp [show 24 + (i - 24) = i by omega]

/-- The length as the decoder assembles it: the high byte, then the low byte or-ed in (40_framer R104, R105). -/
theorem halfOf_or_byteOf (l : Half) : halfOf (byteOf l 1) 0 ||| (byteOf l 0).setWidth 16 = l := by
  simp only [halfOf, byteOf]
  apply BitVec.eq_of_getLsbD_eq
  intro i hi
  simp only [BitVec.getLsbD_or, BitVec.getLsbD_append, BitVec.getLsbD_extractLsb', BitVec.getLsbD_setWidth]
  by_cases h : i < 8
  · simp [h]; omega
  · simp [h, hi, show 8 + (i - 8) = i by omega, show i - 8 < 8 by omega]

/-- The high length byte as R104 writes it. -/
theorem halfOf_zero (b : Byte) : halfOf b 0 = b.setWidth 16 <<< 8 := by revert b; decide

/-- The opcodes the dispatcher compares, one by one (30_encoding R80). -/
theorem mem_recognised (c : Config) (op : Byte) : op ∈ c.recognised ↔
    op = c.opcodes.signOn ∨ op = c.opcodes.getParameter ∨ op = c.opcodes.enterProgmode ∨
    op = c.opcodes.leaveProgmode ∨ op = c.opcodes.setParameter ∨ op = c.opcodes.readSignature ∨
    op = c.opcodes.readLock ∨ op = c.opcodes.readFuse ∨ op = c.opcodes.programLock ∨ op = c.opcodes.chipErase ∨
    op = c.opcodes.loadAddress ∨ op = c.opcodes.setUploadSize ∨ op = c.opcodes.programFlash ∨
    op = c.opcodes.programEeprom ∨ op = c.opcodes.readFlash ∨ op = c.opcodes.readEeprom ∨
    (op = c.opcodes.spiMulti ∧ c.spiMultiPresent = true) := by
  unfold Config.recognised
  split <;> simp [Opcodes.toList, *]

/-- What a flags byte stands for is what it was made from, for a layout whose flag bits differ (46_self_update R229). -/
theorem flagsOfByte_flagsByte {l : MailboxLayout} (h : l.Wf) (f : ReplayFlags) : flagsOfByte l (flagsByte l f) = f := by
  obtain ⟨_, hn, h1, h2, h3, h4⟩ := h
  simp only [List.nodup_cons, List.mem_cons, not_or, List.not_mem_nil, not_false_eq_true, and_true, List.nodup_nil] at hn
  obtain ⟨⟨a, b, c⟩, ⟨d, e⟩, g⟩ := hn
  have key : ∀ (p : Bool) (j k : Nat), j < 8 →
      (if p = true then 1#8 <<< k else 0#8).getLsbD j = (p && decide (j = k)) := by
    intro p j k hj
    cases p
    · simp
    · by_cases h : j = k
      · simp [h]
        omega
      · simp [hj, h]; omega
  cases f
  simp only [flagsOfByte, flagsByte, BitVec.getLsbD_or, BitVec.ofNat_eq_ofNat, key _ _ _ h1, key _ _ _ h2,
    key _ _ _ h3, key _ _ _ h4]
  simp [a, b, c, d, e, g, Ne.symm a, Ne.symm b, Ne.symm c, Ne.symm d, Ne.symm e, Ne.symm g]

namespace Machine

theorem storeCells_wf {ram : Memory} (h : ram.wf) (cs : List (Nat × Byte)) : (storeCells ram cs).wf := by
  induction cs generalizing ram with
  | nil => exact h
  | cons c cs ih => exact ih (Memory.write_wf h _ _)

/-- Cells at different addresses are read back as they were stored; every other byte is as before. -/
theorem storeCells_read {ram : Memory} (h : ram.wf) {cs : List (Nat × Byte)} (hn : (cs.map Prod.fst).Nodup) :
    (∀ a, a ∉ cs.map Prod.fst → (storeCells ram cs).read a = ram.read a) ∧
      ∀ c ∈ cs, (storeCells ram cs).read c.1 = c.2 := by
  induction cs generalizing ram with
  | nil => exact ⟨fun _ _ => rfl, by simp⟩
  | cons c cs ih =>
    simp only [List.map_cons, List.nodup_cons] at hn
    obtain ⟨i1, i2⟩ := ih (Memory.write_wf h c.1 c.2) hn.2
    have hs : storeCells ram (c :: cs) = storeCells (ram.write c.1 c.2) cs := rfl
    rw [hs]
    refine ⟨fun a ha => ?_, fun d hd => ?_⟩
    · simp only [List.map_cons, List.mem_cons, not_or] at ha
      rw [i1 a ha.2, Memory.read_write h, if_neg ha.1]
    · rcases List.mem_cons.1 hd with rfl | hd
      · rw [i1 d.1 hn.1, Memory.read_write h, if_pos rfl]
      · exact i2 d hd

end Machine

end Sys2Proof
end

