-- ==== Sys2Proof/Laws/PerInstr.lean ====
section
/-! SUPPORT. Statements made per command, for every constructor of `Instr`. -/

namespace Sys2Proof.Laws.EncodedLength

/-- A well-formed command's encoding has the least length of 30_encoding R92; the replay is encoded in the mailbox,
behind its magic (46_self_update R216). -/
def Statement (i : Instr) : Prop :=
  ∀ c : Config, i.operandsWf c = true →
    match encode c i with
    | .request p => p.length = i.leastLen ∧ 1 ≤ p.length
    | .mailbox d => d.magic = c.magic ∧ i.leastLen = 0

theorem signOn : Statement .signOn := fun _ _ => by simp [encode, Instr.leastLen]

theorem getParameter (id : Byte) : Statement (.getParameter id) := fun _ _ => by simp [encode, Instr.leastLen]

theorem enterProgmode : Statement .enterProgmode := fun _ _ => by simp [encode, Instr.leastLen]

theorem leaveProgmode : Statement .leaveProgmode := fun _ _ => by simp [encode, Instr.leastLen]

theorem setParameter : Statement .setParameter := fun _ _ => by simp [encode, Instr.leastLen]

theorem readSignature (index : Byte) : Statement (.readSignature index) := fun _ _ => by simp [encode, Instr.leastLen]

theorem readLock : Statement .readLock := fun _ _ => by simp [encode, Instr.leastLen]

theorem readFuse (sel0 sel1 : Byte) : Statement (.readFuse sel0 sel1) := fun _ _ => by simp [encode, Instr.leastLen]

theorem programLock (req : Byte) : Statement (.programLock req) := fun _ _ => by simp [encode, Instr.leastLen]

theorem chipErase : Statement .chipErase := fun _ _ => by simp [encode, Instr.leastLen]

theorem loadAddress (waddr : Word) : Statement (.loadAddress waddr) := fun _ _ => by simp [encode, Instr.leastLen]

theorem setUploadSize (total : BitVec 24) : Statement (.setUploadSize total) := fun _ _ => by simp [encode, Instr.leastLen]

theorem programFlash (size : Half) (data : List Byte) : Statement (.programFlash size data) := by
  intro c h
  have h : data.length = size.toNat := by simpa [Instr.operandsWf] using h
  simp [encode, Instr.leastLen, h]; omega

theorem programEeprom (size : Half) (data : List Byte) : Statement (.programEeprom size data) := by
  intro c h
  have h : data.length = size.toNat := by simpa [Instr.operandsWf] using h
  simp [encode, Instr.leastLen, h]; omega

theorem readFlash (size : Half) : Statement (.readFlash size) := fun _ _ => by simp [encode, Instr.leastLen]

theorem readEeprom (size : Half) : Statement (.readEeprom size) := fun _ _ => by simp [encode, Instr.leastLen]

theorem spiMulti (sub sidx : Byte) : Statement (.spiMulti sub sidx) := fun _ _ => by simp [encode, Instr.leastLen]

theorem unrecognised (op : Byte) : Statement (.unrecognised op) := fun _ _ => by simp [encode, Instr.leastLen]

theorem selfUpdateReplay (source destination : Word) (size : Half) (flags : ReplayFlags) : Statement (.selfUpdateReplay source destination size flags) := fun _ _ => by simp [encode, Instr.leastLen]

end Sys2Proof.Laws.EncodedLength
end

