-- ==== Sys2Proof/Tests/Slice0.lean ====
section
/-! SUPPORT. Tests: each check of WellFormed refuses an ill-formed term; words of the spec's encoding decode; one step
per command against a vector of 95_test_vectors; for each obligation with hypotheses, a state that meets them. -/

namespace Sys2Proof.Tests

set_option Elab.async false

open Sys2Proof.Machine

/-! ## Helpers -/

/-- The default constants and CFG-TINY with a buffer of 24 bytes. -/
def tinyConfig : Config := { defaultConfig with msgBufSize := 24 }

/-- The machine after reset, with that configuration. -/
def tiny : State := { State.reset with cfg := tinyConfig, msg := List.replicate 24 0 }

/-- A state in which a request has been accepted with a sequence number. -/
def accepted (s : State) (seq : Byte) (p : List Byte) : State :=
  { s with phase := .loop, fstate := .process, seq := seq, len := BitVec.ofNat 16 p.length,
           msg := p ++ List.replicate (24 - p.length) 0 }

/-- A state in the loop with the next events. -/
def looping (f : FrameState) (e : List Event) : State := { tiny with phase := .loop, fstate := f, len := 1, env := e }

/-- A state after a watchdog reset with a descriptor. -/
def replaying (d : Descriptor) : State :=
  { tiny with phase := .replay, wdtReset := true, wdtEnable := true, led := false, desc := d,
              ram := Memory.writeBytes [] 0x100 [0xA0, 0xA1, 0xA2, 0xA3] }

/-- Whether a result is a next state with a property. -/
def nextThat (r : Result) (p : State → Bool) : Bool :=
  match r with
  | .next t => p t
  | _ => false

/-- Whether a result is a next state. -/
def answers (r : Result) : Bool := nextThat r fun _ => true

theorem exists_of_answers {r : Result} (h : answers r = true) : ∃ t, r = .next t := by
  cases r with
  | next t => exact ⟨t, rfl⟩
  | fault f => cases h
  | refused f => cases h

theorem uncut_of_nil {s : State} (h : s.env = []) : s.uncut := by
  intro _ _ _ _ e
  rw [h] at e
  cases e

/-- The request of V-P1: Program flash of 01 .. 08. -/
def packet : List Byte := [0x13, 0x00, 0x08, 0, 0, 0, 0, 0, 0, 0, 1, 2, 3, 4, 5, 6, 7, 8]

/-! ## WellFormed refuses -/

theorem test_wf_accepts : Instr.Wf defaultConfig (.programFlash 2 [0xA1, 0xA2]) := by decide
theorem test_wf_program_flash_length : ¬ Instr.Wf defaultConfig (.programFlash 2 [0xA1]) := by decide
theorem test_wf_program_eeprom_length : ¬ Instr.Wf defaultConfig (.programEeprom 0 [0xA1]) := by decide
theorem test_wf_spi_multi_absent :
    ¬ Instr.Wf { defaultConfig with spiMultiPresent := false } (.spiMulti 0x30 0) := by decide
theorem test_wf_unrecognised_is_recognised : ¬ Instr.Wf defaultConfig (.unrecognised 0x01) := by decide
theorem test_wf_request_too_long : ¬ Instr.Wf tinyConfig (.programFlash 15 (List.replicate 15 0)) := by decide
theorem test_wf_reply_too_long : ¬ Instr.Wf tinyConfig (.readFlash 22) := by decide
theorem test_wf_largest_read : Instr.Wf defaultConfig (.readFlash 282) ∧ ¬ Instr.Wf defaultConfig (.readFlash 283) := by
  decide

theorem test_config_wf : defaultConfig.Wf ∧ tinyConfig.Wf := by decide +kernel
theorem test_config_page_size_one : ¬ Config.Wf { tinyConfig with pageSize := 1 } := by decide +kernel
theorem test_config_page_size_power : ¬ Config.Wf { tinyConfig with pageSize := 12, boundary := 12, flashSize := 12 } := by
  decide +kernel
theorem test_config_flash_size : ¬ Config.Wf { tinyConfig with flashSize := 0x44 } := by decide +kernel
theorem test_config_boundary_multiple : ¬ Config.Wf { tinyConfig with boundary := 0x31 } := by decide +kernel
theorem test_config_boundary_zero : ¬ Config.Wf { tinyConfig with boundary := 0 } := by decide +kernel
theorem test_config_boundary_above : ¬ Config.Wf { tinyConfig with boundary := 0x48 } := by decide +kernel
theorem test_config_boundary_width :
    ¬ Config.Wf { tinyConfig with addrWidth := .w16, boundary := 0x10000, flashSize := 0x10000 } := by decide +kernel
theorem test_config_eeprom : ¬ Config.Wf { tinyConfig with eepromSize := 0 } := by decide +kernel
theorem test_config_buffer : ¬ Config.Wf { tinyConfig with msgBufSize := 0x10000 } := by decide +kernel
theorem test_config_opcodes :
    ¬ Config.Wf { tinyConfig with opcodes := { defaultOpcodes with signOn := 0x1D } } := by decide +kernel
theorem test_config_status : ¬ Config.Wf { tinyConfig with statusFailed := 0x00 } := by decide +kernel
theorem test_config_string : ¬ Config.Wf { tinyConfig with signOnString := List.replicate 256 0 } := by decide +kernel
theorem test_config_magic : ¬ Config.Wf { tinyConfig with magic := 0 } := by decide +kernel
theorem test_layout_wf : defaultMailbox.Wf := by decide
theorem test_layout_overlap : ¬ MailboxLayout.Wf { defaultMailbox with destination := 14 } := by decide
theorem test_layout_flag_twice : ¬ MailboxLayout.Wf { defaultMailbox with flgRun := 0 } := by decide
theorem test_layout_flag_out_of_byte : ¬ MailboxLayout.Wf { defaultMailbox with flgErase := 8 } := by decide
theorem test_memory_order : ¬ Memory.wf [(2, 0), (1, 0)] := by decide
theorem test_memory_unlisted : ¬ Memory.wf [(2, 0xFF)] := by decide

/-! ## Words written out from the spec's encoding (30_encoding R78, R81, R84 to R86; 46_self_update R229) -/

theorem test_decode_sign_on : decodeTableWord 8 0x01 = some .signOn := by decide
theorem test_decode_get_parameter : decode defaultConfig (.request [0x03, 0x90]) = .ok (.getParameter 0x90) := by decide
theorem test_decode_enter_progmode : decodeTableWord 8 0x10 = some .enterProgmode := by decide
theorem test_decode_leave_progmode : decodeTableWord 8 0x11 = some .leaveProgmode := by decide
theorem test_decode_set_parameter : decodeTableWord 8 0x02 = some .setParameter := by decide
theorem test_decode_read_signature :
    decode defaultConfig (.request [0x1B, 7, 7, 7, 0x02]) = .ok (.readSignature 2) := by decide
theorem test_decode_read_lock : decodeTableWord 8 0x1A = some .readLock := by decide
theorem test_decode_read_fuse :
    decode defaultConfig (.request [0x18, 0x00, 0x50, 0x08]) = .ok (.readFuse 0x50 0x08) := by decide
theorem test_decode_program_lock :
    decode defaultConfig (.request [0x19, 0, 0, 0, 0xCF]) = .ok (.programLock 0xCF) := by decide
theorem test_decode_chip_erase : decodeTableWord 8 0x12 = some .chipErase := by decide
theorem test_decode_load_address :
    decode defaultConfig (.request [0x06, 0x12, 0x34, 0x56, 0x78]) = .ok (.loadAddress 0x12345678) := by decide
theorem test_decode_set_upload_size :
    decode defaultConfig (.request [0x50, 0x45, 0x23, 0x01]) = .ok (.setUploadSize 0x012345) := by decide
theorem test_decode_program_flash :
    decode defaultConfig (.request packet) = .ok (.programFlash 8 [1, 2, 3, 4, 5, 6, 7, 8]) := by decide
theorem test_decode_program_eeprom :
    decode defaultConfig (.request [0x15, 0x00, 0x03, 0, 0, 0, 0, 0, 0, 0, 0xDE, 0xAD, 0xBE]) =
      .ok (.programEeprom 3 [0xDE, 0xAD, 0xBE]) := by decide
theorem test_decode_read_flash : decode defaultConfig (.request [0x14, 0x01, 0x1A]) = .ok (.readFlash 282) := by decide
theorem test_decode_read_eeprom : decode defaultConfig (.request [0x16, 0x00, 0x04]) = .ok (.readEeprom 4) := by decide
theorem test_decode_spi_multi :
    decode defaultConfig (.request [0x1D, 0, 0, 0, 0x58, 8, 2, 0]) = .ok (.spiMulti 0x58 2) := by decide
theorem test_decode_spi_multi_absent :
    decode { defaultConfig with spiMultiPresent := false } (.request [0x1D]) = .ok (.unrecognised 0x1D) := by decide
theorem test_decode_unrecognised : decodeTableWord 8 0x17 = some (.unrecognised 0x17) := by decide
theorem test_decode_replay : decodeTableWord 32 0x55AA55AA =
    some (.selfUpdateReplay 0 0 0 ⟨false, false, false, false⟩) := by decide
theorem test_decode_bad_magic : decodeTableWord 32 0x55AA55AB = none := by decide
theorem test_decode_short_buffer :
    decode defaultConfig (.request [0x06, 0x12]) = .error (.operandOutsideBuffer 2) := by decide

/-- A descriptor of 46_self_update R229, byte by byte: source 0x100, destination 8, size 10, erase and copy, magic. -/
theorem test_descriptor_of_ram :
    descriptorOfRam defaultMailbox (Memory.read (Memory.writeBytes [] 0x1F0
      [0x00, 0x01, 0x00, 0x00, 0x08, 0x00, 0x00, 0x00, 0x0A, 0x00, 0x00, 0x03, 0xAA, 0x55, 0xAA, 0x55])) =
      ⟨0x100, 8, 10, ⟨true, true, false, false⟩, 0x55AA55AA⟩ := by decide

/-! ## One step per command (95_test_vectors, the vector named in each comment) -/

/-- V-I1. -/
theorem test_sign_on : nextThat (step (accepted tiny 1 [0x01])) (fun t => t.tx ==
    [0x1B, 0x01, 0x00, 0x0B, 0x0E, 0x01, 0x00, 0x08, 0x41, 0x56, 0x52, 0x49, 0x53, 0x50, 0x5F, 0x32, 0x74]) = true := by
  decide +kernel
/-- V-I2. -/
theorem test_get_parameter : nextThat (step (accepted tiny 6 [0x03, 0x92])) (fun t => t.tx ==
    [0x1B, 0x06, 0x00, 0x03, 0x0E, 0x03, 0x00, 0x0A, 0x19]) = true := by decide +kernel
/-- V-I3. -/
theorem test_get_parameter_unknown : nextThat (step (accepted tiny 7 [0x03, 0x93])) (fun t => t.tx ==
    [0x1B, 0x07, 0x00, 0x03, 0x0E, 0x03, 0x00, 0x00, 0x12]) = true := by decide +kernel
/-- V-I6. -/
theorem test_enter_progmode : nextThat (step (accepted tiny 11 [0x10, 0xC8, 0x64, 0x19])) (fun t => t.tx ==
    [0x1B, 0x0B, 0x00, 0x02, 0x0E, 0x10, 0x00, 0x0C] && t.phase == .loop) = true := by decide +kernel
/-- V-I9. -/
theorem test_leave_progmode : nextThat (step (accepted tiny 15 [0x11])) (fun t => t.tx ==
    [0x1B, 0x0F, 0x00, 0x02, 0x0E, 0x11, 0x00, 0x09] && t.phase == .handedOff && !t.led) = true := by decide +kernel
/-- V-I5. -/
theorem test_set_parameter : nextThat (step (accepted tiny 10 [0x02, 0x98, 0x01])) (fun t => t.tx ==
    [0x1B, 0x0A, 0x00, 0x02, 0x0E, 0x02, 0x00, 0x1F]) = true := by decide +kernel
/-- V-D1, index 1. -/
theorem test_read_signature : nextThat (step (accepted tiny 2 [0x1B, 0, 0, 0, 1])) (fun t => t.tx ==
    [0x1B, 0x02, 0x00, 0x04, 0x0E, 0x1B, 0x00, 0x98, 0x00, 0x90]) = true := by decide +kernel
/-- V-D3. -/
theorem test_read_lock : nextThat (step (accepted tiny 5 [0x1A])) (fun t => t.tx ==
    [0x1B, 0x05, 0x00, 0x04, 0x0E, 0x1A, 0x00, 0xFF, 0x00, 0xF1]) = true := by decide +kernel
/-- V-D4, extended. -/
theorem test_read_fuse_ext : nextThat (step (accepted tiny 8 [0x18, 0, 0x50, 0x08])) (fun t => t.tx ==
    [0x1B, 0x08, 0x00, 0x04, 0x0E, 0x18, 0x00, 0xFD, 0x00, 0xFC]) = true := by decide +kernel
/-- V-D4, high. -/
theorem test_read_fuse_high : nextThat (step (accepted tiny 7 [0x18, 0, 0x58, 0x08])) (fun t => t.tx ==
    [0x1B, 0x07, 0x00, 0x04, 0x0E, 0x18, 0x00, 0xD8, 0x00, 0xD6]) = true := by decide +kernel
/-- V-D7: everything asked for, the mask limits it. -/
theorem test_program_lock : nextThat (step (accepted { tiny with lockBits := 0xCF } 13 [0x19, 0, 0, 0, 0])) (fun t =>
    t.tx == [0x1B, 0x0D, 0x00, 0x03, 0x0E, 0x19, 0x00, 0x00, 0x02] && t.lockBits == 0xC3) = true := by decide +kernel
/-- V-D8: an attempt to widen. -/
theorem test_program_lock_widen : nextThat (step (accepted { tiny with lockBits := 0xC3 } 15 [0x19, 0, 0, 0, 0xFF]))
    (fun t => t.lockBits == 0xC3) = true := by decide +kernel
/-- V-D9, index 1. -/
theorem test_spi_multi : nextThat (step (accepted tiny 18 [0x1D, 0, 0, 0, 0x30, 0, 1, 0])) (fun t => t.tx ==
    [0x1B, 0x12, 0x00, 0x07, 0x0E, 0x1D, 0x00, 0x00, 0x30, 0x00, 0x98, 0x00, 0xB5]) = true := by decide +kernel
/-- V-D11. -/
theorem test_spi_multi_dummy : nextThat (step (accepted tiny 22 [0x1D, 0, 0, 0, 0xAC, 0x53, 0, 0])) (fun t => t.tx ==
    [0x1B, 0x16, 0x00, 0x07, 0x0E, 0x1D, 0x00, 0x00, 0xAC, 0x00, 0x00, 0x00, 0xB5]) = true := by decide +kernel
/-- V-S7. -/
theorem test_chip_erase : nextThat (step (accepted { tiny with eraseFrontier := 8, currentAddress := 0x10 } 7 [0x12]))
    (fun t => t.tx == [0x1B, 0x07, 0x00, 0x02, 0x0E, 0x12, 0xC0, 0xC2] && t.eraseFrontier == 0 &&
      t.currentAddress == 0x10) = true := by decide +kernel
/-- V-S4. -/
theorem test_load_address : nextThat (step (accepted tiny 4 [0x06, 0x12, 0x34, 0x56, 0x78])) (fun t =>
    t.tx == [0x1B, 0x04, 0x00, 0x02, 0x0E, 0x06, 0x00, 0x15] && t.currentAddress == 0x2468ACF0) = true := by
  decide +kernel
/-- V-S4 with a 16-bit address register. -/
theorem test_load_address_16 : nextThat (step (accepted { tiny with cfg := { tinyConfig with addrWidth := .w16 } } 4
    [0x06, 0x12, 0x34, 0x56, 0x78])) (fun t => t.currentAddress == 0xACF0) = true := by decide +kernel
/-- V-S5. -/
theorem test_set_upload_size : nextThat (step (accepted { tiny with bytesTransferred := 8, operationKind := .write } 5
    [0x50, 0x45, 0x23, 0x01])) (fun t => t.tx == [0x1B, 0x05, 0x00, 0x02, 0x0E, 0x50, 0x00, 0x42] &&
      t.totalUploadSize == 0x012345 && t.bytesTransferred == 0 && t.operationKind == .none) = true := by decide +kernel
/-- V-P1. -/
theorem test_program_flash : nextThat (step (accepted tiny 2 packet)) (fun t =>
    t.tx == [0x1B, 0x02, 0x00, 0x02, 0x0E, 0x13, 0x00, 0x06] && t.currentAddress == 8 && t.eraseFrontier == 8 &&
      t.flash == [(0, 1), (1, 2), (2, 3), (3, 4), (4, 5), (5, 6), (6, 7), (7, 8)]) = true := by decide +kernel
/-- V-P8: a packet that crosses a page end. -/
theorem test_program_flash_folds : nextThat (step (accepted { tiny with currentAddress := 4 } 1 packet)) (fun t =>
    t.currentAddress == 0x0C && t.eraseFrontier == 8 &&
      t.flash == [(0, 5), (1, 6), (2, 7), (3, 8), (4, 1), (5, 2), (6, 3), (7, 4)]) = true := by decide +kernel
/-- V-P11. -/
theorem test_program_eeprom : nextThat (step (accepted { tiny with currentAddress := 4 } 2
    [0x15, 0x00, 0x03, 0, 0, 0, 0, 0, 0, 0, 0xDE, 0xAD, 0xBE])) (fun t =>
    t.tx == [0x1B, 0x02, 0x00, 0x02, 0x0E, 0x15, 0x00, 0x00] && t.currentAddress == 0x0A &&
      t.eeprom == [(2, 0xDE), (3, 0xAD), (4, 0xBE)]) = true := by decide +kernel
/-- V-P12: an address beyond the array. -/
theorem test_program_eeprom_modulo : nextThat (step (accepted { tiny with currentAddress := 0x1E } 2
    [0x15, 0x00, 0x02, 0, 0, 0, 0, 0, 0, 0, 0xAA, 0xBB])) (fun t => t.currentAddress == 0x22 &&
      t.eeprom == [(0, 0xBB), (15, 0xAA)]) = true := by decide +kernel
/-- V-R1, second row: across the boundary. -/
theorem test_read_flash : nextThat (step (accepted { tiny with
    currentAddress := 0x2E, flash := [(0x2E, 0x2E), (0x2F, 0x2F), (0x30, 0x30), (0x31, 0x31)] } 2 [0x14, 0x00, 0x04]))
    (fun t => t.tx == [0x1B, 0x02, 0x00, 0x07, 0x0E, 0x14, 0x00, 0x2E, 0x2F, 0x30, 0x31, 0x00, 0x04] &&
      t.currentAddress == 0x32) = true := by decide +kernel
/-- 45_cmd_read R205, size 0. -/
theorem test_read_flash_zero : nextThat (step (accepted tiny 10 [0x14, 0x00, 0x00])) (fun t => t.tx ==
    [0x1B, 0x0A, 0x00, 0x03, 0x0E, 0x14, 0x00, 0x00, 0x08]) = true := by decide +kernel
/-- V-P11, last row. -/
theorem test_read_eeprom : nextThat (step (accepted { tiny with
    currentAddress := 4, eeprom := [(2, 0xDE), (3, 0xAD), (4, 0xBE)] } 4 [0x16, 0x00, 0x04])) (fun t => t.tx ==
    [0x1B, 0x04, 0x00, 0x07, 0x0E, 0x16, 0x00, 0xDE, 0xAD, 0xBE, 0xFF, 0x00, 0x32] && t.currentAddress == 0x0C) =
      true := by decide +kernel
/-- V-I7. -/
theorem test_unrecognised : nextThat (step (accepted tiny 13 [0xFF])) (fun t => t.tx ==
    [0x1B, 0x0D, 0x00, 0x02, 0x0E, 0xFF, 0xC0, 0x25]) = true := by decide +kernel
/-- 46_self_update R231 (c): four RAM bytes to page 1, the rest of the page erased. -/
theorem test_replay_copy : nextThat (step { replaying ⟨0x100, 8, 4, ⟨true, true, false, false⟩, 0x55AA55AA⟩ with
    flash := [(7, 0x11), (8, 0x11), (15, 0x11), (16, 0x11)] }) (fun t =>
    t.flash == [(7, 0x11), (8, 0xA0), (9, 0xA1), (10, 0xA2), (11, 0xA3), (16, 0x11)] && t.phase == .handedOff &&
      t.desc.magic == 0 && t.tx == [] && !t.rwwBlocked) = true := by decide +kernel
/-- 46_self_update R224: a page at the boundary is neither erased nor written. -/
theorem test_replay_boundary : nextThat (step { replaying ⟨0x100, 0x30, 4, ⟨true, true, false, false⟩, 0x55AA55AA⟩ with
    flash := [(0x30, 0x11)] }) (fun t => t.flash == [(0x30, 0x11)] && t.phase == .handedOff) = true := by decide +kernel

/-! ## The decoder and the boot -/

/-- V-F1, the whole frame from the first wait, then the reply. -/
theorem test_first_frame : nextThat (runSteps 8 { tiny with
    env := [0x1B, 0x01, 0x00, 0x01, 0x0E, 0x01, 0x14].map .byte }) (fun t => t.phase == .loop && t.tx ==
    [0x1B, 0x01, 0x00, 0x0B, 0x0E, 0x01, 0x00, 0x08, 0x41, 0x56, 0x52, 0x49, 0x53, 0x50, 0x5F, 0x32, 0x74]) = true := by
  decide +kernel
/-- V-F8: the failing byte is not looked at again. -/
theorem test_failing_byte : ((looping .awaitStart []).receive
    [0x1B, 0x01, 0x00, 0x01, 0x0E, 0x01, 0x1B, 0x01, 0x00, 0x01, 0x0E, 0x01, 0x14]).fstate = .awaitStart := by
  decide +kernel
/-- 70_reset R277: a Program flash cut in its page write restarts the block and sends nothing. -/
theorem test_cut_program_flash : nextThat (step { accepted tiny 1 packet with
    env := [.resetInside .external 1 0] }) (fun t => t.tx == [] && t.phase == .wait &&
      t.currentAddress == 0 && t.eraseFrontier == 0) = true := by decide +kernel
/-- 70_reset R277: a reply cut after three bytes. -/
theorem test_cut_reply : nextThat (step { accepted tiny 5 [0x1A] with env := [.resetInside .powerOn 0 3] }) (fun t =>
    t.tx == [0x1B, 0x05, 0x00] && t.phase == .wait) = true := by decide +kernel
/-- The word of a table row runs as the first instruction after reset. -/
theorem test_with_fetch_word : nextThat (step (State.reset.withFetchWord 8 0x11)) (fun t => t.phase == .handedOff) =
    true := by decide +kernel
/-- The replay's row, likewise: no flag is set, so only the mailbox changes. -/
theorem test_with_fetch_word_replay :
    nextThat (step (State.reset.withFetchWord 32 0x55AA55AA)) (fun t => t.phase == .handedOff && t.desc.magic == 0) =
      true := by decide +kernel

/-! ## For each obligation with hypotheses, concrete values that meet them all -/

/-- A machine with a buffer of `n` bytes. -/
def sized (n : Nat) : State := { tiny with cfg := { tinyConfig with msgBufSize := n }, msg := List.replicate n 0 }

theorem witness_DecodeOfEncodeIsIdentity :
    tinyConfig.Wf ∧ (Instr.programFlash 2 [0xA1, 0xA2]).operandsWf tinyConfig = true ∧
      (Instr.programEeprom 0 []).operandsWf tinyConfig = true ∧ (Instr.spiMulti 0x30 1).operandsWf tinyConfig = true ∧
      (Instr.unrecognised 0x00).operandsWf tinyConfig = true ∧
      (Instr.selfUpdateReplay 0 8 0xFFFF ⟨true, true, true, true⟩).operandsWf tinyConfig = true := by decide +kernel

theorem witness_EveryOpcodeIsDecoded :
    7 ≤ [0x1D, 0, 0, 0, 0, 0, (0 : Byte)].length ∧ [0x1D, 0, 0, 0, 0, 0, (0 : Byte)][0]? = some 0x1D ∧
      0x1D ∈ tinyConfig.recognised ∧ 0x1D ∉ Config.recognised { tinyConfig with spiMultiPresent := false } := by
  decide +kernel

theorem witness_StoredDescriptorReadsBack : defaultMailbox.Wf ∧ Memory.wf [(0x1F0, 0x11)] := by decide

/-- Every clause: a start marker and another byte; a sequence number; a high length byte; a token and another byte; the
last payload byte and one before; the checksum and another byte. -/
theorem witness_DecoderFollowsByteRules :
    ∀ f ∈ [FrameState.awaitStart, .awaitSequence, .awaitLengthHigh, .awaitToken, .awaitPayloadByte, .awaitChecksum],
      ∀ b ∈ [(0x1B : Byte), 0x0E, 0x00], (looping f [.byte b]).phase = .loop ∧
        (looping f [.byte b]).env = .byte b :: [] ∧ (looping f [.byte b]).fstate = f ∧
        (looping f [.byte b]).idx + 1 = (looping f [.byte b]).len := by decide +kernel

/-- Lengths 0, 1, the buffer's and one above it. -/
theorem witness_LengthIsBounded :
    ∀ b ∈ [(0 : Byte), 1, 24, 25], ({ looping .awaitLengthLow [.byte b] with len := 0 } : State).phase = .loop ∧
      ({ looping .awaitLengthLow [.byte b] with len := 0 } : State).env = .byte b :: [] := by decide +kernel

theorem tiny_inv : tiny.Inv := by constructor <;> decide +kernel

/-- The frame of V-F1. -/
def signOnFrame : List Byte := [0x1B, 0x01, 0x00, 0x01, 0x0E, 0x01, 0x14]

theorem witness_WholeFrameIsAccepted :
    (looping .awaitStart (signOnFrame.map .byte)).Inv ∧ (looping .awaitStart (signOnFrame.map .byte)).phase = .loop ∧
      (looping .awaitStart (signOnFrame.map .byte)).env = (frame tinyConfig 1 1 [0x01]).map .byte ++ [] :=
  ⟨by constructor <;> decide +kernel, by decide +kernel, by decide +kernel⟩

/-- The same, for a payload that fills the buffer. -/
theorem witness_WholeFrameIsAccepted_longest :
    (looping .awaitStart ((frame tinyConfig 1 24 (List.replicate 24 0x1B)).map .byte)).Inv ∧
      (List.replicate 24 (0x1B : Byte)).length ≤ tinyConfig.msgBufSize :=
  ⟨by constructor <;> decide +kernel, by decide +kernel⟩

theorem witness_WrongChecksumIsDropped :
    (looping .awaitStart ((frameBody tinyConfig 1 1 [0x01] ++ [0x15]).map .byte)).Inv ∧
      (looping .awaitStart ((frameBody tinyConfig 1 1 [0x01] ++ [0x15]).map .byte)).phase = .loop ∧
      (looping .awaitStart ((frameBody tinyConfig 1 1 [0x01] ++ [0x15]).map .byte)).fstate = .awaitStart ∧
      (0x15 : Byte) ≠ xorBytes (frameBody tinyConfig 1 1 [0x01]) :=
  ⟨by constructor <;> decide +kernel, rfl, rfl, by decide +kernel⟩

theorem witness_OnlyFramesAreAccepted :
    tiny.cfg.Wf ∧ tiny.fstate = .awaitStart ∧ (tiny.receive [0x00, 0x1B, 0x01, 0x00, 0x01, 0x0E, 0x01]).fstate ≠ .process ∧
      (tiny.receive ([0x00, 0x1B, 0x01, 0x00, 0x01, 0x0E, 0x01] ++ [0x14])).fstate = .process := by decide +kernel

/-- The sequence number, the token, the first payload byte and the checksum. -/
theorem witness_CorruptFrameIsRejected :
    tiny.cfg.Wf ∧ tiny.fstate = .awaitStart ∧ tiny.msg.length = tiny.cfg.msgBufSize ∧
      ∀ p ∈ [1, 4, 5, 6], p < (frame tiny.cfg 1 1 [0x01]).length ∧ (frame tiny.cfg 1 1 [0x01])[p]? ≠ some 0xEE := by
  decide +kernel

theorem witness_DecoderIsIsolated :
    ((looping .awaitToken []).decodeByte 0x0F).fstate = .awaitStart ∧
      ((looping .awaitChecksum []).decodeByte 0x0F).fstate = .awaitStart ∧
      ({ looping .awaitToken [] with led := false, env := [.quiet] } : State).msg = (looping .awaitToken []).msg := by
  decide +kernel

theorem witness_StepRunsDecodedInstruction :
    (accepted tiny 1 [0x11]).phase = .loop ∧ (accepted tiny 1 [0x11]).fstate = .process ∧
      (∀ p, (accepted tiny 1 p).uncut) ∧
      decode tinyConfig (.request (accepted tiny 1 [0x11]).msg) = .ok .leaveProgmode ∧
      ∃ t, exec .leaveProgmode (accepted tiny 1 [0x11]) = .next t :=
  ⟨by decide +kernel, by decide +kernel, fun _ => uncut_of_nil rfl, by decide +kernel,
    exists_of_answers (by decide +kernel)⟩

theorem witness_StepRunsDecodedInstruction_fault :
    decode tinyConfig (.request (accepted tiny 1 [0x14, 0, 22]).msg) = .ok (.readFlash 22) ∧
      exec (.readFlash 22) (accepted tiny 1 [0x14, 0, 22]) = .fault .msgIndexOutOfRange := ⟨by decide +kernel, by rfl⟩

theorem witness_StepRunsDecodedInstruction_replay :
    (replaying ⟨0x100, 8, 4, ⟨true, true, false, false⟩, 0x55AA55AA⟩).phase = .replay ∧
      (∀ d, (replaying d).uncut) ∧
      decode tinyConfig (.mailbox ⟨0x100, 8, 4, ⟨true, true, false, false⟩, 0x55AA55AA⟩) =
        .ok (.selfUpdateReplay 0x100 8 4 ⟨true, true, false, false⟩) :=
  ⟨by decide +kernel, fun _ => uncut_of_nil rfl, by decide +kernel⟩

/-- `accepted tiny 1 p` meets the invariant, for the payloads of the witnesses below. -/
theorem accepted_inv : (accepted tiny 1 packet).Inv ∧ (accepted tiny 1 [0x12]).Inv ∧ (accepted tiny 1 [0x11]).Inv ∧
    (accepted tiny 1 [0x00]).Inv ∧ (accepted tiny 1 [0x14, 0, 3]).Inv ∧
    (accepted tiny 1 [0x19, 0, 0, 0, 0]).Inv := by
  refine ⟨?_, ?_, ?_, ?_, ?_, ?_⟩ <;> constructor <;> decide +kernel

theorem witness_ReplyNamesItsRequest :
    ((accepted tiny 1 packet).Inv ∧ ∃ t, step (accepted tiny 1 packet) = .next t) ∧
      ((accepted tiny 1 [0x12]).Inv ∧ ∃ t, step (accepted tiny 1 [0x12]) = .next t) ∧
      ((accepted tiny 1 [0x00]).Inv ∧ ∃ t, step (accepted tiny 1 [0x00]) = .next t) ∧
      ∀ p, (accepted tiny 1 p).phase = .loop ∧ (accepted tiny 1 p).fstate = .process :=
  ⟨⟨accepted_inv.1, exists_of_answers (by decide +kernel)⟩, ⟨accepted_inv.2.1, exists_of_answers (by decide +kernel)⟩,
    ⟨accepted_inv.2.2.2.1, exists_of_answers (by decide +kernel)⟩, fun _ => ⟨rfl, rfl⟩⟩

theorem witness_OneReplyPerFrame :
    ((accepted tiny 1 packet).Inv ∧ ∃ t, step (accepted tiny 1 packet) = .next t) ∧
      (tiny.Inv ∧ (∃ t, step tiny = .next t) ∧ ¬ (tiny.phase = .loop ∧ tiny.fstate = .process)) :=
  ⟨⟨accepted_inv.1, exists_of_answers (by decide +kernel)⟩, tiny_inv, exists_of_answers (by decide +kernel),
    by decide +kernel⟩

/-- The buffers of the least lengths that the command statements name. -/
theorem witness_commands : ∀ n ∈ [2, 3, 4, 7, 11], (sized n).msg.length = (sized n).cfg.msgBufSize := by decide +kernel

theorem witness_LeaveEndsTheSession :
    (accepted tiny 1 [0x11]).Inv ∧ 2 ≤ tinyConfig.msgBufSize ∧
      (accepted tiny 1 [0x11]).msg[0]? = some tinyConfig.opcodes.leaveProgmode :=
  ⟨accepted_inv.2.2.1, by decide +kernel, by decide +kernel⟩

theorem witness_SignOnAnswersTheString : 3 + (sized 11).cfg.signOnString.length ≤ (sized 11).cfg.msgBufSize := by
  decide +kernel

theorem witness_SpiMultiAnswers :
    (sized 7).cfg.spiMultiPresent = true ∧
      ({ sized 7 with cfg := { tinyConfig with msgBufSize := 7, spiMultiPresent := false } } : State).cfg.spiMultiPresent =
        false := by decide +kernel

/-- The four rows of 44_cmd_program R187, with the frontier and the packet at and just below the boundary. -/
def rows : List State :=
  [{ tiny with eraseFrontier := 0x28, currentAddress := 0x2E }, { tiny with eraseFrontier := 0x30, currentAddress := 0x2E },
    { tiny with eraseFrontier := 0x28, currentAddress := 0x30 }, { tiny with eraseFrontier := 0x30, currentAddress := 0x30 }]

theorem witness_ProgramFlashOutcomes : (∀ s ∈ rows, s.Inv ∧ 2 ≤ s.cfg.msgBufSize) ∧
    [0xA1, (0xA2 : Byte)].length = (2 : Half).toNat := by
  refine ⟨fun s h => ?_, by decide⟩
  simp only [rows, List.mem_cons, List.not_mem_nil, or_false] at h
  rcases h with rfl | rfl | rfl | rfl <;> refine ⟨?_, by decide +kernel⟩ <;> constructor <;> decide +kernel

/-- The last two addresses below the boundary, the page just erased and the page erased before. -/
theorem witness_ProgramFlashPageContents :
    (∀ s ∈ rows.take 2, s.Inv) ∧
    ∀ s ∈ rows.take 2, s.currentAddress.toNat < s.cfg.boundary ∧ s.currentAddress.toNat % 2 = 0 ∧
      answers (exec (.programFlash 2 [0xA1, 0xA2]) s) = true ∧ answers (exec (.programFlash 0 []) s) = true :=
  ⟨fun s h => (witness_ProgramFlashOutcomes.1 s (List.mem_of_mem_take h)).1, by decide +kernel⟩

/-- Fewer bytes than the EEPROM has, and one more than it has. -/
theorem witness_ProgramEepromWritesBytes :
    tiny.Inv ∧ (List.replicate 2 (0 : Byte)).length = (2 : Half).toNat ∧
      (List.replicate 17 (0 : Byte)).length = (17 : Half).toNat ∧ 2 ≤ tiny.cfg.msgBufSize ∧
      tiny.eepromTarget 16 = tiny.eepromTarget 0 :=
  ⟨tiny_inv, by decide +kernel, by decide +kernel, by decide +kernel, by decide +kernel⟩

/-- No byte and the most that fit; the flag clear and set; an address below and at the boundary. -/
theorem witness_ReadFlashReturnsBytes :
    tiny.Inv ∧ State.Inv { tiny with phase := .loop, rwwBlocked := true, currentAddress := 0x2F } ∧
      (0 : Half).toNat + 3 ≤ tiny.cfg.msgBufSize ∧ (21 : Half).toNat + 3 ≤ tiny.cfg.msgBufSize ∧
      State.flashTarget { tiny with currentAddress := 0x2F } 0 < tinyConfig.boundary ∧
      tinyConfig.boundary ≤ State.flashTarget { tiny with currentAddress := 0x2F } 1 :=
  ⟨tiny_inv, by constructor <;> decide +kernel, by decide +kernel, by decide +kernel, by decide +kernel, by decide +kernel⟩

theorem witness_ReadEepromReturnsBytes : tiny.Inv ∧ (21 : Half).toNat + 3 ≤ tiny.cfg.msgBufSize :=
  ⟨tiny_inv, by decide +kernel⟩

theorem witness_BufferOverrunStops :
    tiny.cfg.msgBufSize < (22 : Half).toNat + 3 ∧ ([] : List Byte).length < 2 * ((2 : Half).toNat / 2) ∧
      tiny.currentAddress.toNat < tiny.cfg.boundary ∧ ([] : List Byte).length < (1 : Half).toNat := by decide +kernel

theorem witness_ProgrammingPassReadsBack :
    State.Inv { tiny with totalUploadSize := 8 } ∧ tiny.cfg.erasedByte = 0xFF ∧ tiny.currentAddress = 0 ∧
      tiny.eraseFrontier = 0 ∧ (4 : Half).toNat % 2 = 0 ∧ tiny.cfg.pageSize % (4 : Half).toNat = 0 ∧
      (∀ p ∈ [[0x11, 0x22, 0x33, 0x44], [0x55, 0x66, 0x77, (0x88 : Byte)]], p.length = (4 : Half).toNat) ∧
      [[0x11, 0x22, 0x33, 0x44], [0x55, 0x66, 0x77, (0x88 : Byte)]].length * (4 : Half).toNat ≤ tiny.cfg.boundary ∧
      (8 : Half).toNat + 3 ≤ tiny.cfg.msgBufSize :=
  ⟨by constructor <;> decide +kernel, by decide +kernel, by decide +kernel, by decide +kernel, by decide +kernel,
    by decide +kernel, by decide +kernel, by decide +kernel, by decide +kernel⟩

/-- Sizes 0, 8 and the largest that fits. -/
theorem witness_VerifyPassCounts :
    State.Inv { tiny with totalUploadSize := 16 } ∧ (16 : Word) ≠ 0 ∧ [(0 : Half), 8, 21] ≠ [] ∧
      (∀ n ∈ [(0 : Half), 8, 21], n.toNat + 3 ≤ tiny.cfg.msgBufSize) ∧
      ([(0 : Half), 8, 21].map BitVec.toNat).sum = 29 ∧ 29 < 2 ^ tiny.cfg.addrWidth.bits := by
  refine ⟨by constructor <;> decide +kernel, by decide, by decide, ?_, rfl, by decide +kernel⟩
  intro n h
  simp only [List.mem_cons, List.not_mem_nil, or_false] at h
  rcases h with rfl | rfl | rfl <;> decide +kernel

theorem witness_DeferRunHandsOff : (⟨true, true, false, true⟩ : ReplayFlags).deferRun = true := rfl

/-- A descriptor with another magic. -/
def untrusted : State := replaying ⟨0x100, 8, 4, ⟨true, true, false, false⟩, 0x55AA55AB⟩

theorem witness_BadMagicBootsNormally : untrusted.phase = .replay ∧ untrusted.desc.magic ≠ untrusted.cfg.magic := by
  decide +kernel

/-- A trusted descriptor. -/
def trusted (flags : ReplayFlags) : State := replaying ⟨0x100, 8, 4, flags, 0x55AA55AA⟩

theorem trusted_inv : (trusted ⟨true, true, false, false⟩).Inv ∧ (trusted ⟨true, false, false, false⟩).Inv ∧
    (trusted ⟨false, false, false, false⟩).Inv := by refine ⟨?_, ?_, ?_⟩ <;> constructor <;> decide +kernel

theorem witness_ReplayEndsInHandoff :
    (trusted ⟨false, false, false, false⟩).Inv ∧ (⟨false, false, false, false⟩ : ReplayFlags).deferRun = false ∧
      (trusted ⟨false, false, false, false⟩).rwwBlocked = false ∧ (4 : Half) ≠ 0 :=
  ⟨trusted_inv.2.2, rfl, by decide +kernel, by decide⟩

/-- A span inside a page, one that reaches the boundary, and one that ends at the top of the address space. -/
theorem witness_EraseOnlyReplayErasesTheSpan :
    (trusted ⟨true, false, false, false⟩).Inv ∧
      (8 : Word).toNat + (4 : Half).toNat ≤ 2 ^ 32 ∧ (0xFFFFFFFE : Word).toNat + (2 : Half).toNat ≤ 2 ^ 32 ∧
      (∃ t, exec (.selfUpdateReplay 0x100 8 4 ⟨true, false, false, false⟩) (trusted ⟨true, false, false, false⟩) =
        .next t) ∧
      (∃ t, exec (.selfUpdateReplay 0x100 0x2C 8 ⟨true, false, false, false⟩) (trusted ⟨true, false, false, false⟩) =
        .next t) :=
  ⟨trusted_inv.2.1, by decide +kernel, by decide +kernel, exists_of_answers (by decide +kernel),
    exists_of_answers (by decide +kernel)⟩

/-- With and without the erase, at the last page below the boundary. -/
theorem witness_CopyReplayCopiesFromRam :
    (trusted ⟨true, true, false, false⟩).Inv ∧ tiny.cfg.erasedByte = 0xFF ∧
      (0x28 : Word).toNat % tiny.cfg.pageSize = 0 ∧ (8 : Half).toNat % 2 = 0 ∧ 0 < (8 : Half).toNat ∧
      (0x28 : Word).toNat + (8 : Half).toNat ≤ tiny.cfg.boundary ∧
      (∃ t, exec (.selfUpdateReplay 0x100 0x28 8 ⟨true, true, false, false⟩) (trusted ⟨true, true, false, false⟩) =
        .next t) ∧
      (∃ t, exec (.selfUpdateReplay 0x100 0x28 8 ⟨false, true, false, false⟩) (trusted ⟨true, true, false, false⟩) =
        .next t) :=
  ⟨trusted_inv.1, by decide +kernel, by decide +kernel, by decide +kernel, by decide +kernel, by decide +kernel,
    exists_of_answers (by decide +kernel), exists_of_answers (by decide +kernel)⟩

/-- A source at the boundary with the erase, and without it one just below the boundary and one in the span's first
page, which the second page copies. -/
theorem witness_CopyReplayCopiesFromFlash :
    (trusted ⟨true, true, false, false⟩).Inv ∧ (trusted ⟨true, true, false, false⟩).rwwBlocked = false ∧
      (8 : Word).toNat % tiny.cfg.pageSize = 0 ∧ (16 : Half).toNat % 2 = 0 ∧ 0 < (16 : Half).toNat ∧
      (8 : Word).toNat + (16 : Half).toNat ≤ tiny.cfg.boundary ∧
      tiny.cfg.boundary ≤ flashIndex tiny.cfg ((0x30 : Word) + BitVec.ofNat 32 0).toNat ∧
      flashIndex tiny.cfg ((0x2F : Word) + BitVec.ofNat 32 0).toNat < tiny.cfg.boundary ∧
      (8 : Word).toNat ≤ flashIndex tiny.cfg ((0 : Word) + BitVec.ofNat 32 8).toNat ∧
      flashIndex tiny.cfg ((0 : Word) + BitVec.ofNat 32 8).toNat < pageOf tiny.cfg ((8 : Word).toNat + 8) ∧
      (∃ t, exec (.selfUpdateReplay 0x30 8 16 ⟨true, true, true, false⟩) (trusted ⟨true, true, false, false⟩) =
        .next t) ∧
      (∃ t, exec (.selfUpdateReplay 0 8 16 ⟨false, true, true, false⟩) (trusted ⟨true, true, false, false⟩) =
        .next t) :=
  ⟨trusted_inv.1, by decide +kernel, by decide +kernel, by decide +kernel, by decide +kernel, by decide +kernel,
    by decide +kernel, by decide +kernel, by decide +kernel, by decide +kernel, exists_of_answers (by decide +kernel),
    exists_of_answers (by decide +kernel)⟩

theorem witness_waiting : ∀ e ∈ [[Event.expire], [.byte 0x1B], [.byte 0x00], [.quiet], []],
    ({ tiny with env := e } : State).phase = .wait := by decide +kernel

/-- An erased first word and a written one; the region enabled and blocked. -/
theorem witness_ReceiveGuardTestsTheFirstWord :
    ∀ f ∈ [([] : Memory), [(0, 0x0C), (1, 0x94)]], ∀ r ∈ [false, true],
      ({ looping .awaitPayloadByte [.expire] with flash := f, rwwBlocked := r } : State).cfg.Wf ∧
      ({ looping .awaitPayloadByte [.expire] with flash := f, rwwBlocked := r } : State).phase = .loop ∧
      ({ looping .awaitPayloadByte [.expire] with flash := f, rwwBlocked := r } : State).fstate ≠ .process ∧
      ({ looping .awaitPayloadByte [.expire] with flash := f, rwwBlocked := r } : State).env = .expire :: [] := by
  decide +kernel

theorem witness_SilentLoopWaitsForEver :
    (looping .awaitPayloadByte [.quiet, .expire]).cfg.Wf ∧
      (looping .awaitPayloadByte [.quiet, .expire]).phase = .loop ∧
      (looping .awaitPayloadByte [.quiet, .expire]).fstate ≠ .process ∧
      (looping .awaitPayloadByte [.quiet, .expire]).rwwBlocked = false ∧
      ((looping .awaitPayloadByte []).flash.read 1 ++ (looping .awaitPayloadByte []).flash.read 0 : Half) =
        tinyConfig.erasedWord ∧
      ∀ e ∈ (looping .awaitPayloadByte [.quiet, .expire]).env, e = .quiet ∨ e = .expire := by decide +kernel

theorem witness_HandedOffIsTerminal :
    tiny.handoff.phase = .handedOff ∧ tiny.handoff.env = [] ∧
      ∀ e ∈ [Event.byte 0x1B, .quiet, .expire], e.resetCause = none := by decide +kernel

/-- 70_reset R267: a reset behind a byte, a poll and a time-out of the application's is taken. -/
theorem test_reset_behind_bytes : nextThat (runSteps 4 { tiny.handoff with
    env := [.byte 0x1B, .quiet, .expire, .reset .external] }) (fun t =>
    t.phase == .wait && t.env == [] && t.tx == [] && t.flash == []) = true := by decide +kernel

/-- With the events of `witness_HandedOffIsTerminal` as those that come before the reset. -/
theorem witness_ResetRestartsTheBlock :
    ∀ c ∈ [ResetCause.powerOn, .external, .watchdog], ∀ e ∈ [Event.reset c, .resetInside c 0 0,
        .applicationThenReset [.ram 0 0] c], e.resetCause = some c ∧ ({ tiny with env := [e] } : State).phase = .wait ∧
      ({ tiny.handoff with env := [e] } : State).phase = .handedOff ∧
      (looping .awaitChecksum [e]).phase = .loop ∧ (looping .awaitChecksum [e]).fstate ≠ .process := by
  decide +kernel

/-- What an application leaves: two writes of one byte of each space, a descriptor, a cleared lock bit. -/
def effects : List ApplicationEffect :=
  [.flash 0 1, .flash 0 2, .eeprom 3 4, .eeprom 3 5, .ram 0x100 6, .ram 0x100 7, .lockBits 1,
    .descriptor ⟨0x100, 8, 2, ⟨true, true, false, false⟩, 0x55AA55AA⟩]

/-- A machine after the hand-off whose application leaves effects and resets. -/
def applying (did : List ApplicationEffect) (cause : ResetCause) : State :=
  { tiny.handoff with env := [.applicationThenReset did cause] }

/-- 00_scope R5: the next run finds what the application left; a watchdog reset brings it to the replay. -/
theorem test_application_then_replay : nextThat (runSteps 2 (applying effects .watchdog)) (fun t =>
    t.flash == [(0, 2), (8, 7)] && t.eeprom == [(3, 5)] && t.lockBits == 0xFE && t.phase == .handedOff) = true := by
  decide +kernel

theorem witness_ApplicationEffectsReachTheNextRun :
    (∀ c ∈ [ResetCause.powerOn, .external, .watchdog], (applying effects c).Inv) ∧
      (∀ c, (applying effects c).phase = .handedOff ∧ (applying effects c).env = .applicationThenReset effects c :: []) ∧
      effects = [.flash 0 1] ++ .flash 0 2 :: effects.drop 2 := by
  refine ⟨fun c h => ?_, fun _ => ⟨rfl, rfl⟩, rfl⟩
  simp only [List.mem_cons, List.not_mem_nil, or_false] at h
  rcases h with rfl | rfl | rfl <;> constructor <;> decide +kernel

/-- A Program flash cut in its erase, in its page write and in its reply. -/
theorem witness_ResetInsideACommand :
    ∀ ops ∈ [0, 1, 2], State.Inv { accepted tiny 1 packet with env := [.resetInside .external ops 3] } ∧
      decode tinyConfig (.request (accepted tiny 1 packet).msg) = .ok (.programFlash 8 [1, 2, 3, 4, 5, 6, 7, 8]) ∧
      ∃ t, step { accepted tiny 1 packet with env := [.resetInside .external ops 3] } = .next t := by
  intro ops h
  simp only [List.mem_cons, List.not_mem_nil, or_false] at h
  rcases h with rfl | rfl | rfl <;>
    refine ⟨by constructor <;> decide +kernel, by decide +kernel, exists_of_answers (by decide +kernel)⟩

theorem witness_ResetInsideAReplay :
    ∀ c ∈ [ResetCause.powerOn, .external, .watchdog],
      ({ replaying ⟨0x100, 8, 4, ⟨true, true, false, false⟩, 0x55AA55AA⟩ with
        env := [.resetInside c 0 0] } : State).desc.magic = tinyConfig.magic ∧
      (⟨true, true, false, true⟩ : ReplayFlags).deferRun = true := by decide +kernel

/-- One step from each phase: the hypotheses of the statements about every step. -/
theorem witness_StepKeepsInvariant :
    ((trusted ⟨true, true, false, false⟩).Inv ∧ ∃ t, step (trusted ⟨true, true, false, false⟩) = .next t) ∧
      (tiny.Inv ∧ ∃ t, step tiny = .next t) ∧
      ((accepted tiny 1 packet).Inv ∧ ∃ t, step (accepted tiny 1 packet) = .next t) ∧
      (State.Inv { tiny.handoff with env := [.reset .watchdog] } ∧
        ∃ t, step { tiny.handoff with env := [.reset .watchdog] } = .next t) :=
  ⟨⟨trusted_inv.1, exists_of_answers (by decide +kernel)⟩, ⟨tiny_inv, exists_of_answers (by decide +kernel)⟩,
    ⟨accepted_inv.1, exists_of_answers (by decide +kernel)⟩,
    ⟨by constructor <;> decide +kernel, exists_of_answers (by decide +kernel)⟩⟩

theorem witness_PhaseTransitionsAreComplete :
    (State.Inv { tiny.handoff with env := [.byte 0] } ∧ ∃ t, step { tiny.handoff with env := [.byte 0] } = .next t) ∧
      ((accepted tiny 1 [0x11]).Inv ∧ ∃ t, step (accepted tiny 1 [0x11]) = .next t) ∧
      (untrusted.Inv ∧ ∃ t, step untrusted = .next t) ∧
      ((looping .awaitToken [.expire]).Inv ∧ ∃ t, step (looping .awaitToken [.expire]) = .next t) ∧
      (State.Inv { tiny with env := [.byte 0] } ∧ ∃ t, step { tiny with env := [.byte 0] } = .next t) :=
  ⟨⟨by constructor <;> decide +kernel, exists_of_answers (by decide +kernel)⟩,
    ⟨accepted_inv.2.2.1, exists_of_answers (by decide +kernel)⟩,
    ⟨by constructor <;> decide +kernel, exists_of_answers (by decide +kernel)⟩,
    ⟨by constructor <;> decide +kernel, exists_of_answers (by decide +kernel)⟩,
    ⟨by constructor <;> decide +kernel, exists_of_answers (by decide +kernel)⟩⟩

/-- A received frame; and an application that writes below the boundary. -/
theorem witness_ProtectedRegionNeverChanges :
    State.Inv { tiny with env := signOnFrame.map .byte } ∧
      (∃ t, runSteps 8 { tiny with env := signOnFrame.map .byte } = .next t) ∧ tiny.cfg.boundary ≤ 0x30 ∧
      (∀ c x b, .applicationThenReset [.flash 0 1] c ∈ (applying [.flash 0 1] c).env →
        .flash x b ∈ [ApplicationEffect.flash 0 1] → flashIndex tiny.cfg x.toNat ≠ 0x30) ∧
      ∃ t, runSteps 2 (applying [.flash 0 1] .watchdog) = .next t := by
  refine ⟨by constructor <;> decide +kernel, exists_of_answers (by decide +kernel), by decide +kernel, ?_,
    exists_of_answers (by decide +kernel)⟩
  intro _ x b _ h
  simp only [List.mem_cons, List.not_mem_nil, or_false, ApplicationEffect.flash.injEq] at h
  obtain ⟨rfl, -⟩ := h
  decide +kernel

theorem witness_LockBitsOnlyNarrow :
    (∃ t, step (accepted tiny 1 [0x19, 0, 0, 0, 0]) = .next t) ∧ (∃ t, step (applying effects .external) = .next t) ∧
      (applying effects .external).applicationNext (.lockBits 1) :=
  ⟨exists_of_answers (by decide +kernel), exists_of_answers (by decide +kernel), rfl, effects, .external, [], rfl,
    by decide⟩

theorem witness_ArraysChangeOnlyByTheirCommands :
    (∃ t, step (accepted tiny 1 packet) = .next t) ∧ (∃ t, step (trusted ⟨true, true, false, false⟩) = .next t) ∧
      (∃ t, step { tiny with env := [.reset .powerOn] } = .next t) ∧ ∃ t, step (applying effects .watchdog) = .next t :=
  ⟨exists_of_answers (by decide +kernel), exists_of_answers (by decide +kernel), exists_of_answers (by decide +kernel),
    exists_of_answers (by decide +kernel)⟩

theorem witness_FrontierAdvancesPageByPage :
    (accepted tiny 1 packet).Inv ∧ (∃ t, step (accepted tiny 1 packet) = .next t) ∧ (accepted tiny 1 [0x12]).Inv ∧
      (∃ t, step (accepted tiny 1 [0x12]) = .next t) :=
  ⟨accepted_inv.1, exists_of_answers (by decide +kernel), accepted_inv.2.1, exists_of_answers (by decide +kernel)⟩

/-- A Program flash, and a Read flash of an odd size. -/
theorem witness_AddressStaysEven :
    (accepted tiny 1 [0x14, 0, 3]).Inv ∧ (accepted tiny 1 [0x14, 0, 3]).currentAddress.toNat % 2 = 0 ∧
      (∃ t, step (accepted tiny 1 [0x14, 0, 3]) = .next t) ∧ (∃ t, step (accepted tiny 1 packet) = .next t) :=
  ⟨accepted_inv.2.2.2.2.1, by decide +kernel, exists_of_answers (by decide +kernel), exists_of_answers (by decide +kernel)⟩

end Sys2Proof.Tests
end

section
/-! PROOFS. Soundness of the frame decoder: from `AwaitStart` on, the bytes received always end in the part of a frame
that the decoder's state stands for, so `Process` stands for a whole frame. -/

namespace Sys2Proof

/-- The low length byte does not reach the high one (40_framer R105). -/
theorem byteOf_one_or_setWidth (l : Half) (b : Byte) : byteOf (l ||| b.setWidth 16) 1 = byteOf l 1 := by
  simp only [byteOf]
  apply BitVec.eq_of_getLsbD_eq
  intro i hi
  simp [hi]

/-- The low length byte is read back as it was or-ed in (40_framer R105). -/
theorem byteOf_zero_or_setWidth {l : Half} (h : byteOf l 0 = 0) (b : Byte) : byteOf (l ||| b.setWidth 16) 0 = b := by
  have hb : byteOf (l ||| b.setWidth 16) 0 = byteOf l 0 ||| b := by
    simp only [byteOf]
    apply BitVec.eq_of_getLsbD_eq
    intro i hi
    simp [hi, show i < 16 by omega]
  rw [hb, h, BitVec.ofNat_eq_ofNat, BitVec.zero_or]

@[simp] theorem byteOf_one_halfOf (hi lo : Byte) : byteOf (halfOf hi lo) 1 = hi :=
  BitVec.extractLsb'_append_eq_left

@[simp] theorem byteOf_zero_halfOf (hi lo : Byte) : byteOf (halfOf hi lo) 0 = lo :=
  BitVec.extractLsb'_append_eq_right

namespace Machine

@[simp] theorem receive_cfg (s : State) (bs : List Byte) : (s.receive bs).cfg = s.cfg := by
  induction bs generalizing s with
  | nil => rfl
  | cons b bs ih => rw [receive_cons, ih, decodeByte_cfg]

theorem receive_concat (s : State) (bs : List Byte) (b : Byte) :
    s.receive (bs ++ [b]) = (s.receive bs).decodeByte b := by
  rw [receive_append, receive_cons, receive_nil]

theorem xorBytes_concat (bs : List Byte) (b : Byte) : xorBytes (bs ++ [b]) = xorBytes bs ^^^ b := by
  simp [xorBytes]

theorem frameBody_concat (c : Config) (seq : Byte) (len : Half) (payload : List Byte) (b : Byte) :
    frameBody c seq len payload ++ [b] = frameBody c seq len (payload ++ [b]) := by
  simp [frameBody]

/-- A received length the decoder goes on with (30_encoding R74). -/
def State.LengthInRange (s : State) : Prop := 1 ≤ s.len.toNat ∧ s.len.toNat ≤ s.cfg.msgBufSize

/-- The bytes since the start marker, as the decoder's state stands for them (30_encoding R70, 40_framer R102 to
R108). -/
def State.Layout (s : State) (part : List Byte) : Prop :=
  match s.fstate with
  | .awaitStart => part = []
  | .awaitSequence => part = [s.cfg.start]
  | .awaitLengthHigh => part = [s.cfg.start, s.seq]
  | .awaitLengthLow => part = [s.cfg.start, s.seq, byteOf s.len 1] ∧ byteOf s.len 0 = 0
  | .awaitToken => part = [s.cfg.start, s.seq, byteOf s.len 1, byteOf s.len 0] ∧ s.LengthInRange
  | .awaitPayloadByte => s.LengthInRange ∧ ∃ payload : List Byte,
      part = frameBody s.cfg s.seq s.len payload ∧ payload.length = s.idx.toNat ∧ s.idx.toNat < s.len.toNat
  | .awaitChecksum => s.LengthInRange ∧ ∃ payload : List Byte,
      part = frameBody s.cfg s.seq s.len payload ∧ payload.length = s.len.toNat
  | .process => s.LengthInRange ∧ ∃ payload : List Byte,
      part = frame s.cfg s.seq s.len payload ∧ payload.length = s.len.toNat

/-- The decoder is inside a frame: `cksum` counts. -/
def State.Receiving (s : State) : Prop := s.fstate ≠ .awaitStart ∧ s.fstate ≠ .process

/-- The invariant of the decoder: `part` has the layout of the frame so far, and inside a frame `cksum` is the exclusive
or of its bytes (30_encoding R72). -/
structure State.HasRead (s : State) (part : List Byte) : Prop where
  layout : s.Layout part
  cksum : s.Receiving → s.cksum = xorBytes part

theorem hasRead_nil {s : State} (h : s.fstate = .awaitStart) : s.HasRead [] where
  layout := by simp only [State.Layout, h]
  cksum hr := absurd h hr.1

/-- Inside a frame every byte is folded into `cksum` (40_framer R103 to R107). -/
theorem decodeByte_cksum {s : State} {b : Byte} (hs : s.Receiving) (ht : (s.decodeByte b).Receiving) :
    (s.decodeByte b).cksum = s.cksum ^^^ b := by
  obtain ⟨hstart, hprocess⟩ := ht
  cases h : s.fstate with
  | awaitStart => exact absurd h hs.1
  | process => exact absurd h hs.2
  | awaitSequence | awaitLengthHigh | awaitLengthLow | awaitPayloadByte => simp only [State.decodeByte, h]
  | awaitToken | awaitChecksum =>
    simp only [State.decodeByte, h] at hstart hprocess ⊢
    split <;> simp_all

/-- A byte received while the decoder waits for a start marker begins a frame or is dropped (40_framer R102). -/
theorem decodeByte_awaitStart {s : State} (h : s.fstate = .awaitStart) (b : Byte) :
    (s.decodeByte b).fstate = .awaitStart ∨ (s.decodeByte b).HasRead [b] := by
  by_cases hb : b = s.cfg.start
  · have ht : s.decodeByte b = { s with cksum := b, fstate := .awaitSequence } := by
      simp only [State.decodeByte, h, if_pos hb]
    rw [ht]
    exact .inr ⟨by simp only [State.Layout, hb], fun _ => by simp [xorBytes]⟩
  · left
    simp only [State.decodeByte, h, if_neg hb]

/-- A byte received inside a frame gives the frame's next part, or the decoder restarts (40_framer R103 to R108). -/
theorem decodeByte_layout {s : State} {part : List Byte} (hr : s.Receiving) (h : s.HasRead part) (b : Byte) :
    (s.decodeByte b).fstate = .awaitStart ∨ (s.decodeByte b).Layout (part ++ [b]) := by
  have hl := h.layout
  cases hf : s.fstate with
  | awaitStart => exact absurd hf hr.1
  | process => exact absurd hf hr.2
  | awaitSequence | awaitLengthHigh =>
    simp only [State.Layout, hf] at hl
    right
    simp [State.decodeByte, hf, State.Layout, hl]
  | awaitLengthLow =>
    simp only [State.Layout, hf] at hl
    obtain ⟨rfl, hlow⟩ := hl
    by_cases hbad : s.len ||| b.setWidth 16 = 0 ∨ s.cfg.msgBufSize < (s.len ||| b.setWidth 16).toNat
    · left
      simp only [State.decodeByte, hf, if_pos hbad]
    · right
      simp only [State.decodeByte, hf, if_neg hbad, State.Layout]
      refine ⟨by simp [byteOf_one_or_setWidth, byteOf_zero_or_setWidth hlow], ?_⟩
      obtain ⟨hne, hle⟩ := not_or.1 hbad
      exact ⟨Nat.pos_of_ne_zero fun h0 => hne (BitVec.eq_of_toNat_eq h0), Nat.le_of_not_lt hle⟩
  | awaitToken =>
    simp only [State.Layout, hf] at hl
    obtain ⟨rfl, hrange⟩ := hl
    by_cases hb : b = s.cfg.token
    · right
      simp only [State.decodeByte, hf, if_pos hb, State.Layout]
      exact ⟨hrange, [], by simp [frameBody, hb], rfl, hrange.1⟩
    · left
      simp only [State.decodeByte, hf, if_neg hb]
  | awaitPayloadByte =>
    simp only [State.Layout, hf] at hl
    obtain ⟨hrange, payload, rfl, hlen, hlt⟩ := hl
    have hidx : (s.idx + 1).toNat = s.idx.toNat + 1 := by
      have := s.len.isLt
      bv_omega
    right
    by_cases hlast : s.idx + 1 = s.len
    · simp only [State.decodeByte, hf, if_pos hlast, State.Layout]
      refine ⟨hrange, payload ++ [b], frameBody_concat .., ?_⟩
      rw [List.length_append, List.length_singleton, hlen, ← hidx, hlast]
    · simp only [State.decodeByte, hf, if_neg hlast, State.Layout]
      refine ⟨hrange, payload ++ [b], frameBody_concat .., ?_, ?_⟩
      · rw [List.length_append, List.length_singleton, hlen, hidx]
      · have : (s.idx + 1).toNat ≠ s.len.toNat := fun h => hlast (BitVec.eq_of_toNat_eq h)
        omega
  | awaitChecksum =>
    simp only [State.Layout, hf] at hl
    obtain ⟨hrange, payload, rfl, hlen⟩ := hl
    by_cases hb : b = s.cksum
    · right
      simp only [State.decodeByte, hf, if_pos hb, State.Layout]
      exact ⟨hrange, payload, by rw [hb, h.cksum hr, frame], hlen⟩
    · left
      simp only [State.decodeByte, hf, if_neg hb]

/-- One received byte keeps the decoder's invariant, or restarts the decoder. -/
theorem decodeByte_hasRead {s : State} {part : List Byte} (h : s.HasRead part) (hp : s.fstate ≠ .process) (b : Byte) :
    (s.decodeByte b).fstate = .awaitStart ∨ (s.decodeByte b).HasRead (part ++ [b]) := by
  by_cases hf : s.fstate = .awaitStart
  · have hpart : part = [] := by simpa only [State.Layout, hf] using h.layout
    rw [hpart]
    exact decodeByte_awaitStart hf b
  · have hr : s.Receiving := ⟨hf, hp⟩
    refine (decodeByte_layout hr h b).imp_right fun hl => ⟨hl, fun ht => ?_⟩
    rw [decodeByte_cksum hr ht, h.cksum hr, xorBytes_concat]

/-- Until `Process` is reached, the bytes received from `AwaitStart` on end in the part of a frame that the decoder's
state stands for. -/
theorem receive_hasRead {s : State} (hs : s.fstate = .awaitStart) (bs : List Byte)
    (hp : (s.receive bs).fstate ≠ .process) : ∃ noise part, bs = noise ++ part ∧ (s.receive bs).HasRead part := by
  induction bs using List.reverseRecOn with
  | nil => exact ⟨[], [], rfl, hasRead_nil hs⟩
  | append_singleton bs b ih =>
    rw [receive_concat] at hp ⊢
    have hbefore : (s.receive bs).fstate ≠ .process := fun h => hp (by rw [decodeByte_of_process h, h])
    obtain ⟨noise, part, rfl, hread⟩ := ih hbefore
    obtain hrestart | hnext := decodeByte_hasRead hread hbefore b
    · exact ⟨noise ++ part ++ [b], [], (List.append_nil _).symm, hasRead_nil hrestart⟩
    · exact ⟨noise, part ++ [b], List.append_assoc .., hnext⟩

/-- Settles O9: the decoder's invariant holds before the last byte (induction on the bytes received), the last byte
does not restart the decoder, and in `Process` the invariant says that a whole frame has been read. -/
theorem onlyFramesAreAccepted : Obligations.OnlyFramesAreAccepted := by
  intro s bs b _ hs hbefore hafter
  obtain ⟨noise, part, rfl, hread⟩ := receive_hasRead hs bs hbefore
  rw [receive_concat] at hafter
  obtain hrestart | hnext := decodeByte_hasRead hread hbefore b
  · rw [hafter] at hrestart
    cases hrestart
  · have hlayout := hnext.layout
    simp only [State.Layout, hafter, State.LengthInRange, decodeByte_cfg, receive_cfg] at hlayout
    obtain ⟨⟨hpos, hle⟩, payload, hframe, hlen⟩ := hlayout
    have hbytes := (List.append_assoc noise part [b]).trans (congrArg (noise ++ ·) hframe)
    exact ⟨noise, _, _, payload, hbytes, hlen.symm, hlen ▸ hpos, hlen ▸ hle⟩

end Machine

end Sys2Proof
end

section
/-! PROOFS. The frame decoder byte by byte, and the transmit stream: what a command's handler leaves for the reply
framer, and that nothing but the step in `Process` sends a byte. -/

namespace Sys2Proof.Machine

/-! ## One received byte, state by state -/

theorem decodeByte_of_awaitStart {s : State} (h : s.fstate = .awaitStart) (b : Byte) :
    s.decodeByte b = if b = s.cfg.start then { s with cksum := b, fstate := .awaitSequence } else s := by
  simp only [State.decodeByte, h]

theorem decodeByte_of_awaitSequence {s : State} (h : s.fstate = .awaitSequence) (b : Byte) :
    s.decodeByte b = { s with seq := b, cksum := s.cksum ^^^ b, fstate := .awaitLengthHigh } := by
  simp only [State.decodeByte, h]

theorem decodeByte_of_awaitLengthHigh {s : State} (h : s.fstate = .awaitLengthHigh) (b : Byte) :
    s.decodeByte b =
      { s with len := b.setWidth 16 <<< 8, cksum := s.cksum ^^^ b, fstate := .awaitLengthLow } := by
  simp only [State.decodeByte, h, halfOf_zero]

theorem decodeByte_of_awaitToken {s : State} (h : s.fstate = .awaitToken) (b : Byte) :
    s.decodeByte b =
      if b = s.cfg.token then { s with cksum := s.cksum ^^^ b, idx := 0, fstate := .awaitPayloadByte }
      else { s with fstate := .awaitStart } := by
  simp only [State.decodeByte, h]

theorem decodeByte_of_awaitPayloadByte {s : State} (h : s.fstate = .awaitPayloadByte) (b : Byte) :
    s.decodeByte b =
      { s with
        msg := s.msg.set s.idx.toNat b
        idx := s.idx + 1
        cksum := s.cksum ^^^ b
        fstate := if s.idx + 1 = s.len then .awaitChecksum else .awaitPayloadByte } := by
  simp only [State.decodeByte, h]

theorem decodeByte_of_awaitChecksum {s : State} (h : s.fstate = .awaitChecksum) (b : Byte) :
    s.decodeByte b = { s with fstate := if b = s.cksum then .process else .awaitStart } := by
  simp only [State.decodeByte, h]
  split <;> rfl

/-- Settles O5: a byte that waits in the loop is the decoder's next input (`step_of_byte`), and the decoder has one
equation per state. -/
theorem decoderFollowsByteRules : Obligations.DecoderFollowsByteRules := by
  intro s b rest hp he
  refine ⟨fun h => ?_, fun h => ?_, fun h => ?_, fun h => ?_, fun h => ?_, fun h => ?_⟩ <;>
    rw [step_of_byte hp (by simp [h]) he]
  · rw [decodeByte_of_awaitStart h]
    by_cases hb : b = s.cfg.start
    · rw [if_pos hb, if_pos hb, hb]
    · rw [if_neg hb, if_neg hb]
  · rw [decodeByte_of_awaitSequence h]
  · rw [decodeByte_of_awaitLengthHigh h]
  · rw [decodeByte_of_awaitToken h]
    by_cases hb : b = s.cfg.token
    · rw [if_pos hb, if_pos hb]
    · rw [if_neg hb, if_neg hb]
  · rw [decodeByte_of_awaitPayloadByte h]
  · rw [decodeByte_of_awaitChecksum h]

/-! ## What is decoded from where -/

theorem operandByte_eq_ok {m : List Byte} {offset : Nat} {k : Byte → Except Reject Instr} {i : Instr} :
    operandByte m offset k = .ok i ↔ ∃ b, m[offset]? = some b ∧ k b = .ok i := by
  unfold operandByte
  cases m[offset]? <;> simp

/-- What is decoded is not the replay. -/
def NoReplay (r : Except Reject Instr) : Prop :=
  ∀ source destination size flags, r ≠ .ok (.selfUpdateReplay source destination size flags)

theorem NoReplay.ite {p : Prop} [Decidable p] {a b : Except Reject Instr} (ha : NoReplay a) (hb : NoReplay b) :
    NoReplay (if p then a else b) := by
  split
  · exact ha
  · exact hb

theorem NoReplay.operandByte {m : List Byte} {offset : Nat} {k : Byte → Except Reject Instr}
    (hk : ∀ b, NoReplay (k b)) : NoReplay (operandByte m offset k) := by
  intro source destination size flags h
  obtain ⟨b, -, hb⟩ := operandByte_eq_ok.1 h
  exact hk b source destination size flags hb

/-- No request asks for the replay (30_encoding R80): that row of the table is fetched from the mailbox. -/
theorem decode_request_noReplay (c : Config) (m : List Byte) : NoReplay (decode c (.request m)) := by
  refine .operandByte fun op => ?_
  repeat' refine .ite ?_ ?_
  all_goals simp [NoReplay, operandSize, operandByte_eq_ok]

/-- The mailbox asks for nothing but the replay (46_self_update R216). -/
theorem decode_mailbox_ok {c : Config} {d : Descriptor} {i : Instr} (h : decode c (.mailbox d) = .ok i) :
    i = .selfUpdateReplay d.sourceAddress d.destinationAddress d.remainingSize d.flags := by
  simp only [decode, decodeMailbox] at h
  split at h <;> cases h
  rfl

/-! ## What a handler leaves for the reply framer -/

/-- Between two states of one command before its reply, what the reply frame is made of besides the reply's body, and
the stream it goes to. -/
structure State.SameExchange (s u : State) : Prop where
  cfg : u.cfg = s.cfg
  seq : u.seq = s.seq
  msg : u.msg = s.msg
  tx : u.tx = s.tx

theorem State.SameExchange.trans {s u v : State} (h : s.SameExchange u) (h' : u.SameExchange v) : s.SameExchange v where
  cfg := h'.cfg.trans h.cfg
  seq := h'.seq.trans h.seq
  msg := h'.msg.trans h.msg
  tx := h'.tx.trans h.tx

/-- The write step of Program flash writes the page buffer, flash and the address only (44_cmd_program R183). -/
theorem writeStep_sameExchange {s u : State} {a0 : Word} {size : Half} {data : List Byte}
    (h : s.writeStep a0 size data = .next u) : s.SameExchange u := by
  unfold State.writeStep at h
  split_ifs at h <;> cases h
  · obtain ⟨p, k, hf⟩ := fillWords_state (data.take size.toNat) s
    rw [hf]
    exact ⟨rfl, rfl, rfl, rfl⟩
  · exact ⟨rfl, rfl, rfl, rfl⟩

/-- The handler's contract (40_framer R113): whatever a request's command does, its last act is one reply of at least a
status byte, and up to there the exchange with the host is untouched. -/
theorem exec_ends_in_reply {i : Instr} {s t : State} (hi : NoReplay (.ok i)) (h : exec i s = .next t) :
    ∃ u body, s.SameExchange u ∧ 1 ≤ body.length ∧ u.reply body = .next t := by
  cases i with
  | selfUpdateReplay source destination size flags => exact absurd rfl (hi source destination size flags)
  | signOn | getParameter _ | enterProgmode | leaveProgmode | setParameter | readSignature _ | readLock | readFuse _ _
  | programLock _ | chipErase | loadAddress _ | setUploadSize _ | unrecognised _ =>
    refine ⟨_, _, ?_, ?_, h⟩
    · exact ⟨rfl, rfl, rfl, rfl⟩
    · exact Nat.le_add_left 1 _
  | spiMulti sub sidx =>
    simp only [exec, execSpiMulti] at h
    split at h
    · exact ⟨s, _, ⟨rfl, rfl, rfl, rfl⟩, Nat.le_add_left 1 _, h⟩
    · exact ⟨s, [s.cfg.statusFailed], ⟨rfl, rfl, rfl, rfl⟩, Nat.le_refl 1, h⟩
  | programFlash size data =>
    simp only [exec, execProgramFlash] at h
    split at h
    case h_1 u hu =>
      have hbefore : s.SameExchange (s.progressOnWrite s.currentAddress size).eraseAhead := by
        constructor <;> simp [State.progressOnWrite]
      exact ⟨u, [s.cfg.statusOk], hbefore.trans (writeStep_sameExchange hu), Nat.le_refl 1, h⟩
    all_goals cases h
  | programEeprom size data =>
    simp only [exec, execProgramEeprom] at h
    split at h
    · obtain ⟨e, a, hw⟩ := eeWriteBytes_state (data.take size.toNat) s
      rw [hw] at h
      refine ⟨_, [s.cfg.statusOk], ?_, Nat.le_refl 1, h⟩
      exact ⟨rfl, rfl, rfl, rfl⟩
    · cases h
  | readFlash size =>
    obtain ⟨a, k, hr⟩ := flashReadBytes_state size.toNat (s.progressOnRead s.currentAddress size)
    simp only [exec, execReadFlash, hr] at h
    refine ⟨_, _, ?_, ?_, h⟩
    · constructor <;> simp [State.progressOnRead]
    · simp
  | readEeprom size =>
    obtain ⟨a, hr⟩ := eeReadBytes_state size.toNat s
    simp only [exec, execReadEeprom, hr] at h
    refine ⟨_, _, ?_, ?_, h⟩
    · exact ⟨rfl, rfl, rfl, rfl⟩
    · simp

/-- What the reply framer finds after a request's handler (40_framer R113, R117): the stream and the sequence number as
they were, and a reply of at least an opcode and a status that lies in the buffer. -/
structure State.ReadyToSend (s u : State) : Prop where
  cfg : u.cfg = s.cfg
  seq : u.seq = s.seq
  tx : u.tx = s.tx
  two_le_len : 2 ≤ u.len.toNat
  len_le : u.len.toNat ≤ u.msg.length

theorem exec_readyToSend {i : Instr} {s u : State} (hsize : s.cfg.msgBufSize < 2 ^ 16)
    (hmsg : s.msg.length = s.cfg.msgBufSize) (hi : decode s.cfg (.request s.msg) = .ok i) (h : exec i s = .next u) :
    s.ReadyToSend u := by
  obtain ⟨v, body, hv, hbody, hr⟩ := exec_ends_in_reply (hi ▸ decode_request_noReplay s.cfg s.msg) h
  obtain ⟨hfit, rfl⟩ := reply_cases hr
  rw [hv.cfg] at hfit
  have hlen : (BitVec.ofNat 16 (1 + body.length)).toNat = 1 + body.length :=
    Nat.mod_eq_of_lt (Nat.lt_of_le_of_lt hfit hsize)
  refine ⟨hv.cfg, hv.seq, hv.tx, ?_, ?_⟩ <;> simp only [hlen]
  · omega
  · rw [overlay_length, hv.msg, hmsg]
    exact hfit

/-- A whole frame is six bytes longer than its payload (30_encoding R70). -/
@[simp] theorem frame_length (c : Config) (seq : Byte) (len : Half) (payload : List Byte) :
    (frame c seq len payload).length = payload.length + 6 := by
  simp [frame, frameBody]

/-- What goes out after the handler (40_framer R117): a first part of one frame, the whole of it from the frame's length
on. -/
theorem State.ReadyToSend.frame_part {s u : State} (h : s.ReadyToSend u) (sent : Nat) :
    ∃ payload : List Byte, 2 ≤ payload.length ∧
      u.tx ++ (frame u.cfg u.seq u.len (u.msg.take u.len.toNat)).take sent =
        s.tx ++ (frame s.cfg s.seq (BitVec.ofNat 16 payload.length) payload).take sent ∧
      payload.length = u.len.toNat := by
  have hlen : (u.msg.take u.len.toNat).length = u.len.toNat := List.length_take_of_le h.len_le
  refine ⟨u.msg.take u.len.toNat, hlen.symm ▸ h.two_le_len, ?_, hlen⟩
  rw [hlen, BitVec.ofNat_toNat, BitVec.setWidth_eq, h.tx, h.cfg, h.seq]

/-! ## The step in `Process` -/

@[simp] theorem afterReset_tx (s : State) (cause : ResetCause) : (s.afterReset cause).tx = s.tx := by
  obtain ⟨-, -, -, -, -, -, -, htx, -⟩ := afterReset_keeps s cause
  exact htx

/-- Everything a command with a reset inside it can do (70_reset R277). -/
theorem interrupted_cases {i : Instr} {cause : ResetCause} {ops sent : Nat} {s t : State}
    (h : interrupted i cause ops sent s = .next t) :
    (∃ u, cutCommand i ops s = some u ∧ t = u.afterReset cause) ∨
      ∃ u, cutCommand i ops s = none ∧ exec i s = .next u ∧ t = (u.sendPart sent).afterReset cause := by
  unfold interrupted at h
  split at h
  · cases h
    exact .inl ⟨_, ‹_›, rfl⟩
  · split at h <;> cases h
    exact .inr ⟨_, ‹_›, ‹_›, rfl⟩

/-- Everything a step in `Process` can do (40_framer R109): the decoded command and its reply, or a reset inside
them. -/
theorem processStep_cases {s t : State} (h : processStep s = .next t) :
    ∃ i, decode s.cfg (.request s.msg) = .ok i ∧
      ((∃ cause ops sent rest, s.env = .resetInside cause ops sent :: rest ∧
          interrupted i cause ops sent { s with env := rest } = .next t) ∨
        ∃ u, exec i s = .next u ∧ t = u.finishCommand) := by
  unfold processStep at h
  split at h
  · refine ⟨_, ‹_›, ?_⟩
    split at h
    · exact .inl ⟨_, _, _, _, ‹_›, h⟩
    · split at h <;> cases h
      exact .inr ⟨_, ‹_›, rfl⟩
  · cases h

/-- The step in `Process` sends one frame, or a first part of one when a reset arrives inside it (40_framer R115). -/
theorem processStep_sends {s t : State} (hs : s.Inv) (h : processStep s = .next t) :
    ∃ (payload : List Byte) (sent : Nat), 2 ≤ payload.length ∧
      t.tx = s.tx ++ (frame s.cfg s.seq (BitVec.ofNat 16 payload.length) payload).take sent ∧
      (s.uncut → payload.length + 6 ≤ sent) := by
  obtain ⟨-, -, -, -, -, -, -, -, hsize, -⟩ := hs.cfg_wf
  obtain ⟨i, hi, ⟨cause, ops, sent, rest, henv, hcut⟩ | ⟨u, hu, rfl⟩⟩ := processStep_cases h
  · have hnot : ¬ s.uncut := fun hun => hun cause ops sent rest henv
    obtain ⟨u, hu, rfl⟩ | ⟨u, -, hu, rfl⟩ := interrupted_cases hcut
    · obtain ⟨-, -, -, -, -, -, htx, -⟩ := cutCommand_keeps hu
      exact ⟨[0, 0], 0, Nat.le_refl 2, by simp [htx], fun hun => absurd hun hnot⟩
    · have hready : ({ s with env := rest } : State).ReadyToSend u := exec_readyToSend hsize hs.msg_length hi hu
      obtain ⟨payload, htwo, hpart, -⟩ := hready.frame_part sent
      exact ⟨payload, sent, htwo, by rw [afterReset_tx, State.sendPart_tx, hpart], fun hun => absurd hun hnot⟩
  · have hready : s.ReadyToSend u := exec_readyToSend hsize hs.msg_length hi hu
    obtain ⟨payload, htwo, hpart, hlen⟩ := hready.frame_part (u.len.toNat + 6)
    refine ⟨payload, u.len.toNat + 6, htwo, ?_, fun _ => by rw [hlen]⟩
    have hwhole : (frame u.cfg u.seq u.len (u.msg.take u.len.toNat)).length ≤ u.len.toNat + 6 := by
      rw [frame_length, List.length_take_of_le hready.len_le]
    rw [finishCommand_eq, ← hpart, List.take_of_length_le hwhole]

/-! ## Every other step sends nothing -/

@[simp] theorem enterLoop_tx (s : State) (b : Byte) : (s.enterLoop b).tx = s.tx := by
  rw [enterLoop_eq]

@[simp] theorem receiveGuard_tx (s : State) : s.receiveGuard.tx = s.tx := by
  unfold State.receiveGuard
  split <;> simp

@[simp] theorem runApplication_tx (s : State) (did : List ApplicationEffect) : (s.runApplication did).tx = s.tx := by
  obtain ⟨d, r, f, e, v, h⟩ := runApplication_state s did
  rw [h]

@[simp] theorem waitEvent_tx (s : State) (e : Event) : (s.waitEvent e).tx = s.tx := by
  cases e <;> simp [State.waitEvent]

@[simp] theorem receiveEvent_tx (s : State) (e : Event) : (s.receiveEvent e).tx = s.tx := by
  cases e <;> simp [State.receiveEvent]

theorem waitStep_tx {s t : State} (h : waitStep s = .next t) : t.tx = s.tx := by
  unfold waitStep at h
  split at h <;> cases h <;> simp

theorem loopStep_tx {s t : State} (hf : s.fstate ≠ .process) (h : loopStep s = .next t) : t.tx = s.tx := by
  unfold loopStep at h
  rw [if_neg hf] at h
  split at h <;> cases h <;> simp

theorem handedOffStep_tx {s t : State} (h : handedOffStep s = .next t) : t.tx = s.tx := by
  obtain ⟨e, rest, -, ⟨-, rfl⟩ | ⟨cause, -, rfl⟩⟩ := handedOffStep_cases h
  · rfl
  · rw [afterReset_tx, runApplication_tx]

theorem execSelfUpdateReplay_tx {source destination : Word} {size : Half} {flags : ReplayFlags} {s t : State}
    (h : execSelfUpdateReplay source destination size flags s = .next t) : t.tx = s.tx := by
  unfold execSelfUpdateReplay at h
  split at h <;> cases h
  · rfl
  · obtain ⟨f, r, p, k, hr⟩ := replayPages_state flags size.toNat destination source size.toNat s
    rw [hr]
    rfl

/-- A replay with a reset inside it is always cut before it would reply (46_self_update R216). -/
theorem interrupted_replay_tx {source destination : Word} {size : Half} {flags : ReplayFlags} {cause : ResetCause}
    {ops sent : Nat} {s t : State}
    (h : interrupted (.selfUpdateReplay source destination size flags) cause ops sent s = .next t) : t.tx = s.tx := by
  obtain ⟨u, hu, rfl⟩ | ⟨u, hnone, -⟩ := interrupted_cases h
  · obtain ⟨-, -, -, -, -, -, htx, -⟩ := cutCommand_keeps hu
    rw [afterReset_tx, htx]
  · cases hnone

theorem replayStep_tx {s t : State} (h : replayStep s = .next t) : t.tx = s.tx := by
  unfold replayStep at h
  split at h
  · split at h
    · cases decode_mailbox_ok ‹_›
      exact (interrupted_replay_tx h :)
    · cases h
      simp
  · split at h
    · cases decode_mailbox_ok ‹_›
      exact (execSelfUpdateReplay_tx h :)
    · cases h
      simp

/-- Settles O14: in `Process` the handler ends in one reply, which the framer sends (`processStep_sends`); in every
other phase or decoder state the step leaves the stream alone. -/
theorem oneReplyPerFrame : Obligations.OneReplyPerFrame := by
  intro s t hs h
  refine ⟨fun hp hf => ?_, fun hother => ?_⟩
  · simp only [step, hp, loopStep, if_pos hf] at h
    exact processStep_sends hs h
  · unfold step at h
    split at h
    · exact replayStep_tx h
    · exact waitStep_tx h
    · exact loopStep_tx (fun hf => hother ⟨‹_›, hf⟩) h
    · exact handedOffStep_tx h

end Sys2Proof.Machine
end

section
/-! PROOFS. The step that runs Leave: which command the buffer holds, what its handler leaves, and what `Process` makes of
an uncut command that ends with the exit flag set. -/

namespace Sys2Proof.Machine

/-- The opcode of Leave is found where the opcodes differ (30_encoding R78): the three rows of R80 compared before it do
not match. -/
theorem decode_of_leaveProgmode {c : Config} {m : List Byte} (hc : c.opcodes.toList.Nodup)
    (h : m[0]? = some c.opcodes.leaveProgmode) : decode c (.request m) = .ok .leaveProgmode := by
  simp only [Opcodes.toList, List.nodup_cons, List.mem_cons, not_or] at hc
  obtain ⟨⟨-, -, hsignOn, -⟩, ⟨-, hgetParameter, -⟩, ⟨henter, -⟩, -⟩ := hc
  refine operandByte_eq_ok.2 ⟨c.opcodes.leaveProgmode, h, ?_⟩
  rw [if_neg (Ne.symm hsignOn), if_neg (Ne.symm hgetParameter), if_neg (Ne.symm henter), if_pos rfl]

/-- The handler of Leave acknowledges and sets the session-exit flag (41_cmd_ident_ack R132). -/
theorem exec_leaveProgmode {s : State} (hm : s.msg.length = s.cfg.msgBufSize) (h : 2 ≤ s.cfg.msgBufSize) :
    exec .leaveProgmode s = .next (s.setExit.withReply [s.cfg.statusOk]) :=
  reply_next (s := s.setExit) (body := [s.cfg.statusOk]) hm h

/-- `Process` without a reset inside it (40_framer R109): the decoded command, then what follows every handler. -/
theorem step_of_process {s u : State} {i : Instr} (hp : s.phase = .loop) (hf : s.fstate = .process) (hun : s.uncut)
    (hi : decode s.cfg (.request s.msg) = .ok i) (hu : exec i s = .next u) : step s = .next u.finishCommand := by
  have hstep : step s = processStep s := by simp only [step, hp, loopStep, if_pos hf]
  rw [hstep, processStep, hi]
  dsimp only
  split
  · exact absurd ‹_› (hun _ _ _ _)
  · rw [hu]

/-- The payload of a reply is the opcode kept at `msg[0]` and the body (30_encoding R76). -/
theorem withReply_payload {s : State} {op : Byte} (h : s.msg[0]? = some op) (body : List Byte) :
    (s.withReply body).msg.take (1 + body.length) = op :: body := by
  obtain ⟨rest, hmsg⟩ : ∃ rest, s.msg = op :: rest := List.head?_eq_some_iff.1 (List.head?_eq_getElem? ▸ h)
  simp [State.withReply, hmsg, Nat.add_comm 1]

/-- Settles O17: the buffer holds Leave, its handler sets the exit flag, and `Process` sends the two-byte reply before
it tests that flag. -/
theorem leaveEndsTheSession : Obligations.LeaveEndsTheSession := by
  intro s hs hsize hp hf hun hop
  obtain ⟨-, -, -, -, -, -, -, -, -, hnodup, -⟩ := hs.cfg_wf
  have hpayload : (s.setExit.withReply [s.cfg.statusOk]).msg.take 2 = [s.cfg.opcodes.leaveProgmode, s.cfg.statusOk] :=
    withReply_payload (s := s.setExit) hop [s.cfg.statusOk]
  rw [step_of_process hp hf hun (decode_of_leaveProgmode hnodup hop) (exec_leaveProgmode hs.msg_length hsize),
    finishCommand_eq, ← hpayload]
  rfl

end Sys2Proof.Machine
end

section
/-! PROOFS. The first wait: one event as one step, and the time-out that ends it. -/

namespace Sys2Proof.Machine

/-- The first wait takes the next event (70_reset R270). -/
theorem step_of_waitEvent {s : State} {e : Event} {rest : List Event} (hp : s.phase = .wait)
    (he : s.env = e :: rest) : step s = .next ({ s with env := rest }.waitEvent e) := by
  have hstep : step s = waitStep s := by simp only [step, hp]
  rw [hstep]
  simp only [waitStep, he]

/-- The outer time-out is `ExitToApplication`, with no test of flash (60_exceptions R246). -/
theorem waitEvent_expire (s : State) : s.waitEvent .expire = s.exitToApplication := rfl

/-- What `ExitToApplication` leaves, as a whole state (70_reset R274). -/
theorem exitToApplication_eq (s : State) : s.exitToApplication = { s with led := false, phase := .handedOff } := rfl

/-- Settles O41: in `Wait` the time-out is the event the step takes, and its handler is `ExitToApplication`. -/
theorem outerTimeoutHandsOff : Obligations.OuterTimeoutHandsOff := by
  intro s rest hp he
  rw [step_of_waitEvent hp he, waitEvent_expire, exitToApplication_eq]

end Sys2Proof.Machine
end

section
/-! PROOFS. The first byte: the event that ends the first wait and opens the loop. -/

namespace Sys2Proof.Machine

/-- A byte ends the first wait by entering the loop, with no other handling (70_reset R270). -/
theorem waitEvent_byte (s : State) (b : Byte) : s.waitEvent (.byte b) = s.enterLoop b := rfl

/-- The start marker as first byte opens the first frame (70_reset R271). -/
theorem enterLoop_start (s : State) :
    s.enterLoop s.cfg.start =
      { s with
        phase := .loop
        led := Config.freeBit s.freeCount
        freeCount := s.freeCount + 1
        cksum := s.cfg.start
        fstate := .awaitSequence } := by
  rw [enterLoop_eq, if_pos rfl, if_pos rfl]

/-- Any other first byte is dropped in `AwaitStart`, with the loop entered all the same (70_reset R270, R271). -/
theorem enterLoop_stray {s : State} {b : Byte} (h : b ≠ s.cfg.start) :
    s.enterLoop b =
      { s with
        phase := .loop
        led := Config.freeBit s.freeCount
        freeCount := s.freeCount + 1
        fstate := .awaitStart } := by
  rw [enterLoop_eq, if_neg h, if_neg h]

/-- Settles O42: in `Wait` the byte is the event the step takes, its handler enters the loop, and the byte is the start
marker or a stray one; the indicator and the counter take the values `enterLoop_eq` gives. -/
theorem firstByteEntersLoop : Obligations.FirstByteEntersLoop := by
  intro s b rest hp he
  refine ⟨Config.freeBit s.freeCount, s.freeCount + 1, ?_⟩
  rw [step_of_waitEvent hp he, waitEvent_byte]
  by_cases hb : b = s.cfg.start
  · rw [if_pos hb, hb]
    exact congrArg _ (enterLoop_start { s with env := rest })
  · rw [if_neg hb]
    exact congrArg _ (enterLoop_stray (s := { s with env := rest }) hb)

end Sys2Proof.Machine
end

section
/-! PROOFS. The encoding: which row of the opcode map a request's first byte selects, the decoder after the encoder, and
the descriptor in RAM. -/

namespace Sys2Proof

open Machine (operandByte_eq_ok)

/-! ## What a decoder's answer satisfies -/

@[simp] theorem operandByte_of_some {m : List Byte} {offset : Nat} {b : Byte} (h : m[offset]? = some b)
    (k : Byte → Except Reject Instr) : operandByte m offset k = k b := by
  simp only [operandByte, h]

/-- Whatever is decoded has a property. -/
def Yields (p : Instr → Prop) (r : Except Reject Instr) : Prop := ∀ i, r = .ok i → p i

theorem yields_ok {p : Instr → Prop} {i : Instr} : Yields p (.ok i) ↔ p i := by
  simp [Yields]

theorem yields_operandByte {p : Instr → Prop} {m : List Byte} {offset : Nat} {k : Byte → Except Reject Instr} :
    Yields p (operandByte m offset k) ↔ ∀ b, m[offset]? = some b → Yields p (k b) := by
  simp only [Yields, operandByte_eq_ok]
  exact ⟨fun h b hb i hi => h i ⟨b, hb, hi⟩, fun h i ⟨b, hb, hi⟩ => h b hb i hi⟩

/-- A property holds of what is decoded if it holds of the row that matches. -/
theorem Yields.ite {p : Instr → Prop} {q : Prop} [Decidable q] {a b : Except Reject Instr}
    (ha : q → Yields p a) (hb : ¬ q → Yields p b) : Yields p (if q then a else b) := by
  split
  · exact ha ‹_›
  · exact hb ‹_›

/-- A command is decoded. -/
def Decodes (p : Instr → Prop) (r : Except Reject Instr) : Prop := ∃ i, r = .ok i ∧ p i

theorem Decodes.ite {p : Instr → Prop} {q : Prop} [Decidable q] {a b : Except Reject Instr}
    (ha : Decodes p a) (hb : ¬ q → Decodes p b) : Decodes p (if q then a else b) := by
  split
  · exact ha
  · exact hb ‹_›

/-! ## The opcode of a command -/

/-- The opcode that selects a command (30_encoding R78, R80); the replay has none. -/
def Instr.opcode (c : Config) : Instr → Byte
  | .signOn => c.opcodes.signOn
  | .getParameter _ => c.opcodes.getParameter
  | .enterProgmode => c.opcodes.enterProgmode
  | .leaveProgmode => c.opcodes.leaveProgmode
  | .setParameter => c.opcodes.setParameter
  | .readSignature _ => c.opcodes.readSignature
  | .readLock => c.opcodes.readLock
  | .readFuse _ _ => c.opcodes.readFuse
  | .programLock _ => c.opcodes.programLock
  | .chipErase => c.opcodes.chipErase
  | .loadAddress _ => c.opcodes.loadAddress
  | .setUploadSize _ => c.opcodes.setUploadSize
  | .programFlash _ _ => c.opcodes.programFlash
  | .programEeprom _ _ => c.opcodes.programEeprom
  | .readFlash _ => c.opcodes.readFlash
  | .readEeprom _ => c.opcodes.readEeprom
  | .spiMulti _ _ => c.opcodes.spiMulti
  | .unrecognised op => op
  | .selfUpdateReplay _ _ _ _ => 0

/-- The status a command's reply begins with (30_encoding R77): `FAILED` for Chip erase and for the default, which
takes the place of SPI multi where its handler is absent. -/
def Instr.status (c : Config) : Instr → Byte
  | .chipErase | .unrecognised _ => c.statusFailed
  | .spiMulti _ _ => if c.spiMultiPresent then c.statusOk else c.statusFailed
  | _ => c.statusOk

/-- The first byte of an encoded request is the command's opcode (30_encoding R75). -/
theorem encode_opcode {c : Config} {i : Instr} {p : List Byte} (h : encode c i = .request p) :
    p[0]? = some (i.opcode c) := by
  cases i <;> simp only [encode, Fetch.request.injEq, reduceCtorEq] at h <;> subst h <;> rfl

/-- What the first byte of a request says of the command decoded from it (30_encoding R80, 42_cmd_device R151): it is
the command's opcode, and the default stands for the opcodes that are not compared. -/
def SelectedBy (c : Config) (op : Byte) (i : Instr) : Prop :=
  op = i.opcode c ∧ (i = .unrecognised op ↔ op ∉ c.recognised)

/-- The opcode at offset 0 selects the command and nothing else does (30_encoding R75, R80). -/
theorem decode_request_selectedBy {c : Config} {m : List Byte} {i : Instr} (h : decode c (.request m) = .ok i) :
    ∃ op, m[0]? = some op ∧ SelectedBy c op i := by
  obtain ⟨op, hop, hrow⟩ := operandByte_eq_ok.1 h
  refine ⟨op, hop, (?_ : Yields (SelectedBy c op) _) i hrow⟩
  repeat' refine .ite (fun _ => ?_) fun _ => ?_
  all_goals simp only [operandSize, yields_operandByte, yields_ok]
  all_goals intros
  all_goals simp [SelectedBy, mem_recognised, Instr.opcode, *]

/-- The first byte of a request that decodes is its command's opcode. -/
theorem decode_request_opcode {c : Config} {m : List Byte} {i : Instr} (h : decode c (.request m) = .ok i) :
    m[0]? = some (i.opcode c) := by
  obtain ⟨op, hop, hi, -⟩ := decode_request_selectedBy h
  rw [hop, hi]

/-- A buffer that reaches every operand decodes, to a row of the table if its opcode is a compared one (30_encoding
R80, R88). -/
theorem decode_of_recognised {c : Config} {m : List Byte} {op : Byte} (hm : 7 ≤ m.length) (hop : m[0]? = some op)
    (h : op ∈ c.recognised) : Decodes (· ≠ .unrecognised op) (decode c (.request m)) := by
  have hb : ∀ k < 7, ∃ b, m[k]? = some b := fun k hk => ⟨m[k], List.getElem?_eq_getElem (by omega)⟩
  obtain ⟨b1, h1⟩ := hb 1 (by decide)
  obtain ⟨b2, h2⟩ := hb 2 (by decide)
  obtain ⟨b3, h3⟩ := hb 3 (by decide)
  obtain ⟨b4, h4⟩ := hb 4 (by decide)
  obtain ⟨b6, h6⟩ := hb 6 (by decide)
  simp only [decode, decodeRequest, operandSize, operandByte_of_some hop, operandByte_of_some h1,
    operandByte_of_some h2, operandByte_of_some h3, operandByte_of_some h4, operandByte_of_some h6]
  repeat' refine .ite ⟨_, rfl, by simp⟩ fun _ => ?_
  exact absurd ((mem_recognised c op).1 h) (by simp [*])

/-- An opcode that is not compared gives the default, whatever follows it (30_encoding R80). -/
theorem decode_of_not_recognised {c : Config} {m : List Byte} {op : Byte} (hop : m[0]? = some op)
    (h : op ∉ c.recognised) : decode c (.request m) = .ok (.unrecognised op) := by
  simp only [mem_recognised, not_or] at h
  obtain ⟨h1, h2, h3, h4, h5, h6, h7, h8, h9, h10, h11, h12, h13, h14, h15, h16, h17⟩ := h
  refine operandByte_eq_ok.2 ⟨op, hop, ?_⟩
  rw [if_neg h1, if_neg h2, if_neg h3, if_neg h4, if_neg h5, if_neg h6, if_neg h7, if_neg h8, if_neg h9, if_neg h10,
    if_neg h11, if_neg h12, if_neg h13, if_neg h14, if_neg h15, if_neg h16, if_neg h17]

/-- Settles O3: an opcode that is not compared gives the default, any other the row that matches. -/
theorem everyOpcodeIsDecoded : Obligations.EveryOpcodeIsDecoded := by
  intro c m op hm hop
  by_cases h : op ∈ c.recognised
  · obtain ⟨i, hi, hne⟩ := decode_of_recognised hm hop h
    exact ⟨i, hi, fun hn => absurd h hn, fun he => absurd he hne⟩
  · exact ⟨_, decode_of_not_recognised hop h, fun _ => rfl, fun _ => h⟩

/-! ## Decoding what was encoded -/

/-- Behind the ten bytes of a program request's head stand its data (30_encoding R81). -/
theorem operandData_program (op hi lo : Byte) {data : List Byte} (tail : List Byte) {size : Half}
    (h : data.length = size.toNat) :
    operandData (op :: hi :: lo :: 0 :: 0 :: 0 :: 0 :: 0 :: 0 :: 0 :: (data ++ tail)) size = data := by
  simp only [operandData, List.drop_succ_cons, List.drop_zero, ← h, List.take_left]

/-- Settles O1: the opcodes differ, so the encoded opcode falls through to its own row of the dispatcher, which reads
each operand where the encoder put it and puts its bytes together again. -/
theorem decodeOfEncodeIsIdentity : Obligations.DecodeOfEncodeIsIdentity := by
  intro c i tail hc hi
  obtain ⟨_, _, _, _, _, _, _, _, _, hnodup, _⟩ := hc
  have hlater : c.opcodes.toList.reverse.Nodup := List.nodup_reverse.2 hnodup
  simp only [Opcodes.toList, List.reverse_cons, List.reverse_nil, List.nil_append, List.cons_append, List.nodup_cons,
    List.mem_cons, List.not_mem_nil, or_false, not_or, List.nodup_nil, not_false_eq_true, and_true] at hlater
  cases i with
  | programFlash size data | programEeprom size data =>
    have hlen : data.length = size.toNat := by simpa [Instr.operandsWf] using hi
    simpa [encode, Fetch.followedBy, decode, decodeRequest, operandSize, operandByte, hlater] using
      operandData_program _ _ _ tail hlen
  | unrecognised op => exact decode_of_not_recognised rfl (by simpa [Instr.operandsWf] using hi)
  | spiMulti sub sidx =>
    have hpresent : c.spiMultiPresent = true := hi
    simp [encode, Fetch.followedBy, decode, decodeRequest, operandByte, hlater, hpresent]
  | selfUpdateReplay source destination size flags =>
    simp [encode, Fetch.followedBy, decode, decodeMailbox]
  | _ =>
    simp [encode, Fetch.followedBy, decode, decodeRequest, operandSize, operandByte, hlater]

/-- Settles O2: the decoder evaluates to the command each word stands for. -/
theorem specWordsDecode : Obligations.SpecWordsDecode := by
  unfold Obligations.SpecWordsDecode
  decide

/-! ## The descriptor in RAM -/

/-- The addresses of a stored descriptor's bytes are those of the layout (46_self_update R229). -/
theorem descriptorCells_addresses (l : MailboxLayout) (d : Descriptor) :
    (descriptorCells l d).map Prod.fst =
      (List.range 4).map (l.ramTop - l.source + ·) ++ (List.range 4).map (l.ramTop - l.destination + ·) ++
        (List.range 2).map (l.ramTop - l.size + ·) ++ [l.ramTop - l.flags] ++
        (List.range 4).map (l.ramTop - l.magic + ·) := by
  simp [descriptorCells, Function.comp_def]

/-- RAM that holds every byte of a stored descriptor stands for that descriptor (46_self_update R229). -/
theorem descriptorOfRam_of_cells {l : MailboxLayout} (hl : l.Wf) {d : Descriptor} {ram : Nat → Byte}
    (h : ∀ cell ∈ descriptorCells l d, ram cell.1 = cell.2) : descriptorOfRam l ram = d := by
  simp only [descriptorCells, List.range_succ_eq_map, List.range_zero, List.map_cons, List.map_nil, List.cons_append,
    List.nil_append, List.forall_mem_cons, Nat.succ_eq_add_one, Nat.zero_add, Nat.reduceAdd, Nat.add_zero] at h
  obtain ⟨s0, s1, s2, s3, d0, d1, d2, d3, n0, n1, hf, m0, m1, m2, m3, -⟩ := h
  simp only [descriptorOfRam, descriptorOfRam.wordAt, s0, s1, s2, s3, d0, d1, d2, d3, n0, n1, hf, m0, m1, m2, m3,
    wordOf_byteOf, halfOf_byteOf, flagsOfByte_flagsByte hl]

/-- Settles O4: the layout's addresses differ, so every byte is read back as it was stored. -/
theorem storedDescriptorReadsBack : Obligations.StoredDescriptorReadsBack := by
  intro l ram d hl hram
  have hn : ((descriptorCells l d).map Prod.fst).Nodup := descriptorCells_addresses l d ▸ hl.1
  exact descriptorOfRam_of_cells hl (Machine.storeCells_read hram hn).2

end Sys2Proof
end

section
/-! PROOFS. A whole frame: what the decoder makes of a frame's bytes one after another, and why a frame with a byte
replaced is not accepted. -/

namespace Sys2Proof.Machine

/-! ## The exclusive or of a list of bytes -/

@[simp] theorem xorBytes_cons (b : Byte) (bs : List Byte) : xorBytes (b :: bs) = b ^^^ xorBytes bs := by
  induction bs using List.reverseRecOn with
  | nil => simp [xorBytes]
  | append_singleton bs a ih => rw [← List.cons_append, xorBytes_concat, xorBytes_concat, ih, BitVec.xor_assoc]

theorem xorBytes_append (as bs : List Byte) : xorBytes (as ++ bs) = xorBytes as ^^^ xorBytes bs := by
  induction as with
  | nil => simp [xorBytes]
  | cons a as ih => rw [List.cons_append, xorBytes_cons, xorBytes_cons, ih, BitVec.xor_assoc]

/-- Replacing one byte by another changes the exclusive or (30_encoding R72, 40_framer R121). -/
theorem xorBytes_set_ne {bs : List Byte} {p : Nat} {b : Byte} (hp : p < bs.length) (hb : bs[p] ≠ b) :
    xorBytes (bs.set p b) ≠ xorBytes bs := by
  have hbs : bs = bs.take p ++ bs[p] :: bs.drop (p + 1) := by simp
  rw [List.set_eq_take_append_cons_drop, if_pos hp]
  conv_rhs => rw [hbs]
  rw [xorBytes_append, xorBytes_append, xorBytes_cons, xorBytes_cons]
  intro h
  exact hb ((BitVec.xor_left_inj _).1 ((BitVec.xor_right_inj _).1 h)).symm

/-! ## The decoder over a whole frame -/

theorem decodeByte_of_awaitLengthLow {s : State} (h : s.fstate = .awaitLengthLow) (b : Byte) :
    s.decodeByte b =
      { s with
        len := s.len ||| b.setWidth 16
        cksum := s.cksum ^^^ b
        fstate := if s.len ||| b.setWidth 16 = 0 ∨ s.cfg.msgBufSize < (s.len ||| b.setWidth 16).toNat then .awaitStart
          else .awaitToken } := by
  simp only [State.decodeByte, h]

/-- Start marker, sequence number and a length in range (40_framer R102 to R105). -/
theorem receive_header {s : State} (hs : s.fstate = .awaitStart) (seq : Byte) {len : Half} (hpos : 1 ≤ len.toNat)
    (hle : len.toNat ≤ s.cfg.msgBufSize) :
    s.receive [s.cfg.start, seq, byteOf len 1, byteOf len 0] =
      { s with
        seq := seq
        len := len
        cksum := xorBytes [s.cfg.start, seq, byteOf len 1, byteOf len 0]
        fstate := .awaitToken } := by
  have hlen : (byteOf len 1).setWidth 16 <<< 8 ||| (byteOf len 0).setWidth 16 = len := by
    rw [← halfOf_zero, halfOf_or_byteOf]
  have hne : ¬ (len = 0 ∨ s.cfg.msgBufSize < len.toNat) := by
    rintro (rfl | h)
    · exact absurd hpos (by decide)
    · omega
  rw [receive_cons, decodeByte_of_awaitStart hs, if_pos rfl, receive_cons, decodeByte_of_awaitSequence rfl,
    receive_cons, decodeByte_of_awaitLengthHigh rfl, receive_cons, decodeByte_of_awaitLengthLow rfl, receive_nil]
  simp only [hlen, if_neg hne]
  simp [xorBytes, BitVec.xor_assoc]

/-- The payload's last bytes, from any index on (40_framer R107). -/
theorem receive_payload {s : State} {bs : List Byte} (hs : s.fstate = .awaitPayloadByte) (hbs : bs ≠ [])
    (hlen : s.idx.toNat + bs.length = s.len.toNat) (hfit : s.len.toNat ≤ s.msg.length) :
    s.receive bs =
      { s with
        msg := overlay s.msg s.idx.toNat bs
        idx := s.len
        cksum := s.cksum ^^^ xorBytes bs
        fstate := .awaitChecksum } := by
  induction bs generalizing s with
  | nil => exact absurd rfl hbs
  | cons b bs ih =>
    have hidx : (s.idx + 1).toNat = s.idx.toNat + 1 := by
      have := s.len.isLt
      simp only [List.length_cons] at hlen
      bv_omega
    rw [receive_cons, decodeByte_of_awaitPayloadByte hs]
    cases bs with
    | nil =>
      have hlast : s.idx + 1 = s.len := BitVec.eq_of_toNat_eq (hidx.trans hlen)
      rw [if_pos hlast, hlast]
      simp [overlay, xorBytes]
    | cons b' bs =>
      have hmore : s.idx + 1 ≠ s.len := fun h => by
        rw [← h, hidx] at hlen
        simp at hlen
      rw [if_neg hmore, ih rfl (List.cons_ne_nil _ _) (by simp only [hidx, List.length_cons] at hlen ⊢; omega)
        (by simpa using hfit)]
      simp only [hidx, overlay, xorBytes_cons, BitVec.xor_assoc]

/-- A whole frame but for its checksum: the payload stands in the buffer, its length and index in their registers
(40_framer R102 to R107). -/
theorem receive_frameBody {s : State} (hs : s.fstate = .awaitStart) (hm : s.msg.length = s.cfg.msgBufSize)
    (hsize : s.cfg.msgBufSize < 2 ^ 16) (seq : Byte) {payload : List Byte} (hpos : 1 ≤ payload.length)
    (hle : payload.length ≤ s.cfg.msgBufSize) :
    s.receive (frameBody s.cfg seq (BitVec.ofNat 16 payload.length) payload) =
      { s with
        seq := seq
        len := BitVec.ofNat 16 payload.length
        idx := BitVec.ofNat 16 payload.length
        cksum := xorBytes (frameBody s.cfg seq (BitVec.ofNat 16 payload.length) payload)
        msg := payload ++ s.msg.drop payload.length
        fstate := .awaitChecksum } := by
  have hlen : (BitVec.ofNat 16 payload.length).toNat = payload.length := Nat.mod_eq_of_lt (by omega)
  have hsplit : ∀ len : Half, frameBody s.cfg seq len payload =
      [s.cfg.start, seq, byteOf len 1, byteOf len 0] ++ (s.cfg.token :: payload) := fun _ => rfl
  have hne : payload ≠ [] := List.ne_nil_of_length_pos hpos
  rw [hsplit, receive_append, receive_header hs seq (by omega) (by omega), receive_cons, decodeByte_of_awaitToken rfl,
    if_pos rfl, receive_payload rfl hne (by simp [hlen]) (by simp [hlen, hm, hle]), xorBytes_append]
  simp [overlay_eq (m := s.msg) (i := 0) (bs := payload) (by omega), BitVec.xor_assoc]

/-- The byte after them is the checksum (40_framer R108). -/
theorem receive_frameBody_concat {s : State} (hs : s.fstate = .awaitStart) (hm : s.msg.length = s.cfg.msgBufSize)
    (hsize : s.cfg.msgBufSize < 2 ^ 16) (seq : Byte) {payload : List Byte} (hpos : 1 ≤ payload.length)
    (hle : payload.length ≤ s.cfg.msgBufSize) (last : Byte) :
    s.receive (frameBody s.cfg seq (BitVec.ofNat 16 payload.length) payload ++ [last]) =
      { s with
        seq := seq
        len := BitVec.ofNat 16 payload.length
        idx := BitVec.ofNat 16 payload.length
        cksum := xorBytes (frameBody s.cfg seq (BitVec.ofNat 16 payload.length) payload)
        msg := payload ++ s.msg.drop payload.length
        fstate := if last = xorBytes (frameBody s.cfg seq (BitVec.ofNat 16 payload.length) payload) then .process
          else .awaitStart } := by
  rw [receive_concat, receive_frameBody hs hm hsize seq hpos hle, decodeByte_of_awaitChecksum rfl]

/-! ## Received bytes as steps -/

/-- Bytes that wait in the loop are received one in a step, as long as the last of them finds the decoder still
receiving (40_framer R101). -/
theorem runSteps_bytes {s : State} {bs : List Byte} {last : Byte} {rest : List Event} (hp : s.phase = .loop)
    (he : s.env = (bs ++ [last]).map .byte ++ rest) (hf : (s.receive bs).fstate ≠ .process) :
    runSteps (bs.length + 1) s = .next { s.receive (bs ++ [last]) with env := rest } := by
  induction bs generalizing s with
  | nil =>
    have hstep : step s = .next { s.decodeByte last with env := rest } := step_of_byte hp hf he
    simp [runSteps, hstep]
  | cons b bs ih =>
    have hs : s.fstate ≠ .process := fun h => hf (by rw [receive_of_process h, h])
    have hstep : step s = .next { s.decodeByte b with env := (bs ++ [last]).map .byte ++ rest } :=
      step_of_byte hp hs he
    rw [List.length_cons, runSteps, hstep]
    dsimp only
    rw [ih (by simpa using hp) rfl (by rw [receive_with_env]; exact hf), receive_with_env]
    rfl

/-- A frame's body and one more byte, received step by step. -/
theorem runSteps_frameBody_concat {s : State} {seq last : Byte} {payload : List Byte} {rest : List Event}
    (hs : s.Inv) (hp : s.phase = .loop) (hf : s.fstate = .awaitStart) (hpos : 1 ≤ payload.length)
    (hle : payload.length ≤ s.cfg.msgBufSize)
    (he : s.env = (frameBody s.cfg seq (BitVec.ofNat 16 payload.length) payload ++ [last]).map .byte ++ rest) :
    runSteps (payload.length + 6) s = .next
      { s with
        env := rest
        seq := seq
        len := BitVec.ofNat 16 payload.length
        idx := BitVec.ofNat 16 payload.length
        cksum := xorBytes (frameBody s.cfg seq (BitVec.ofNat 16 payload.length) payload)
        msg := payload ++ s.msg.drop payload.length
        fstate := if last = xorBytes (frameBody s.cfg seq (BitVec.ofNat 16 payload.length) payload) then .process
          else .awaitStart } := by
  obtain ⟨-, -, -, -, -, -, -, -, hsize, -⟩ := hs.cfg_wf
  have hbody := receive_frameBody hf hs.msg_length hsize seq hpos hle
  have hrun := runSteps_bytes hp he (by simp [hbody])
  rw [receive_frameBody_concat hf hs.msg_length hsize seq hpos hle] at hrun
  rw [← hrun]
  simp [frameBody]

/-- Settles O7: the decoder's registers after the frame's body are those of the frame (`receive_frameBody`, by induction
on the payload), and the last byte is the checksum they hold. -/
theorem wholeFrameIsAccepted : Obligations.WholeFrameIsAccepted := by
  intro s seq payload rest hs hp hf hpos hle he
  rw [runSteps_frameBody_concat hs hp hf hpos hle he, if_pos rfl]

/-- Settles O8: the same run with a last byte that is not the checksum. -/
theorem wrongChecksumIsDropped : Obligations.WrongChecksumIsDropped := by
  intro s seq bad payload rest hs hp hf hpos hle hbad he
  rw [runSteps_frameBody_concat hs hp hf hpos hle he, if_neg hbad, ← hf]

/-! ## A frame with one byte replaced -/

/-- A whole frame is its body and the body's checksum; a byte replaced in the sequence number or the payload gives the
body of another frame of that length, behind it the old checksum (30_encoding R70). -/
theorem frame_set {c : Config} {seq b : Byte} {len : Half} {payload : List Byte} {p : Nat} (hp : p = 1 ∨ 5 ≤ p)
    (hlt : p < (frameBody c seq len payload).length) : ∃ seq' payload', payload'.length = payload.length ∧
      (frameBody c seq len payload).set p b = frameBody c seq' len payload' := by
  obtain rfl | hp := hp
  · exact ⟨b, payload, rfl, rfl⟩
  · obtain ⟨k, rfl⟩ := Nat.exists_eq_add_of_le' hp
    exact ⟨seq, payload.set k b, List.length_set, rfl⟩

/-- Settles O10: in the sequence number and the payload another byte changes the exclusive or, at the end it is no longer
the exclusive or, and another token is refused at once. -/
theorem corruptFrameIsRejected : Obligations.CorruptFrameIsRejected := by
  intro s seq b payload p hc hf hm hpos hle f hlt hne
  obtain ⟨-, -, -, -, -, -, -, -, hsize, -⟩ := hc
  have hlen : (BitVec.ofNat 16 payload.length).toNat = payload.length := Nat.mod_eq_of_lt (by omega)
  refine ⟨fun hp => ?_, ?_⟩
  · by_cases hlast : p < (frameBody s.cfg seq (BitVec.ofNat 16 payload.length) payload).length
    · obtain ⟨seq', payload', hlen', hset⟩ := frame_set (b := b) hp hlast
      have hold : (frameBody s.cfg seq (BitVec.ofNat 16 payload.length) payload)[p] ≠ b := fun h => hne (by
        rw [← h]
        simp only [f, frame]
        rw [List.getElem?_append_left hlast, List.getElem?_eq_getElem hlast])
      have hxor := xorBytes_set_ne hlast hold
      rw [hset, ← hlen'] at hxor
      have hframe : f.set p b = frameBody s.cfg seq' (BitVec.ofNat 16 payload'.length) payload' ++
          [xorBytes (frameBody s.cfg seq (BitVec.ofNat 16 payload'.length) payload)] := by
        simp only [f, frame]
        rw [List.set_append_left _ _ hlast, hset, hlen']
      rw [hframe, receive_frameBody_concat hf hm hsize seq' (by omega) (by omega), if_neg (Ne.symm hxor)]
    · have hend : p = (frameBody s.cfg seq (BitVec.ofNat 16 payload.length) payload).length := by
        simp only [f, frame, List.length_append, List.length_singleton] at hlt
        omega
      have hframe : f.set p b = frameBody s.cfg seq (BitVec.ofNat 16 payload.length) payload ++ [b] := by
        simp [f, frame, hend, List.set_append_right]
      have hb : b ≠ xorBytes (frameBody s.cfg seq (BitVec.ofNat 16 payload.length) payload) := fun h => hne (by
        simp [f, frame, hend, h])
      rw [hframe, receive_frameBody_concat hf hm hsize seq hpos hle, if_neg hb]
  · rintro rfl
    have htoken : b ≠ s.cfg.token := fun h => hne (by simp [f, frame, frameBody, h])
    have hframe : (f.set 4 b).take 5 = [s.cfg.start, seq, byteOf (BitVec.ofNat 16 payload.length) 1,
      byteOf (BitVec.ofNat 16 payload.length) 0] ++ [b] := rfl
    rw [hframe, receive_concat, receive_header hf seq (by omega) (by omega), decodeByte_of_awaitToken rfl,
      if_neg htoken]

/-! ## The length test and the decoder's isolation -/

/-- Settles O6: the byte is the decoder's next input, and the decoder has one equation for the state. -/
theorem lengthIsBounded : Obligations.LengthIsBounded := by
  intro s b rest hp he hf
  rw [step_of_byte hp (by simp [hf]) he, decodeByte_of_awaitLengthLow hf]

/-- Settles O11: one case per decoder state, each by its equation. -/
theorem decoderIsIsolated : Obligations.DecoderIsIsolated := by
  intro s b
  refine ⟨?_, fun t hcfg hfst hseq hlen hidx hck hmsg => ?_, ?_⟩
  · obtain ⟨_, _, _, _, _, _, h⟩ := decodeByte_state s b
    rw [h]
  · cases hf : s.fstate <;> rw [hf] at hfst <;> simp only [State.decodeByte, hf, hfst, hcfg, hlen, hidx, hck, hmsg]
    case awaitStart | awaitToken | awaitChecksum => split <;> simp only [hf, hfst, hseq, hlen, hidx, hck, hmsg, and_self]
    all_goals simp only [hseq, and_self]
  · rintro (hf | hf) h
    · rw [decodeByte_of_awaitToken hf] at h ⊢
      split at h
      · cases h
      · rw [if_neg ‹_›]
    · rw [decodeByte_of_awaitChecksum hf] at h ⊢
      simp only at h
      rw [h]

end Sys2Proof.Machine
end

section
/-! PROOFS. The commands that only answer: what each handler's reply leaves of the whole state. -/

namespace Sys2Proof.Machine

/-! ## Identity and acknowledge commands -/

/-- Settles O15: both handlers are a reply of the status byte alone. -/
theorem acknowledgeOnlyCommands : Obligations.AcknowledgeOnlyCommands :=
  fun _ hm h => ⟨reply_next hm h, reply_next hm h⟩

/-- Settles O16: the handler sets the flag and acknowledges. -/
theorem leaveSetsExitFlag : Obligations.LeaveSetsExitFlag := fun _ hm h => exec_leaveProgmode hm h

/-- Settles O18: the reply is the status, the string's length and the string, three bytes longer than the string with
its opcode. -/
theorem signOnAnswersTheString : Obligations.SignOnAnswersTheString :=
  fun _ hm h => reply_next hm (by simp only [List.length_cons]; omega)

/-- Settles O19: the reply is the status and the row of the parameter table. -/
theorem getParameterAnswersConstants : Obligations.GetParameterAnswersConstants := fun _ _ hm h => reply_next hm h

/-- Settles O20: the reply is the failure status alone. -/
theorem unrecognisedIsAnsweredFailed : Obligations.UnrecognisedIsAnsweredFailed := fun _ _ hm h => reply_next hm h

/-! ## Device commands -/

/-- Settles O21: the reply is the signature byte between two status bytes. -/
theorem readSignatureSelectsByte : Obligations.ReadSignatureSelectsByte := fun _ _ hm h => reply_next hm h

/-- The fuse the two selectors choose (42_cmd_device R144, R146). -/
theorem fuseRead_fuseSelect (s : State) (sel0 sel1 : Byte) :
    s.fuseRead (fuseSelect sel0 sel1) =
      if sel0 = 0x50 then (if sel1 = 0x08 then s.fuseExt else s.fuseLow) else s.fuseHigh := by
  unfold fuseSelect
  split_ifs <;> rfl

/-- Settles O22: both replies are one byte between two status bytes; the fuse is the selected one. -/
theorem lockAndFuseAreReadVerbatim : Obligations.LockAndFuseAreReadVerbatim := by
  intro s sel0 sel1 hm h
  refine ⟨reply_next hm h, ?_⟩
  rw [← fuseRead_fuseSelect]
  exact reply_next hm h

/-- What a lock write keeps is the request or-ed with the bits outside the mask (42_cmd_device R148). -/
theorem not_lockRequest (req : Byte) : ~~~ lockRequest req = req ||| 0xC3 := by revert req; decide

/-- Settles O23: the handler clears the requested bits within the mask, then replies. -/
theorem programLockNarrows : Obligations.ProgramLockNarrows := by
  intro s req hm h
  rw [← not_lockRequest]
  exact reply_next (s := s.lockSet (lockRequest req)) hm h

/-- Settles O24: with the handler present the reply holds the emulated answer, absent it is the default's. -/
theorem spiMultiAnswers : Obligations.SpiMultiAnswers := by
  intro s sub sidx hm h
  refine ⟨fun hpresent => ?_, fun habsent => ?_⟩
  · have hexec : exec (.spiMulti sub sidx) s = s.reply [s.cfg.statusOk, 0, sub, 0, s.spiAnswer sub sidx, s.cfg.statusOk] :=
      if_pos hpresent
    rw [hexec]
    exact reply_next hm h
  · have hexec : exec (.spiMulti sub sidx) s = s.reply [s.cfg.statusFailed] := if_neg (by simp [habsent])
    rw [hexec]
    exact reply_next hm (by simp only [List.length_singleton]; omega)

/-! ## Session commands -/

/-- Settles O25: the handler writes the frontier and nothing else, then replies. -/
theorem chipEraseErasesNothing : Obligations.ChipEraseErasesNothing :=
  fun s hm h => reply_next (s := { s with eraseFrontier := 0 }) hm h

/-- A word address is doubled modulo `2 ^ ADDR_W` (30_encoding R84, 43_cmd_session R164). -/
theorem byteAddress_toNat (c : Config) (waddr : Word) :
    (byteAddress c waddr).toNat = 2 * waddr.toNat % 2 ^ c.addrWidth.bits := by
  rw [byteAddress, truncAddr_toNat, BitVec.toNat_shiftLeft, Nat.mod_mod_of_dvd _ (two_pow_bits_dvd _),
    Nat.shiftLeft_eq, pow_one, Nat.mul_comm]

theorem two_dvd_two_pow_bits (w : AddrWidth) : 2 ∣ 2 ^ w.bits := by cases w <;> decide

/-- Reducing to the register's width keeps an address even or odd. -/
theorem mod_bits_mod_two (w : AddrWidth) (n : Nat) : n % 2 ^ w.bits % 2 = n % 2 :=
  Nat.mod_mod_of_dvd n (two_dvd_two_pow_bits w)

/-- Settles O26: the handler stores the doubled word address, then replies. -/
theorem loadAddressDoubles : Obligations.LoadAddressDoubles := by
  intro s waddr hm h
  refine ⟨byteAddress s.cfg waddr, reply_next (s := { s with currentAddress := byteAddress s.cfg waddr }) hm h,
    byteAddress_toNat s.cfg waddr, ?_⟩
  rw [byteAddress_toNat, mod_bits_mod_two, Nat.mul_mod_right]

/-- Settles O27: the handler stores the total in the wider register and resets the two others, then replies. -/
theorem setUploadSizeResetsProgress : Obligations.SetUploadSizeResetsProgress := by
  intro s total hm h
  refine ⟨total.setWidth 32, ?_, reply_next (s := { s with
    totalUploadSize := total.setWidth 32, bytesTransferred := 0, operationKind := .none }) hm h⟩
  rw [BitVec.toNat_setWidth]
  exact Nat.mod_eq_of_lt (Nat.lt_trans total.isLt (by decide))

/-! ## The step that runs a command -/

theorem step_of_process_fault {s : State} {i : Instr} {f : Fault} (hp : s.phase = .loop) (hf : s.fstate = .process)
    (hun : s.uncut) (hi : decode s.cfg (.request s.msg) = .ok i) (hu : exec i s = .fault f) : step s = .fault f := by
  have hstep : step s = processStep s := by simp only [step, hp, loopStep, if_pos hf]
  rw [hstep, processStep, hi]
  dsimp only
  split
  · exact absurd ‹_› (hun _ _ _ _)
  · rw [hu]

/-- `Replay` with a trusted descriptor and no reset inside it: the watchdog flags are cleared, then the replay runs
(46_self_update R216). -/
theorem step_of_replay {s : State} {i : Instr} (hp : s.phase = .replay) (hun : s.uncut)
    (hi : decode s.cfg (.mailbox s.desc) = .ok i) : step s = exec i s.clearWatchdog := by
  have hstep : step s = replayStep s := by simp only [step, hp]
  rw [hstep, replayStep, hi]
  split
  · exact absurd ‹_› (hun _ _ _ _)
  · rfl

/-- Settles O12: the step in `Process` is the decoded command's handler and what follows every handler
(`finishCommand_eq`), the step in `Replay` the replay. -/
theorem stepRunsDecodedInstruction : Obligations.StepRunsDecodedInstruction := by
  refine ⟨fun s i hp hf hun hi => ⟨fun t ht => ?_, fun f hfault => ?_⟩, fun s i hp hun hi => ?_⟩
  · rw [step_of_process hp hf hun hi ht, finishCommand_eq]
  · exact step_of_process_fault hp hf hun hi hfault
  · exact step_of_replay hp hun hi

/-! ## The status of a reply -/

/-- The last act of a request's handler is a reply that begins with the command's status (30_encoding R76, R77). -/
theorem exec_reply_status {i : Instr} {s t : State} (hi : NoReplay (.ok i)) (h : exec i s = .next t) :
    ∃ u rest, s.SameExchange u ∧ u.reply (i.status s.cfg :: rest) = .next t := by
  cases i with
  | selfUpdateReplay source destination size flags => exact absurd rfl (hi source destination size flags)
  | signOn | getParameter _ | enterProgmode | leaveProgmode | setParameter | readSignature _ | readLock | readFuse _ _
  | programLock _ | chipErase | loadAddress _ | setUploadSize _ | unrecognised _ =>
    refine ⟨_, _, ?_, h⟩
    exact ⟨rfl, rfl, rfl, rfl⟩
  | spiMulti sub sidx =>
    simp only [exec, execSpiMulti] at h
    simp only [Instr.status]
    split at h
    · rw [if_pos ‹_›]
      exact ⟨s, _, ⟨rfl, rfl, rfl, rfl⟩, h⟩
    · rw [if_neg ‹_›]
      exact ⟨s, _, ⟨rfl, rfl, rfl, rfl⟩, h⟩
  | programFlash size data =>
    simp only [exec, execProgramFlash] at h
    split at h
    case h_1 u hu =>
      have hbefore : s.SameExchange (s.progressOnWrite s.currentAddress size).eraseAhead := by
        constructor <;> simp [State.progressOnWrite]
      exact ⟨u, [], hbefore.trans (writeStep_sameExchange hu), h⟩
    all_goals cases h
  | programEeprom size data =>
    simp only [exec, execProgramEeprom] at h
    split at h
    · obtain ⟨e, a, hw⟩ := eeWriteBytes_state (data.take size.toNat) s
      exact ⟨_, [], by rw [hw]; exact ⟨rfl, rfl, rfl, rfl⟩, h⟩
    · cases h
  | readFlash size =>
    obtain ⟨a, k, hr⟩ := flashReadBytes_state size.toNat (s.progressOnRead s.currentAddress size)
    refine ⟨_, _, ?_, h⟩
    rw [hr]
    constructor <;> simp [State.progressOnRead]
  | readEeprom size =>
    obtain ⟨a, hr⟩ := eeReadBytes_state size.toNat s
    refine ⟨_, _, ?_, h⟩
    rw [hr]
    exact ⟨rfl, rfl, rfl, rfl⟩

/-- The status as the request's opcode tells it (30_encoding R77, R80, 42_cmd_device R151). -/
theorem status_of_selectedBy {c : Config} {op : Byte} {i : Instr} (hn : c.opcodes.toList.Nodup)
    (hi : NoReplay (.ok i)) (h : SelectedBy c op i) :
    i.status c = if op = c.opcodes.chipErase ∨ op ∉ c.recognised then c.statusFailed else c.statusOk := by
  obtain ⟨hop, hdefault⟩ := h
  have hlater := List.nodup_reverse.2 hn
  simp only [Opcodes.toList, List.reverse_cons, List.reverse_nil, List.nil_append, List.cons_append, List.nodup_cons,
    List.mem_cons, not_or] at hn hlater
  cases i with
  | selfUpdateReplay source destination size flags => exact absurd rfl (hi source destination size flags)
  | unrecognised o =>
    have hout : op ∉ c.recognised := hdefault.1 (by rw [hop]; rfl)
    rw [if_pos (.inr hout)]
    rfl
  | chipErase =>
    rw [if_pos (.inl hop)]
    rfl
  | spiMulti sub sidx =>
    have hin : op ∈ c.recognised := by simpa using hdefault
    have hne : op ≠ c.opcodes.chipErase := by simp [hop, Instr.opcode, hlater]
    have hpresent : c.spiMultiPresent = true := by simpa [mem_recognised, hop, Instr.opcode, hlater] using hin
    rw [if_neg (by simp [hin, hne])]
    exact if_pos hpresent
  | _ =>
    have hin : op ∈ c.recognised := by simpa using hdefault
    have hne : op ≠ c.opcodes.chipErase := by simp [hop, Instr.opcode, hn, hlater]
    rw [if_neg (by simp [hin, hne])]
    rfl

/-- Settles O13: the handler's reply begins with the command's status behind the opcode kept at `msg[0]`, and the framer
sends it with the sequence number the handler left alone. -/
theorem replyNamesItsRequest : Obligations.ReplyNamesItsRequest := by
  intro s t hs hp hf hun h
  obtain ⟨-, -, -, -, -, -, -, -, hsize, hnodup, -⟩ := hs.cfg_wf
  have hstep : step s = processStep s := by simp only [step, hp, loopStep, if_pos hf]
  obtain ⟨i, hi, ⟨cause, ops, sent, rest, henv, -⟩ | ⟨u, hu, rfl⟩⟩ := processStep_cases (hstep ▸ h)
  · exact absurd henv (hun cause ops sent rest)
  · obtain ⟨op, hop, hsel⟩ := decode_request_selectedBy hi
    have hnoreplay : NoReplay (.ok i) := hi ▸ decode_request_noReplay s.cfg s.msg
    obtain ⟨v, rest, hv, hr⟩ := exec_reply_status hnoreplay hu
    obtain ⟨hfit, -⟩ := reply_cases hr
    rw [reply_next (by rw [hv.msg, hv.cfg, hs.msg_length]) hfit] at hr
    obtain rfl := Host.Outcome.next.inj hr
    rw [hv.cfg] at hfit
    have htwo : 1 + (i.status s.cfg :: rest).length = 2 + rest.length := by simp only [List.length_cons]; omega
    have hlen : (BitVec.ofNat 16 (2 + rest.length)).toNat = 2 + rest.length := Nat.mod_eq_of_lt (by omega)
    refine ⟨op, i.status s.cfg, rest, hop, ?_, htwo ▸ hfit, status_of_selectedBy hnodup hnoreplay hsel⟩
    have hpayload := withReply_payload (s := v) (hv.msg ▸ hop) (i.status s.cfg :: rest)
    rw [htwo] at hpayload
    rw [finishCommand_eq]
    simp only [State.withReply, htwo, hlen] at hpayload ⊢
    rw [hpayload, hv.tx, hv.cfg, hv.seq]

end Sys2Proof.Machine
end

section
/-! PROOFS. What one step can do, said once: an inversion of `step`, and what a command's handler, a reset and the
application's run leave alone. The statements about the boot arbiter, resets and phases follow from it. -/

namespace Sys2Proof.Machine

/-! ## Everything one step can do -/

/-- What a reset finds when it arrives (70_reset R265, R277): the state as it waits, after the application's run, or
inside a command, a reply or a replay. -/
inductive BeforeReset (s : State) (e : Event) (rest : List Event) : State → Prop
  | waiting (hp : s.phase = .wait ∨ (s.phase = .loop ∧ s.fstate ≠ .process)) :
    BeforeReset s e rest { s with env := rest }
  | untrusted (hp : s.phase = .replay) (hm : s.desc.magic ≠ s.cfg.magic) : BeforeReset s e rest { s with env := rest }
  | application (hp : s.phase = .handedOff) :
    BeforeReset s e rest ({ s with env := rest }.runApplication e.applicationEffects)
  | command {i : Instr} {cause : ResetCause} {ops sent : Nat} {u : State} (hp : s.phase = .loop)
    (hf : s.fstate = .process) (he : e = .resetInside cause ops sent) (hi : decode s.cfg (.request s.msg) = .ok i)
    (hu : cutCommand i ops { s with env := rest } = some u) : BeforeReset s e rest u
  | reply {i : Instr} {cause : ResetCause} {ops sent : Nat} {u : State} (hp : s.phase = .loop)
    (hf : s.fstate = .process) (he : e = .resetInside cause ops sent) (hi : decode s.cfg (.request s.msg) = .ok i)
    (hu : exec i { s with env := rest } = .next u) : BeforeReset s e rest (u.sendPart sent)
  | replay {cause : ResetCause} {ops sent : Nat} (hp : s.phase = .replay) (hm : s.desc.magic = s.cfg.magic)
    (he : e = .resetInside cause ops sent) : BeforeReset s e rest
      (cutReplay s.desc.sourceAddress s.desc.destinationAddress s.desc.remainingSize s.desc.flags ops
        { s with env := rest }.clearWatchdog)

/-- Everything one step can do (70_reset R267): the phases' events, and a reset in any of them. -/
inductive Steps (s : State) : State → Prop
  | poll (hp : s.phase = .wait) (he : s.env = [] ∨ ∃ rest, s.env = .quiet :: rest) :
    Steps s { s with env := s.env.tail }.pollWait
  | firstByte {b : Byte} {rest : List Event} (hp : s.phase = .wait) (he : s.env = .byte b :: rest) :
    Steps s ({ s with env := rest }.enterLoop b)
  | timeout {rest : List Event} (hp : s.phase = .wait) (he : s.env = .expire :: rest) :
    Steps s { s with env := rest }.exitToApplication
  | silent (hp : s.phase = .loop) (hf : s.fstate ≠ .process) (he : s.env = [] ∨ ∃ rest, s.env = .quiet :: rest) :
    Steps s { s with env := s.env.tail }
  | byte {b : Byte} {rest : List Event} (hp : s.phase = .loop) (hf : s.fstate ≠ .process)
    (he : s.env = .byte b :: rest) : Steps s ({ s with env := rest }.decodeByte b)
  | guard {rest : List Event} (hp : s.phase = .loop) (hf : s.fstate ≠ .process) (he : s.env = .expire :: rest) :
    Steps s { s with env := rest }.receiveGuard
  | command {i : Instr} {u : State} (hp : s.phase = .loop) (hf : s.fstate = .process)
    (hi : decode s.cfg (.request s.msg) = .ok i) (hu : exec i s = .next u) : Steps s u.finishCommand
  | replay {t : State} (hp : s.phase = .replay) (hm : s.desc.magic = s.cfg.magic)
    (ht : execSelfUpdateReplay s.desc.sourceAddress s.desc.destinationAddress s.desc.remainingSize s.desc.flags
      s.clearWatchdog = .next t) : Steps s t
  | boot (hp : s.phase = .replay) (hm : s.desc.magic ≠ s.cfg.magic) : Steps s s.clearWatchdog.normalBoot
  | passes {e : Event} {rest : List Event} (hp : s.phase = .handedOff) (he : s.env = e :: rest)
    (hc : e.resetCause = none) : Steps s { s with env := rest }
  | reset {e : Event} {rest : List Event} {cause : ResetCause} {u : State} (he : s.env = e :: rest)
    (hc : e.resetCause = some cause) (hu : BeforeReset s e rest u) : Steps s (u.afterReset cause)

theorem decode_mailbox_of_magic {c : Config} {d : Descriptor} (h : d.magic = c.magic) : decode c (.mailbox d) =
    .ok (.selfUpdateReplay d.sourceAddress d.destinationAddress d.remainingSize d.flags) := if_pos h

theorem decode_mailbox_of_ne {c : Config} {d : Descriptor} (h : d.magic ≠ c.magic) :
    decode c (.mailbox d) = .error .noUpdatePending := if_neg h

theorem steps_of_waitStep {s t : State} (hp : s.phase = .wait) (h : waitStep s = .next t) : Steps s t := by
  unfold waitStep at h
  split at h <;> cases h
  next he =>
    have hpoll := Steps.poll hp (.inl he)
    rwa [he, List.tail_nil, ← he] at hpoll
  next e rest he =>
    cases e with
    | byte b => exact .firstByte hp he
    | quiet =>
      have hpoll := Steps.poll hp (.inr ⟨rest, he⟩)
      rwa [he] at hpoll
    | expire => exact .timeout hp he
    | reset | resetInside | applicationThenReset => exact .reset he rfl (.waiting (.inl hp))

theorem steps_of_processStep {s t : State} (hp : s.phase = .loop) (hf : s.fstate = .process)
    (h : processStep s = .next t) : Steps s t := by
  obtain ⟨i, hi, ⟨cause, ops, sent, rest, henv, hcut⟩ | ⟨u, hu, rfl⟩⟩ := processStep_cases h
  · obtain ⟨u, hu, rfl⟩ | ⟨u, -, hu, rfl⟩ := interrupted_cases hcut
    · exact .reset henv rfl (.command hp hf rfl hi hu)
    · exact .reset henv rfl (.reply hp hf rfl hi hu)
  · exact .command hp hf hi hu

theorem steps_of_loopStep {s t : State} (hp : s.phase = .loop) (h : loopStep s = .next t) : Steps s t := by
  unfold loopStep at h
  by_cases hf : s.fstate = .process
  · rw [if_pos hf] at h
    exact steps_of_processStep hp hf h
  · rw [if_neg hf] at h
    split at h <;> cases h
    next he =>
      have hsilent := Steps.silent hp hf (.inl he)
      rwa [he, List.tail_nil, ← he] at hsilent
    next e rest he =>
      cases e with
      | byte b => exact .byte hp hf he
      | quiet =>
        have hsilent := Steps.silent hp hf (.inr ⟨rest, he⟩)
        rwa [he] at hsilent
      | expire => exact .guard hp hf he
      | reset | resetInside | applicationThenReset => exact .reset he rfl (.waiting (.inr ⟨hp, hf⟩))

theorem steps_of_replayStep {s t : State} (hp : s.phase = .replay) (h : replayStep s = .next t) : Steps s t := by
  unfold replayStep at h
  by_cases hm : s.desc.magic = s.cfg.magic
  · simp only [decode_mailbox_of_magic hm] at h
    split at h
    · cases h
      exact .reset ‹_› rfl (.replay hp hm rfl)
    · exact .replay hp hm h
  · simp only [decode_mailbox_of_ne hm] at h
    split at h <;> cases h
    · exact .reset ‹_› rfl (.untrusted hp hm)
    · exact .boot hp hm

theorem steps_of_handedOffStep {s t : State} (hp : s.phase = .handedOff) (h : handedOffStep s = .next t) :
    Steps s t := by
  obtain ⟨e, rest, he, ⟨hc, rfl⟩ | ⟨cause, hc, rfl⟩⟩ := handedOffStep_cases h
  · exact .passes hp he hc
  · exact .reset he hc (.application hp)

/-- The inversion of `step`. -/
theorem steps_of_step {s t : State} (h : step s = .next t) : Steps s t := by
  unfold step at h
  split at h
  · exact steps_of_replayStep ‹_› h
  · exact steps_of_waitStep ‹_› h
  · exact steps_of_loopStep ‹_› h
  · exact steps_of_handedOffStep ‹_› h

/-! ## What a handler, a reset and a part of a command leave alone -/

/-- What a request's handler never touches, nor a command cut short: the phase, the decoder, RAM, the fuses, the boot's
flags and the events (10_state R15). -/
structure State.SameMachine (s u : State) : Prop where
  cfg : u.cfg = s.cfg
  phase : u.phase = s.phase
  fstate : u.fstate = s.fstate
  idx : u.idx = s.idx
  ram : u.ram = s.ram
  fuseLow : u.fuseLow = s.fuseLow
  fuseHigh : u.fuseHigh = s.fuseHigh
  fuseExt : u.fuseExt = s.fuseExt
  env : u.env = s.env

theorem State.SameMachine.trans {s u v : State} (h : s.SameMachine u) (h' : u.SameMachine v) : s.SameMachine v where
  cfg := h'.cfg.trans h.cfg
  phase := h'.phase.trans h.phase
  fstate := h'.fstate.trans h.fstate
  idx := h'.idx.trans h.idx
  ram := h'.ram.trans h.ram
  fuseLow := h'.fuseLow.trans h.fuseLow
  fuseHigh := h'.fuseHigh.trans h.fuseHigh
  fuseExt := h'.fuseExt.trans h.fuseExt
  env := h'.env.trans h.env

theorem reply_sameMachine {s t : State} {body : List Byte} (h : s.reply body = .next t) : s.SameMachine t := by
  obtain ⟨-, rfl⟩ := reply_cases h
  constructor <;> rfl

/-- Everything the replay can do (46_self_update R216 to R227): the hand-off, flash, the mailbox, and the model's own
counter. -/
theorem execSelfUpdateReplay_state {source destination : Word} {size : Half} {flags : ReplayFlags} {s t : State}
    (h : execSelfUpdateReplay source destination size flags s = .next t) : ∃ f r p k d,
      t = { s with phase := .handedOff, flash := f, rwwBlocked := r, pbuf := p, freeCount := k, desc := d } := by
  unfold execSelfUpdateReplay at h
  split at h <;> cases h
  · exact ⟨s.flash, s.rwwBlocked, s.pbuf, s.freeCount, s.desc, rfl⟩
  · obtain ⟨f, r, p, k, hr⟩ := replayPages_state flags size.toNat destination source size.toNat s
    rw [hr]
    exact ⟨f, r, p, _, _, rfl⟩

theorem writeStep_sameMachine {s u : State} {a0 : Word} {size : Half} {data : List Byte}
    (h : s.writeStep a0 size data = .next u) : s.SameMachine u := by
  unfold State.writeStep at h
  split_ifs at h <;> cases h
  · obtain ⟨p, k, hf⟩ := fillWords_state (data.take size.toNat) s
    rw [hf]
    constructor <;> rfl
  · constructor <;> rfl

/-- The handler of a request leaves the machine around the command as it is (40_framer R113). -/
theorem exec_sameMachine {i : Instr} {s t : State} (hi : NoReplay (.ok i)) (h : exec i s = .next t) :
    s.SameMachine t := by
  cases i with
  | selfUpdateReplay source destination size flags => exact absurd rfl (hi source destination size flags)
  | signOn | getParameter _ | enterProgmode | leaveProgmode | setParameter | readSignature _ | readLock | readFuse _ _
  | programLock _ | chipErase | loadAddress _ | setUploadSize _ | unrecognised _ =>
    obtain ⟨-, rfl⟩ := reply_cases h
    constructor <;> rfl
  | spiMulti sub sidx =>
    simp only [exec, execSpiMulti] at h
    split at h <;> exact reply_sameMachine h
  | programFlash size data =>
    simp only [exec, execProgramFlash] at h
    split at h
    case h_1 u hu =>
      have hbefore : s.SameMachine (s.progressOnWrite s.currentAddress size).eraseAhead := by
        constructor <;> simp [State.progressOnWrite]
      exact (hbefore.trans (writeStep_sameMachine hu)).trans (reply_sameMachine h)
    all_goals cases h
  | programEeprom size data =>
    simp only [exec, execProgramEeprom] at h
    split at h
    · obtain ⟨e, a, hw⟩ := eeWriteBytes_state (data.take size.toNat) s
      rw [hw] at h
      obtain ⟨-, rfl⟩ := reply_cases h
      constructor <;> rfl
    · cases h
  | readFlash size =>
    obtain ⟨a, k, hr⟩ := flashReadBytes_state size.toNat (s.progressOnRead s.currentAddress size)
    simp only [exec, execReadFlash, hr] at h
    obtain ⟨-, rfl⟩ := reply_cases h
    constructor <;> simp [State.progressOnRead]
  | readEeprom size =>
    obtain ⟨a, hr⟩ := eeReadBytes_state size.toNat s
    simp only [exec, execReadEeprom, hr] at h
    obtain ⟨-, rfl⟩ := reply_cases h
    constructor <;> rfl

@[simp] theorem afterReset_phase (s : State) (cause : ResetCause) :
    (s.afterReset cause).phase = if cause = .watchdog then .replay else .wait := by
  unfold State.afterReset
  split <;> rfl

/-- Settles O51: one look at the values of a reset, for each cause. -/
theorem resetLeavesTheSpecValues : Obligations.ResetLeavesTheSpecValues := by
  intro s cause
  cases cause <;> simp [State.afterReset, State.resetValues, clearedDescriptor]

/-! ## The boot arbiter -/

/-- The loop's receive takes the next event (40_framer R101). -/
theorem step_of_receiveEvent {s : State} {e : Event} {rest : List Event} (hp : s.phase = .loop)
    (hf : s.fstate ≠ .process) (he : s.env = e :: rest) : step s = .next ({ s with env := rest }.receiveEvent e) := by
  have hstep : step s = loopStep s := by simp only [step, hp]
  rw [hstep]
  simp only [loopStep, if_neg hf, he]

/-- With no event left the receive goes on waiting (40_framer R101). -/
theorem step_of_receive_nothing {s : State} (hp : s.phase = .loop) (hf : s.fstate ≠ .process) (he : s.env = []) :
    step s = .next s := by
  have hstep : step s = loopStep s := by simp only [step, hp]
  rw [hstep]
  simp only [loopStep, if_neg hf, he]

/-- Settles O36: with `DeferRun` the handler is the hand-off. -/
theorem deferRunHandsOff : Obligations.DeferRunHandsOff := fun _ _ _ _ _ h => if_pos h

/-- Settles O37: the mailbox does not decode, so the step is the normal boot. -/
theorem badMagicBootsNormally : Obligations.BadMagicBootsNormally := by
  intro s hp hun hm
  have hstep : step s = replayStep s := by simp only [step, hp]
  rw [hstep, replayStep, decode_mailbox_of_ne hm]
  split
  · exact absurd ‹_› (hun _ _ _ _)
  · rfl

/-- A poll with no event left (70_reset R269). -/
theorem step_of_poll {s : State} (hp : s.phase = .wait) (he : s.env = []) : step s = .next s.pollWait := by
  have hstep : step s = waitStep s := by simp only [step, hp]
  rw [hstep]
  simp only [waitStep, he]

/-- Settles O43: a poll that finds no byte is `pollWait`, with an event or without one. -/
theorem quietPollChangesOnlyTheIndicator : Obligations.QuietPollChangesOnlyTheIndicator := by
  intro s hp
  refine ⟨fun he => ⟨Config.freeBit s.freeCount, s.freeCount + 1, ?_⟩,
    fun rest he => ⟨Config.freeBit s.freeCount, s.freeCount + 1, ?_⟩⟩
  · rw [step_of_poll hp he]
    rfl
  · rw [step_of_waitEvent hp he]
    rfl

/-- Flash holds at least the first word (00_scope R6). -/
theorem two_le_flashSize {c : Config} (hc : c.Wf) : 2 ≤ c.flashSize := by
  obtain ⟨h2, -, -, hb, hb0, hle, -⟩ := hc
  exact (h2.trans (Nat.le_of_dvd hb0 (Nat.dvd_of_mod_eq_zero hb))).trans hle

/-- An enabled region: the test reads the first word of flash (60_exceptions R248). -/
theorem appPresent_of_enabled {s : State} (hc : s.cfg.Wf) (hr : s.rwwBlocked = false) :
    s.appPresent = (decide ((s.flash.read 1 ++ s.flash.read 0 : Half) ≠ s.cfg.erasedWord), s) := by
  have h2 := two_le_flashSize hc
  have h0 : flashIndex s.cfg 0 = 0 := Nat.zero_mod _
  have h1 : flashIndex s.cfg 1 = 1 := Nat.mod_eq_of_lt h2
  simp only [State.appPresent, flashReadByte_open (.inl hr), h0, h1, halfOf]

/-- The test draws free values and changes nothing else. -/
theorem appPresent_state (s : State) : ∃ k, s.appPresent.2 = { s with freeCount := k } := by
  obtain ⟨k, hk⟩ := flashReadByte_state s 0
  obtain ⟨k', hk'⟩ := flashReadByte_state (s.flashReadByte 0).2 1
  exact ⟨k', hk'.trans (by rw [hk])⟩

/-- Everything the receive guard can do (60_exceptions R247). -/
theorem receiveGuard_state (s : State) :
    ∃ p k, (p = s.phase ∨ p = .handedOff) ∧ s.receiveGuard = { s with phase := p, freeCount := k } := by
  obtain ⟨k, hk⟩ := appPresent_state s
  unfold State.receiveGuard
  rw [hk]
  split
  · exact ⟨.handedOff, k, .inr rfl, rfl⟩
  · exact ⟨s.phase, k, .inl rfl, rfl⟩

/-- Settles O44: the guard's test is that of the first word where the region is enabled (`appPresent_of_enabled`), and
draws free values otherwise. -/
theorem receiveGuardTestsTheFirstWord : Obligations.ReceiveGuardTestsTheFirstWord := by
  intro s rest hc hp hf he
  have hstep : step s = .next { s with env := rest }.receiveGuard := step_of_receiveEvent hp hf he
  rw [hstep]
  refine ⟨fun hr => ?_, ?_⟩
  · rw [State.receiveGuard, appPresent_of_enabled (s := { s with env := rest }) hc hr]
    by_cases h : (s.flash.read 1 ++ s.flash.read 0 : Half) ≠ s.cfg.erasedWord
    · simp [h, State.handoff]
    · simp [h, ← hp]
  · obtain ⟨p, k, hpk, h⟩ := receiveGuard_state { s with env := rest }
    exact ⟨p, k, hpk.imp_left (·.trans hp), congrArg _ h⟩

/-- A silent host's event in the loop, with the first word erased, is consumed and nothing else changes. -/
theorem step_of_silence {s : State} (hc : s.cfg.Wf) (hp : s.phase = .loop) (hf : s.fstate ≠ .process)
    (hr : s.rwwBlocked = false) (hw : (s.flash.read 1 ++ s.flash.read 0 : Half) = s.cfg.erasedWord)
    (he : ∀ e ∈ s.env, e = .quiet ∨ e = .expire) : step s = .next { s with env := s.env.tail } := by
  cases henv : s.env with
  | nil => rw [step_of_receive_nothing hp hf henv, List.tail_nil, ← henv]
  | cons e rest =>
    rw [step_of_receiveEvent hp hf henv]
    obtain rfl | rfl := he e (by simp [henv])
    · rfl
    · simp only [State.receiveEvent, State.receiveGuard, appPresent_of_enabled (s := { s with env := rest }) hc hr, hw,
        List.tail_cons]
      simp

/-- Settles O45, by induction on the number of steps: each consumes one event. -/
theorem silentLoopWaitsForEver : Obligations.SilentLoopWaitsForEver := by
  intro s n hc hp hf hr hw he
  induction n generalizing s with
  | zero => rfl
  | succ n ih =>
    have htail : ∀ e ∈ s.env.tail, e = .quiet ∨ e = .expire := fun e hm => he e (List.mem_of_mem_tail hm)
    rw [runSteps, step_of_silence hc hp hf hr hw he]
    dsimp only
    rw [ih { s with env := s.env.tail } hc hp hf hr hw htail, List.drop_tail]

/-! ## After the hand-off -/

theorem step_of_handedOff {s : State} {e : Event} {rest : List Event} (hp : s.phase = .handedOff)
    (he : s.env = e :: rest) (hc : e.resetCause = none) : step s = .next { s with env := rest } := by
  have hstep : step s = handedOffStep s := by simp only [step, hp]
  rw [hstep]
  simp only [handedOffStep, he, hc]

theorem step_of_handedOff_reset {s : State} {e : Event} {rest : List Event} {cause : ResetCause}
    (hp : s.phase = .handedOff) (he : s.env = e :: rest) (hc : e.resetCause = some cause) :
    step s = .next (({ s with env := rest }.runApplication e.applicationEffects).afterReset cause) := by
  have hstep : step s = handedOffStep s := by simp only [step, hp]
  rw [hstep]
  simp only [handedOffStep, he, hc]

/-- Settles O46: the two cases of a step after the hand-off that are no reset. -/
theorem handedOffIsTerminal : Obligations.HandedOffIsTerminal := by
  intro s hp
  refine ⟨fun e rest he hc => step_of_handedOff hp he hc, fun he => ?_⟩
  have hstep : step s = handedOffStep s := by simp only [step, hp]
  rw [hstep]
  simp only [handedOffStep, he]

/-- A reset event where the block waits for one (70_reset R266). -/
theorem event_of_resetCause {e : Event} {cause : ResetCause} (h : e.resetCause = some cause) (s : State) :
    s.waitEvent e = s.afterReset cause ∧ s.receiveEvent e = s.afterReset cause := by
  cases e <;> cases h <;> exact ⟨rfl, rfl⟩

/-- Settles O48: a reset is one step where the block waits; after the hand-off the events before it pass one by one
(induction on their list). -/
theorem resetRestartsTheBlock : Obligations.ResetRestartsTheBlock := by
  intro s cause e rest he hc
  refine ⟨?_, fun hp => step_of_handedOff_reset hp he hc, fun hp before hbefore => ?_⟩
  · rintro (hp | ⟨hp, hf⟩)
    · rw [step_of_waitEvent hp he, (event_of_resetCause hc _).1]
    · rw [step_of_receiveEvent hp hf he, (event_of_resetCause hc _).2]
  · induction before with
    | nil =>
      have hstep := step_of_handedOff_reset hp he hc
      simp only [List.length_nil, List.nil_append, runSteps, hstep]
    | cons x before ih =>
      have hpass : step { s with env := x :: before ++ s.env } = .next { s with env := before ++ s.env } :=
        step_of_handedOff hp rfl (hbefore x List.mem_cons_self)
      rw [List.length_cons, runSteps, hpass]
      exact ih fun y hy => hbefore y (List.mem_cons_of_mem _ hy)

/-! ## A reset inside a replay -/

/-- A trusted replay with a reset inside it (70_reset R277). -/
theorem step_of_cut_replay {s : State} {cause : ResetCause} {ops sent : Nat} {rest : List Event}
    (hp : s.phase = .replay) (he : s.env = .resetInside cause ops sent :: rest) (hm : s.desc.magic = s.cfg.magic) :
    step s = .next ((cutReplay s.desc.sourceAddress s.desc.destinationAddress s.desc.remainingSize s.desc.flags ops
      { s with env := rest }.clearWatchdog).afterReset cause) := by
  have hstep : step s = replayStep s := by simp only [step, hp]
  rw [hstep]
  simp only [replayStep, he, decode_mailbox_of_magic hm]
  rfl

theorem afterReset_desc {s : State} {cause : ResetCause} (h : cause ≠ .powerOn) :
    (s.afterReset cause).desc = s.desc := by
  cases cause
  · exact absurd rfl h
  · rfl
  · rfl

/-- Settles O50: the replay is cut in every case, which leaves both streams and the magic (`cutCommand_keeps`); a
deferred one is cut before it has done anything. -/
theorem resetInsideAReplay : Obligations.ResetInsideAReplay := by
  intro s cause ops sent rest hp he hm
  refine ⟨_, step_of_cut_replay hp he hm, ?_⟩
  obtain ⟨hcfg, -, -, -, -, henv, htx, hmagic⟩ := cutCommand_keeps (i := .selfUpdateReplay s.desc.sourceAddress
    s.desc.destinationAddress s.desc.remainingSize s.desc.flags) (ops := ops)
    (s := { s with env := rest }.clearWatchdog) rfl
  have hdefer : s.desc.flags.deferRun = true → cutReplay s.desc.sourceAddress s.desc.destinationAddress
      s.desc.remainingSize s.desc.flags ops { s with env := rest }.clearWatchdog =
        { s with env := rest }.clearWatchdog := fun h => if_pos h
  obtain ⟨hkcfg, hkflash, -, -, -, -, -, hktx, hkenv, -⟩ := afterReset_keeps (cutReplay s.desc.sourceAddress
    s.desc.destinationAddress s.desc.remainingSize s.desc.flags ops { s with env := rest }.clearWatchdog) cause
  refine ⟨hkenv.trans henv, hktx.trans htx, ?_, ?_, fun h hcause => ?_, fun h => ?_⟩
  · rintro rfl
    exact ⟨by rw [afterReset_phase, if_pos rfl], by rw [hkcfg, hcfg, afterReset_desc (by decide), hmagic]; exact hm⟩
  · exact fun hcause => by rw [afterReset_phase, if_neg hcause]
  · rw [afterReset_desc hcause, hdefer h]
    rfl
  · rw [hkflash, hdefer h]
    rfl

/-! ## The phase transitions -/

theorem State.Inv.exitFlag_false {s : State} (hs : s.Inv) (hp : s.phase ≠ .handedOff) : s.exitFlag = false :=
  Bool.eq_false_iff.2 fun h => hp (hs.exit_handed h)

@[simp] theorem decodeByte_exitFlag (s : State) (b : Byte) : (s.decodeByte b).exitFlag = s.exitFlag := by
  obtain ⟨_, _, _, _, _, _, h⟩ := decodeByte_state s b
  rw [h]

/-- Settles O47: one row of the table for each case of `Steps`; `Process` ends in the hand-off exactly with the exit
flag set, and while a byte is awaited the flag is clear. -/
theorem phaseTransitionsAreComplete : Obligations.PhaseTransitionsAreComplete := by
  intro s t hs h
  cases steps_of_step h with
  | poll hp he => exact .inr <| .inr <| .inl ⟨hp, hp, he⟩
  | firstByte hp he => exact .inr <| .inr <| .inr <| .inl ⟨hp, by rw [enterLoop_eq], _, _, he⟩
  | timeout hp he => exact .inr <| .inr <| .inr <| .inr <| .inl ⟨hp, rfl, _, he⟩
  | silent hp hf he =>
    exact .inr <| .inr <| .inr <| .inr <| .inr <| .inl ⟨hp, hp, hs.exitFlag_false (by simp [hp])⟩
  | byte hp hf he =>
    have hexit := hs.exitFlag_false (by simp [hp])
    exact .inr <| .inr <| .inr <| .inr <| .inr <| .inl ⟨hp, by simpa using hp, by simpa using hexit⟩
  | guard hp hf he =>
    have hexit := hs.exitFlag_false (by simp [hp])
    obtain ⟨p, k, rfl | rfl, hg⟩ := receiveGuard_state { s with env := _ }
    · exact .inr <| .inr <| .inr <| .inr <| .inr <| .inl ⟨hp, by rw [hg]; exact hp, by rw [hg]; exact hexit⟩
    · exact .inr <| .inr <| .inr <| .inr <| .inr <| .inr <| .inr <| .inl ⟨hp, by rw [hg], hf, _, he⟩
  | command hp hf hi hu =>
    have hphase := (exec_sameMachine (hi ▸ decode_request_noReplay s.cfg s.msg) hu).phase.trans hp
    rw [finishCommand_eq]
    cases hexit : State.exitFlag _ with
    | false => exact .inr <| .inr <| .inr <| .inr <| .inr <| .inl ⟨hp, hphase, rfl⟩
    | true => exact .inr <| .inr <| .inr <| .inr <| .inr <| .inr <| .inl ⟨hp, rfl, hf, rfl⟩
  | replay hp hm ht =>
    obtain ⟨f, r, p, k, d, rfl⟩ := execSelfUpdateReplay_state ht
    exact .inr <| .inl ⟨hp, hm, rfl⟩
  | boot hp hm => exact .inl ⟨hp, hm, rfl⟩
  | passes hp he hc =>
    exact .inr <| .inr <| .inr <| .inr <| .inr <| .inr <| .inr <| .inr <| .inl ⟨hp, _, _, he, hc, rfl⟩
  | reset he hc hu =>
    exact .inr <| .inr <| .inr <| .inr <| .inr <| .inr <| .inr <| .inr <| .inr
      ⟨_, ⟨_, _, he, hc⟩, afterReset_phase _ _⟩

end Sys2Proof.Machine
end

section
/-! PROOFS. The application's run between a hand-off and a reset: each memory it writes is a list of stores, of which the
last to an address stands. -/

namespace Sys2Proof.Machine

/-! ## Stores in a memory -/

theorem storeCells_append (m : Memory) (as bs : List (Nat × Byte)) :
    storeCells m (as ++ bs) = storeCells (storeCells m as) bs := by
  simp [storeCells]

/-- An address that no cell names reads as before. -/
theorem storeCells_read_of_not_mem {m : Memory} (h : m.wf) {cs : List (Nat × Byte)} {a : Nat}
    (ha : ∀ c ∈ cs, c.1 ≠ a) : (storeCells m cs).read a = m.read a := by
  induction cs generalizing m with
  | nil => rfl
  | cons c cs ih =>
    have hstep : storeCells m (c :: cs) = storeCells (m.write c.1 c.2) cs := rfl
    rw [hstep, ih (Memory.write_wf h _ _) fun d hd => ha d (List.mem_cons_of_mem _ hd), Memory.read_write h,
      if_neg (Ne.symm (ha c List.mem_cons_self))]

/-- Of the stores to an address the last stands. -/
theorem storeCells_read_last {m : Memory} (h : m.wf) {before after : List (Nat × Byte)} {a : Nat} {b : Byte}
    (ha : ∀ c ∈ after, c.1 ≠ a) : (storeCells m (before ++ (a, b) :: after)).read a = b := by
  have hwf := storeCells_wf h before
  have hstep : storeCells (storeCells m before) ((a, b) :: after) =
      storeCells ((storeCells m before).write a b) after := rfl
  rw [storeCells_append, hstep, storeCells_read_of_not_mem (Memory.write_wf hwf _ _) ha, Memory.read_write hwf,
    if_pos rfl]

/-! ## What the application stores where -/

/-- The flash byte an effect writes (00_scope R5, 20_memory R59). -/
def ApplicationEffect.flashCell (c : Config) : ApplicationEffect → Option (Nat × Byte)
  | .flash a b => some (flashIndex c a.toNat, b)
  | _ => none

/-- The EEPROM byte an effect writes (00_scope R5, 20_memory R59). -/
def ApplicationEffect.eepromCell (c : Config) : ApplicationEffect → Option (Nat × Byte)
  | .eeprom a b => some (eepromIndex c a, b)
  | _ => none

/-- The byte of RAM an effect writes (00_scope R5). -/
def ApplicationEffect.ramCell : ApplicationEffect → Option (Nat × Byte)
  | .ram a b => some (a.toNat, b)
  | _ => none

theorem runApplication_flash (s : State) (did : List ApplicationEffect) :
    (s.runApplication did).flash = storeCells s.flash (did.filterMap (·.flashCell s.cfg)) := by
  induction did generalizing s with
  | nil => rfl
  | cons x did ih => cases x <;> rw [runApplication_cons, ih] <;> rfl

theorem runApplication_eeprom (s : State) (did : List ApplicationEffect) :
    (s.runApplication did).eeprom = storeCells s.eeprom (did.filterMap (·.eepromCell s.cfg)) := by
  induction did generalizing s with
  | nil => rfl
  | cons x did ih => cases x <;> rw [runApplication_cons, ih] <;> rfl

theorem runApplication_ram (s : State) (did : List ApplicationEffect) :
    (s.runApplication did).ram = storeCells s.ram (did.filterMap (·.ramCell)) := by
  induction did generalizing s with
  | nil => rfl
  | cons x did ih => cases x <;> rw [runApplication_cons, ih] <;> rfl

theorem flashCell_eq_some {c : Config} {x : ApplicationEffect} {cell : Nat × Byte} :
    x.flashCell c = some cell ↔ ∃ a b, x = .flash a b ∧ (flashIndex c a.toNat, b) = cell := by
  cases x <;> simp [ApplicationEffect.flashCell]

theorem eepromCell_eq_some {c : Config} {x : ApplicationEffect} {cell : Nat × Byte} :
    x.eepromCell c = some cell ↔ ∃ a b, x = .eeprom a b ∧ (eepromIndex c a, b) = cell := by
  cases x <;> simp [ApplicationEffect.eepromCell]

theorem ramCell_eq_some {x : ApplicationEffect} {cell : Nat × Byte} :
    x.ramCell = some cell ↔ ∃ a b, x = .ram a b ∧ (a.toNat, b) = cell := by
  cases x <;> simp [ApplicationEffect.ramCell]

/-- The last effect on a flash byte stands. -/
theorem runApplication_flash_read_last {s : State} (hf : s.flash.wf) {before after : List ApplicationEffect} {a : Word}
    {b : Byte} (h : ∀ a' b', .flash a' b' ∈ after → flashIndex s.cfg a'.toNat ≠ flashIndex s.cfg a.toNat) :
    (s.runApplication (before ++ .flash a b :: after)).flash.read (flashIndex s.cfg a.toNat) = b := by
  rw [runApplication_flash, List.filterMap_append]
  refine storeCells_read_last hf fun cell hcell => ?_
  obtain ⟨x, hx, hcell⟩ := List.mem_filterMap.1 hcell
  obtain ⟨a', b', rfl, rfl⟩ := flashCell_eq_some.1 hcell
  exact h a' b' hx

/-- An EEPROM byte that no effect of the application names is as it was. -/
theorem runApplication_eeprom_read {s : State} (he : s.eeprom.wf) {did : List ApplicationEffect} {x : Nat}
    (h : ∀ a b, .eeprom a b ∈ did → eepromIndex s.cfg a ≠ x) :
    (s.runApplication did).eeprom.read x = s.eeprom.read x := by
  rw [runApplication_eeprom]
  refine storeCells_read_of_not_mem he fun cell hcell => ?_
  obtain ⟨y, hy, hcell⟩ := List.mem_filterMap.1 hcell
  obtain ⟨a, b, rfl, rfl⟩ := eepromCell_eq_some.1 hcell
  exact h a b hy

/-- The last effect on an EEPROM byte stands. -/
theorem runApplication_eeprom_read_last {s : State} (he : s.eeprom.wf) {before after : List ApplicationEffect}
    {a : Half} {b : Byte} (h : ∀ a' b', .eeprom a' b' ∈ after → eepromIndex s.cfg a' ≠ eepromIndex s.cfg a) :
    (s.runApplication (before ++ .eeprom a b :: after)).eeprom.read (eepromIndex s.cfg a) = b := by
  rw [runApplication_eeprom, List.filterMap_append]
  refine storeCells_read_last he fun cell hcell => ?_
  obtain ⟨x, hx, hcell⟩ := List.mem_filterMap.1 hcell
  obtain ⟨a', b', rfl, rfl⟩ := eepromCell_eq_some.1 hcell
  exact h a' b' hx

/-- A byte of RAM that no effect of the application names is as it was. -/
theorem runApplication_ram_read {s : State} (hr : s.ram.wf) {did : List ApplicationEffect} {x : Nat}
    (h : ∀ a b, .ram a b ∈ did → a.toNat ≠ x) : (s.runApplication did).ram.read x = s.ram.read x := by
  rw [runApplication_ram]
  refine storeCells_read_of_not_mem hr fun cell hcell => ?_
  obtain ⟨y, hy, hcell⟩ := List.mem_filterMap.1 hcell
  obtain ⟨a, b, rfl, rfl⟩ := ramCell_eq_some.1 hcell
  exact h a b hy

/-- The last effect on a byte of RAM stands. -/
theorem runApplication_ram_read_last {s : State} (hr : s.ram.wf) {before after : List ApplicationEffect} {a : Word}
    {b : Byte} (h : ∀ b', .ram a b' ∉ after) :
    (s.runApplication (before ++ .ram a b :: after)).ram.read a.toNat = b := by
  rw [runApplication_ram, List.filterMap_append]
  refine storeCells_read_last hr fun cell hcell => ?_
  obtain ⟨x, hx, hcell⟩ := List.mem_filterMap.1 hcell
  obtain ⟨a', b', rfl, rfl⟩ := ramCell_eq_some.1 hcell
  exact fun ha => h b' (BitVec.eq_of_toNat_eq ha ▸ hx)

/-- A descriptor the application does not fill is as it was. -/
theorem runApplication_desc_of_not_mem {s : State} {did : List ApplicationEffect} (h : ∀ d, .descriptor d ∉ did) :
    (s.runApplication did).desc = s.desc := by
  induction did generalizing s with
  | nil => rfl
  | cons x did ih =>
    have ht : ∀ d, .descriptor d ∉ did := fun d hd => h d (List.mem_cons_of_mem _ hd)
    rw [runApplication_cons, ih ht]
    cases x with
    | descriptor d => exact absurd List.mem_cons_self (h d)
    | _ => rfl

/-- The last descriptor the application fills in stands. -/
theorem runApplication_desc_last {s : State} {before after : List ApplicationEffect} {d : Descriptor}
    (h : ∀ d', .descriptor d' ∉ after) : (s.runApplication (before ++ .descriptor d :: after)).desc = d := by
  rw [runApplication_append, runApplication_cons, runApplication_desc_of_not_mem h]
  rfl

/-- Lock bits the application does not clear are as they were. -/
theorem runApplication_lockBits_of_not_mem {s : State} {did : List ApplicationEffect} (h : ∀ v, .lockBits v ∉ did) :
    (s.runApplication did).lockBits = s.lockBits := by
  induction did generalizing s with
  | nil => rfl
  | cons x did ih =>
    have ht : ∀ v, .lockBits v ∉ did := fun v hv => h v (List.mem_cons_of_mem _ hv)
    rw [runApplication_cons, ih ht]
    cases x with
    | lockBits v => exact absurd List.mem_cons_self (h v)
    | _ => rfl

theorem afterReset_ram {s : State} {cause : ResetCause} (h : cause ≠ .powerOn) : (s.afterReset cause).ram = s.ram := by
  cases cause
  · exact absurd rfl h
  · rfl
  · rfl

/-- Settles O60: the step is the application's run and the reset, which keeps what the run left; each memory is the list
of stores of `runApplication_flash`, `runApplication_eeprom` and `runApplication_ram`. -/
theorem applicationEffectsReachTheNextRun : Obligations.ApplicationEffectsReachTheNextRun := by
  intro s did cause rest hs hp he
  obtain ⟨d, r, f, e, v, happ⟩ := runApplication_state { s with env := rest } did
  obtain ⟨hcfg, hflash, heeprom, hlock, hlow, hhigh, hext, htx, henv, -⟩ :=
    afterReset_keeps ({ s with env := rest }.runApplication did) cause
  refine ⟨({ s with env := rest }.runApplication did).afterReset cause, step_of_handedOff_reset hp he rfl, henv.trans (by rw [happ]), afterReset_phase _ _,
    hcfg.trans (by rw [happ]), hlow.trans (by rw [happ]), hhigh.trans (by rw [happ]), hext.trans (by rw [happ]),
    htx.trans (by rw [happ]), fun x hx => ?_, ?_, fun x hx => ?_, ?_, fun hcause => ⟨fun x hx => ?_, ?_, fun hnone => ?_,
    ?_⟩, ⟨v, hlock.trans (by rw [happ])⟩, fun hnone => hlock.trans (runApplication_lockBits_of_not_mem hnone)⟩
  · rw [hflash]
    exact runApplication_flash_read (s := { s with env := rest }) hs.flash_wf hx
  · rintro before a b after rfl hlast
    rw [hflash]
    exact runApplication_flash_read_last (s := { s with env := rest }) hs.flash_wf hlast
  · rw [heeprom]
    exact runApplication_eeprom_read (s := { s with env := rest }) hs.eeprom_wf hx
  · rintro before a b after rfl hlast
    rw [heeprom]
    exact runApplication_eeprom_read_last (s := { s with env := rest }) hs.eeprom_wf hlast
  · rw [afterReset_ram hcause]
    exact runApplication_ram_read (s := { s with env := rest }) hs.ram_wf hx
  · rintro before a b after rfl hlast
    rw [afterReset_ram hcause]
    exact runApplication_ram_read_last (s := { s with env := rest }) hs.ram_wf hlast
  · rw [afterReset_desc hcause]
    exact runApplication_desc_of_not_mem hnone
  · rintro before d after rfl hlast
    rw [afterReset_desc hcause]
    exact runApplication_desc_last hlast

end Sys2Proof.Machine
end

section
/-! PROOFS. The rules of the data a command works on: the part of the invariant that a handler keeps, the address
register, the page buffer as a list of slots, and the three primitives of flash. -/

namespace Sys2Proof.Machine

/-! ## What a handler keeps -/

/-- The part of the invariant that does not speak of phases and decoder states: every handler keeps it. -/
structure State.DataInv (s : State) : Prop where
  cfg_wf : s.cfg.Wf
  msg_length : s.msg.length = s.cfg.msgBufSize
  pbuf_empty : s.pbuf = emptyPbuf s.cfg
  flash_wf : s.flash.wf
  flash_within : s.flash.within s.cfg.flashSize
  eeprom_wf : s.eeprom.wf
  eeprom_within : s.eeprom.within s.cfg.eepromSize
  ram_wf : s.ram.wf
  frontier_aligned : s.eraseFrontier.toNat % s.cfg.pageSize = 0
  frontier_le : s.eraseFrontier.toNat ≤ s.cfg.boundary
  address_lt : s.currentAddress.toNat < 2 ^ s.cfg.addrWidth.bits
  total_lt : s.totalUploadSize.toNat < 2 ^ 24

theorem State.Inv.data {s : State} (hs : s.Inv) : s.DataInv :=
  { hs with }

/-- A reply changes the buffer and the length only. -/
theorem State.DataInv.withReply {s : State} (hs : s.DataInv) {body : List Byte}
    (h : 1 + body.length ≤ s.cfg.msgBufSize) : (s.withReply body).DataInv :=
  { hs with
    msg_length := by
      have := hs.msg_length
      simp only [State.withReply, List.length_append, List.length_take, List.length_drop]
      omega }

/-! ## The address register -/

theorem truncAddr_of_lt {c : Config} {a : Word} (h : a.toNat < 2 ^ c.addrWidth.bits) : truncAddr c a = a :=
  BitVec.eq_of_toNat_eq (by rw [truncAddr_toNat, Nat.mod_eq_of_lt h])

@[simp] theorem truncAddr_zero (c : Config) : truncAddr c 0 = 0 := truncAddr_of_lt (Nat.two_pow_pos _)

theorem addressAfter_zero {s : State} (h : s.currentAddress.toNat < 2 ^ s.cfg.addrWidth.bits) :
    s.addressAfter 0 = s.currentAddress := by
  rw [State.addressAfter, BitVec.add_zero, truncAddr_of_lt h]

theorem advance_addressAfter (s : State) (m n : Nat) :
    (s.advance (BitVec.ofNat 32 m)).addressAfter n = s.addressAfter (m + n) := by
  simp only [State.addressAfter, State.advance_cfg, State.advance_currentAddress]
  rw [truncAddr_add_add, BitVec.ofNat_add]

theorem addressAfter_lt (s : State) (n : Nat) : (s.addressAfter n).toNat < 2 ^ s.cfg.addrWidth.bits :=
  truncAddr_lt _ _

/-- The address after `n` bytes, where the register does not wrap. -/
theorem addressAfter_toNat {s : State} {n : Nat} (h : s.currentAddress.toNat + n < 2 ^ s.cfg.addrWidth.bits) :
    (s.addressAfter n).toNat = s.currentAddress.toNat + n := by
  have hbits : 2 ^ s.cfg.addrWidth.bits ≤ 2 ^ 32 := Nat.pow_le_pow_right (by decide) (bits_le _)
  rw [State.addressAfter, truncAddr_add_toNat, BitVec.toNat_ofNat, Nat.mod_eq_of_lt (a := n) (by omega),
    Nat.mod_eq_of_lt h]

/-- Modulo a divisor of `2 ^ ADDR_W` the address after `n` bytes is a plain sum. -/
theorem addressAfter_mod (s : State) (n : Nat) {p : Nat} (hp : p ∣ 2 ^ s.cfg.addrWidth.bits) :
    (s.addressAfter n).toNat % p = (s.currentAddress.toNat + n) % p := by
  rw [State.addressAfter, truncAddr_add_toNat, Nat.mod_mod_of_dvd _ hp, BitVec.toNat_ofNat, Nat.add_mod,
    Nat.mod_mod_of_dvd _ (hp.trans (two_pow_bits_dvd _)), ← Nat.add_mod]

/-! ## The page buffer as slots -/

/-- Puts bytes in slots, one after another. -/
def setCells (m : List Byte) (cells : List (Nat × Byte)) : List Byte := cells.foldl (fun m c => m.set c.1 c.2) m

@[simp] theorem setCells_nil (m : List Byte) : setCells m [] = m := rfl

@[simp] theorem setCells_cons (m : List Byte) (c : Nat × Byte) (cells : List (Nat × Byte)) :
    setCells m (c :: cells) = setCells (m.set c.1 c.2) cells := rfl

theorem setCells_append (m : List Byte) (as bs : List (Nat × Byte)) :
    setCells m (as ++ bs) = setCells (setCells m as) bs := by
  simp [setCells]

@[simp] theorem setCells_length (m : List Byte) (cells : List (Nat × Byte)) : (setCells m cells).length = m.length := by
  induction cells generalizing m with
  | nil => rfl
  | cons c cells ih => rw [setCells_cons, ih, List.length_set]

/-- A slot that no cell names is as before. -/
theorem setCells_getD_of_not_mem {m : List Byte} {cells : List (Nat × Byte)} {k : Nat} {d : Byte}
    (h : ∀ c ∈ cells, c.1 ≠ k) : (setCells m cells).getD k d = m.getD k d := by
  induction cells generalizing m with
  | nil => rfl
  | cons c cells ih =>
    rw [setCells_cons, ih fun c hc => h c (List.mem_cons_of_mem _ hc), List.getD_eq_getElem?_getD,
      List.getElem?_set_ne (h c List.mem_cons_self), List.getD_eq_getElem?_getD]

/-- Of the bytes put in a slot the last stands. -/
theorem setCells_getD_last {m : List Byte} {before after : List (Nat × Byte)} {k : Nat} {b d : Byte}
    (hk : k < m.length) (h : ∀ c ∈ after, c.1 ≠ k) : (setCells m (before ++ (k, b) :: after)).getD k d = b := by
  rw [setCells_append, setCells_cons, setCells_getD_of_not_mem h, List.getD_eq_getElem?_getD,
    List.getElem?_set_self (by simpa using hk), Option.getD_some]

/-- The slots that consecutive bytes from an address on go to (44_cmd_program R177): the address modulo the page. -/
def slotCells (p a : Nat) (bs : List Byte) : List (Nat × Byte) := bs.mapIdx fun i b => ((a + i) % p, b)

@[simp] theorem slotCells_nil (p a : Nat) : slotCells p a [] = [] := rfl

theorem slotCells_cons (p a : Nat) (b : Byte) (bs : List Byte) :
    slotCells p a (b :: bs) = (a % p, b) :: slotCells p (a + 1) bs := by
  simp [slotCells, List.mapIdx_cons, Nat.add_right_comm, Nat.add_assoc]

theorem slotCells_congr {p a a' : Nat} (h : a % p = a' % p) (bs : List Byte) : slotCells p a bs = slotCells p a' bs := by
  have hi : ∀ i, (a + i) % p = (a' + i) % p := fun i => by rw [Nat.add_mod, h, ← Nat.add_mod]
  simp only [slotCells, hi]

/-- What a slot holds that the bytes reach: the last byte that goes to it. -/
theorem setCells_slotCells_last {m bs : List Byte} {p a i : Nat} {d e : Byte} (hp : 0 < p) (hm : m.length = p)
    (hi : i < bs.length) (hlast : ∀ j, i < j → j < bs.length → (a + j) % p ≠ (a + i) % p) :
    (setCells m (slotCells p a bs)).getD ((a + i) % p) d = bs.getD i e := by
  have hbs : bs = bs.take i ++ bs[i] :: bs.drop (i + 1) := by simp
  have hcells : slotCells p a bs = slotCells p a (bs.take i) ++ ((a + i) % p, bs[i]) ::
      slotCells p (a + i + 1) (bs.drop (i + 1)) := by
    conv_lhs => rw [hbs]
    simp only [slotCells, List.mapIdx_append, List.mapIdx_cons, List.length_take_of_le hi.le]
    simp only [Nat.add_assoc, Nat.add_comm 1]
    simp [Nat.add_left_comm]
  rw [hcells, setCells_getD_last (by rw [hm]; exact Nat.mod_lt _ hp), List.getD_eq_getElem?_getD, List.getElem?_eq_getElem hi,
    Option.getD_some]
  intro c hc
  obtain ⟨j, hj, rfl⟩ := List.mem_mapIdx.1 hc
  rw [List.length_drop] at hj
  exact fun h => hlast (i + 1 + j) (by omega) (by omega) (by rw [← h]; congr 1; omega)

/-- What a slot holds that the bytes do not reach. -/
theorem setCells_slotCells_of_ne {m bs : List Byte} {p a k : Nat} {d : Byte}
    (h : ∀ i, i < bs.length → (a + i) % p ≠ k) : (setCells m (slotCells p a bs)).getD k d = m.getD k d := by
  refine setCells_getD_of_not_mem fun c hc => ?_
  obtain ⟨i, hi, rfl⟩ := List.mem_mapIdx.1 hc
  exact h i hi

/-- A page fill at an even address puts its two bytes in the slots of the address and the next one (44_cmd_program
R177). -/
theorem pageFill_of_even {s : State} (hc : s.cfg.Wf) {a : Nat} (ha : a % 2 = 0) (lo hi : Byte) :
    s.pageFill a lo hi = { s with pbuf := setCells s.pbuf (slotCells s.cfg.pageSize a [lo, hi]) } := by
  have heven := pageSize_even hc
  have h2 : 2 ≤ s.cfg.pageSize := hc.1
  have hmod : a % s.cfg.pageSize % 2 = 0 := by
    rw [Nat.mod_mod_of_dvd _ (Nat.dvd_of_mod_eq_zero heven), ha]
  have hlt : a % s.cfg.pageSize < s.cfg.pageSize := Nat.mod_lt _ (by omega)
  have hnext : (a + 1) % s.cfg.pageSize = a % s.cfg.pageSize + 1 := by
    rw [Nat.add_mod, Nat.mod_eq_of_lt (a := 1) (by omega), Nat.mod_eq_of_lt (by omega)]
  rw [State.pageFill, if_pos ha]
  simp [slotCells_cons, hnext]

/-! ## The primitives of flash -/

@[simp] theorem emptyPbuf_length (c : Config) : (emptyPbuf c).length = c.pageSize := List.length_replicate

@[simp] theorem emptyPbuf_getD (c : Config) (k : Nat) : (emptyPbuf c).getD k c.erasedByte = c.erasedByte := by
  rw [emptyPbuf, List.getD_eq_getElem?_getD, List.getElem?_replicate]
  split <;> rfl

/-- Whether a byte lies in the page of an address is decided by its own page (20_memory R43). -/
theorem inPageOf_iff {c : Config} (hp : 0 < c.pageSize) (a x : Nat) : inPageOf c a x ↔ pageOf c x = pageOf c a := by
  constructor
  · rintro ⟨hle, hlt⟩
    obtain ⟨r, rfl⟩ := Nat.exists_eq_add_of_le hle
    obtain ⟨q, hq⟩ := Nat.dvd_of_mod_eq_zero (pageOf_mod c a)
    have hr : (pageOf c a + r) % c.pageSize = r := by
      rw [hq, Nat.mul_add_mod, Nat.mod_eq_of_lt (by omega)]
    rw [pageOf, hr, Nat.add_sub_cancel]
  · intro h
    have := lt_pageOf_add hp x
    have := pageOf_le c x
    exact ⟨by omega, by omega⟩

end Sys2Proof.Machine
end

section
/-! PROOFS. The read commands and Program EEPROM: what their byte loops answer, store and leave in the address
register. -/

namespace Sys2Proof.Machine

/-! ## Read flash -/

theorem advance_flashTarget (s : State) (m i : Nat) :
    (s.advance (BitVec.ofNat 32 m)).flashTarget i = s.flashTarget (m + i) :=
  congrArg (fun a : Word => flashIndex s.cfg a.toNat) (advance_addressAfter s m i)

theorem flashTarget_zero {s : State} (h : s.currentAddress.toNat < 2 ^ s.cfg.addrWidth.bits) :
    s.flashTarget 0 = flashIndex s.cfg s.currentAddress.toNat :=
  congrArg (fun a : Word => flashIndex s.cfg a.toNat) (addressAfter_zero h)

/-- What the byte loop of Read flash leaves: the address advanced by the number of bytes, and the model's own counter
where a byte was blocked (45_cmd_read R201, 20_memory R57). -/
theorem flashReadBytes_state_eq (n : Nat) {s : State} (h : s.currentAddress.toNat < 2 ^ s.cfg.addrWidth.bits) :
    ∃ free, (flashReadBytes n s).2 = { s with currentAddress := s.addressAfter n, freeCount := free } ∧
      (s.rwwBlocked = false → free = s.freeCount) := by
  induction n generalizing s with
  | zero => exact ⟨s.freeCount, by rw [addressAfter_zero h]; rfl, fun _ => rfl⟩
  | succ n ih =>
    obtain ⟨k, hk⟩ := flashReadByte_state s s.currentAddress.toNat
    obtain ⟨free, hstate, hfree⟩ := ih (s := (s.flashReadByte s.currentAddress.toNat).2.advance 1) (truncAddr_lt _ _)
    refine ⟨free, ?_, fun hr => ?_⟩
    · rw [flashReadBytes]
      dsimp only
      rw [hstate, show (1 : Word) = BitVec.ofNat 32 1 from rfl, advance_addressAfter, hk, Nat.add_comm n]
      rfl
    · rw [hfree (by simpa using hr), flashReadByte_open (.inl hr)]
      rfl

/-- What the byte loop of Read flash answers: the flash byte of each address, but where it is blocked (45_cmd_read R202,
20_memory R57). -/
theorem flashReadBytes_getD {n i : Nat} {s : State} (h : s.currentAddress.toNat < 2 ^ s.cfg.addrWidth.bits)
    (hi : i < n) (hopen : s.rwwBlocked = false ∨ s.cfg.boundary ≤ s.flashTarget i) :
    (flashReadBytes n s).1.getD i 0 = s.flash.read (s.flashTarget i) := by
  induction n generalizing s i with
  | zero => omega
  | succ n ih =>
    rw [flashReadBytes]
    cases i with
    | zero =>
      rw [flashTarget_zero h] at hopen ⊢
      rw [flashReadByte_open hopen]
      rfl
    | succ i =>
      obtain ⟨k, hk⟩ := flashReadByte_state s s.currentAddress.toNat
      have htarget : ((s.flashReadByte s.currentAddress.toNat).2.advance 1).flashTarget i = s.flashTarget (i + 1) := by
        rw [show (1 : Word) = BitVec.ofNat 32 1 from rfl, advance_flashTarget, hk, Nat.add_comm 1]
        rfl
      rw [List.getD_cons_succ, ih (truncAddr_lt _ _) (by omega)
        (hopen.imp (fun hr => by simpa using hr) fun hb => by rw [htarget]; simpa using hb), htarget]
      simp

/-- Read flash as a whole (45_cmd_read R201 to R204). -/
theorem exec_readFlash {s : State} {size : Half} (hm : s.msg.length = s.cfg.msgBufSize)
    (ha : s.currentAddress.toNat < 2 ^ s.cfg.addrWidth.bits) (hfit : size.toNat + 3 ≤ s.cfg.msgBufSize) :
    ∃ (d : List Byte) (free : Nat), d.length = size.toNat ∧
      exec (.readFlash size) s = .next
        ({ s with
          currentAddress := s.addressAfter size.toNat
          bytesTransferred :=
            if s.totalUploadSize = 0 then s.bytesTransferred
            else if s.currentAddress = 0 then size.setWidth 32 else s.bytesTransferred + size.setWidth 32
          operationKind := if s.totalUploadSize ≠ 0 ∧ s.currentAddress = 0 then .verify else s.operationKind
          freeCount := free }.withReply (s.cfg.statusOk :: d ++ [s.cfg.statusOk])) ∧
      (∀ i, i < size.toNat → s.rwwBlocked = false ∨ s.cfg.boundary ≤ s.flashTarget i →
        d.getD i 0 = s.flash.read (s.flashTarget i)) ∧
      (s.rwwBlocked = false → free = s.freeCount) := by
  have hprogress := progress_eq s .verify s.currentAddress size
  obtain ⟨free, hstate, hfree⟩ := flashReadBytes_state_eq size.toNat (s := s.progressOnRead s.currentAddress size)
    (by simpa [State.progressOnRead] using ha)
  refine ⟨(flashReadBytes size.toNat (s.progressOnRead s.currentAddress size)).1, free, flashReadBytes_length _ _, ?_,
    fun i hi hopen => ?_, fun hr => ?_⟩
  · rw [exec, execReadFlash]
    rw [hstate, State.progressOnRead, hprogress]
    refine reply_next hm ?_
    simp only [List.cons_append, List.length_cons, List.length_append, flashReadBytes_length, List.length_nil]
    omega
  · rw [flashReadBytes_getD (by simpa [State.progressOnRead] using ha) hi, State.progressOnRead, hprogress]
    · rfl
    · rw [State.progressOnRead, hprogress]
      exact hopen
  · rw [hfree (by simpa [State.progressOnRead] using hr), State.progressOnRead, hprogress]

/-- Settles O31: the byte loop of Read flash, the progress rule on the start address, and the reply. -/
theorem readFlashReturnsBytes : Obligations.ReadFlashReturnsBytes :=
  fun _ _ hs hfit => exec_readFlash hs.msg_length hs.address_lt hfit

/-! ## Read EEPROM -/

theorem advance_eepromTarget (s : State) (i : Nat) : (s.advance 2).eepromTarget i = s.eepromTarget (i + 1) := by
  have h : (s.advance 2).addressAfter (2 * i) = s.addressAfter (2 * (i + 1)) := by
    rw [show (2 : Word) = BitVec.ofNat 32 2 from rfl, advance_addressAfter, Nat.mul_add, Nat.add_comm]
  exact congrArg (fun a => eepromIndex s.cfg (eepromAddress a)) h

theorem eepromTarget_zero {s : State} (h : s.currentAddress.toNat < 2 ^ s.cfg.addrWidth.bits) :
    s.eepromTarget 0 = eepromIndex s.cfg (eepromAddress s.currentAddress) :=
  congrArg (fun a => eepromIndex s.cfg (eepromAddress a)) (addressAfter_zero h)

theorem advance_two_addressAfter (s : State) (n : Nat) :
    (s.advance 2).addressAfter (2 * n) = s.addressAfter (2 * (n + 1)) := by
  rw [show (2 : Word) = BitVec.ofNat 32 2 from rfl, advance_addressAfter, Nat.mul_add, Nat.add_comm]

/-- The byte loop of Read EEPROM as a whole (45_cmd_read R207, R208). -/
theorem eeReadBytes_eq (n : Nat) {s : State} (h : s.currentAddress.toNat < 2 ^ s.cfg.addrWidth.bits) :
    eeReadBytes n s = ((List.range n).map (fun i => s.eeprom.read (s.eepromTarget i)),
      { s with currentAddress := s.addressAfter (2 * n) }) := by
  induction n generalizing s with
  | zero => rw [Nat.mul_zero, addressAfter_zero h]; rfl
  | succ n ih =>
    rw [eeReadBytes, ih (truncAddr_lt _ _), List.range_succ_eq_map, advance_two_addressAfter]
    simp only [State.eeRead, advance_eepromTarget, State.advance_eeprom, ← eepromTarget_zero h, List.map_cons,
      List.map_map, Function.comp_def, Nat.succ_eq_add_one]
    rfl

/-- Settles O32: the byte loop of Read EEPROM and the reply. -/
theorem readEepromReturnsBytes : Obligations.ReadEepromReturnsBytes := by
  intro s size hs hfit
  rw [exec, execReadEeprom]
  rw [eeReadBytes_eq _ hs.address_lt]
  refine reply_next hs.msg_length ?_
  simp only [List.cons_append, List.length_cons, List.length_append, List.length_map, List.length_range,
    List.length_nil]
  omega

/-! ## Program EEPROM -/

/-- The bytes that Program EEPROM stores, each with the EEPROM byte it goes to (44_cmd_program R191). -/
def State.eepromCells (s : State) (bs : List Byte) : List (Nat × Byte) := bs.mapIdx fun i b => (s.eepromTarget i, b)

/-- The byte loop of Program EEPROM as a whole (44_cmd_program R190, R191). -/
theorem eeWriteBytes_eq (bs : List Byte) {s : State} (h : s.currentAddress.toNat < 2 ^ s.cfg.addrWidth.bits) :
    eeWriteBytes bs s =
      { s with
        eeprom := storeCells s.eeprom (s.eepromCells bs)
        currentAddress := s.addressAfter (2 * bs.length) } := by
  induction bs generalizing s with
  | nil => rw [List.length_nil, Nat.mul_zero, addressAfter_zero h]; rfl
  | cons b bs ih =>
    have hcells : ((s.eeWrite (eepromAddress s.currentAddress) b).advance 2).eepromCells bs =
        bs.mapIdx fun i b => (s.eepromTarget (i + 1), b) := by
      simp only [State.eepromCells, advance_eepromTarget]
      rfl
    rw [eeWriteBytes, ih (truncAddr_lt _ _), hcells, advance_two_addressAfter, State.eepromCells, List.mapIdx_cons,
      eepromTarget_zero h]
    rfl

/-- Program EEPROM as a whole (44_cmd_program R191). -/
theorem exec_programEeprom {s : State} {size : Half} {data : List Byte} (hm : s.msg.length = s.cfg.msgBufSize)
    (ha : s.currentAddress.toNat < 2 ^ s.cfg.addrWidth.bits) (hd : size.toNat ≤ data.length)
    (h2 : 2 ≤ s.cfg.msgBufSize) :
    exec (.programEeprom size data) s = .next
      ({ s with
        eeprom := storeCells s.eeprom (s.eepromCells (data.take size.toNat))
        currentAddress := s.addressAfter (2 * size.toNat) }.withReply [s.cfg.statusOk]) := by
  rw [exec, execProgramEeprom, if_pos hd, eeWriteBytes_eq _ ha, List.length_take_of_le hd]
  exact reply_next hm h2

theorem storeCells_eepromCells_of_ne {s : State} (he : s.eeprom.wf) {bs : List Byte} {x : Nat}
    (h : ∀ i, i < bs.length → s.eepromTarget i ≠ x) :
    (storeCells s.eeprom (s.eepromCells bs)).read x = s.eeprom.read x := by
  refine storeCells_read_of_not_mem he fun c hc => ?_
  obtain ⟨i, hi, rfl⟩ := List.mem_mapIdx.1 hc
  exact h i hi

theorem storeCells_eepromCells_last {s : State} (he : s.eeprom.wf) {bs : List Byte} {i : Nat} (hi : i < bs.length)
    (h : ∀ j, i < j → j < bs.length → s.eepromTarget j ≠ s.eepromTarget i) :
    (storeCells s.eeprom (s.eepromCells bs)).read (s.eepromTarget i) = bs.getD i 0 := by
  have hbs : bs = bs.take i ++ bs[i] :: bs.drop (i + 1) := by simp
  have hcells : s.eepromCells bs = s.eepromCells (bs.take i) ++ (s.eepromTarget i, bs[i]) ::
      (bs.drop (i + 1)).mapIdx fun j b => (s.eepromTarget (j + 1 + i), b) := by
    conv_lhs => rw [hbs]
    simp only [State.eepromCells, List.mapIdx_append, List.mapIdx_cons, List.length_take_of_le hi.le, Nat.zero_add]
  rw [hcells, storeCells_read_last he, List.getD_eq_getElem?_getD, List.getElem?_eq_getElem hi, Option.getD_some]
  intro c hc
  obtain ⟨j, hj, rfl⟩ := List.mem_mapIdx.1 hc
  rw [List.length_drop] at hj
  exact h (j + 1 + i) (by omega) (by omega)

/-- Settles O30: the bytes are stores in EEPROM, of which the last to an address stands. -/
theorem programEepromWritesBytes : Obligations.ProgramEepromWritesBytes := by
  intro s size data hs hd h2
  refine ⟨_, exec_programEeprom hs.msg_length hs.address_lt hd.ge h2, fun x hx => ?_, fun i hi hlast => ?_⟩ <;>
    rw [List.take_of_length_le hd.le]
  · exact storeCells_eepromCells_of_ne hs.eeprom_wf (hd ▸ hx)
  · exact storeCells_eepromCells_last hs.eeprom_wf (hd ▸ hi) (hd ▸ hlast)

/-! ## Beyond the buffer -/

/-- Settles O33: a read's reply is three bytes longer than the data; the program commands test the data they need. -/
theorem bufferOverrunStops : Obligations.BufferOverrunStops := by
  intro s size data
  refine ⟨fun h => ⟨?_, ?_⟩, fun hd hlow => ?_, fun hd => if_neg (Nat.not_le.2 hd)⟩
  · obtain ⟨a, k, hr⟩ := flashReadBytes_state size.toNat (s.progressOnRead s.currentAddress size)
    refine reply_fault ?_
    rw [hr]
    simp [State.progressOnRead]
    omega
  · obtain ⟨a, hr⟩ := eeReadBytes_state size.toNat s
    refine reply_fault ?_
    rw [hr]
    simp
    omega
  · have hstep : ((s.progressOnWrite s.currentAddress size).eraseAhead).writeStep s.currentAddress size data =
        .fault .msgIndexOutOfRange := by
      rw [State.writeStep, if_pos (by simpa [State.progressOnWrite] using hlow), if_neg (Nat.not_le.2 hd)]
    rw [exec, execProgramFlash, hstep]

/-! ## A verify pass -/

/-- Load address keeps everything but the address (43_cmd_session R163). -/
theorem exec_loadAddress {s : State} (hm : s.msg.length = s.cfg.msgBufSize) (h : 2 ≤ s.cfg.msgBufSize) (waddr : Word) :
    exec (.loadAddress waddr) s =
      .next ({ s with currentAddress := byteAddress s.cfg waddr }.withReply [s.cfg.statusOk]) :=
  reply_next (s := { s with currentAddress := byteAddress s.cfg waddr }) (body := [s.cfg.statusOk]) hm h

theorem byteAddress_zero (c : Config) : byteAddress c 0 = 0 := truncAddr_zero c

/-- A verify pass that has read `n` bytes from address 0 on (45_cmd_read R210). -/
structure State.Verified (s : State) (total : Word) (n : Nat) : Prop where
  address : s.currentAddress.toNat = n
  counted : 0 < n → s.bytesTransferred.toNat = n ∧ s.operationKind = .verify
  total_eq : s.totalUploadSize = total
  msg_length : s.msg.length = s.cfg.msgBufSize

/-- One more Read flash of a verify pass: the counter and the kind are set by the read at address 0 and kept up by the
others (45_cmd_read R203). -/
theorem exec_readFlash_verified {s : State} {total : Word} {n : Nat} {size : Half} (hs : s.Verified total n)
    (ht : total ≠ 0) (hsum : n + size.toNat < 2 ^ s.cfg.addrWidth.bits) (hfit : size.toNat + 3 ≤ s.cfg.msgBufSize) :
    ∃ t, exec (.readFlash size) s = .next t ∧ t.cfg = s.cfg ∧ t.Verified total (n + size.toNat) ∧
      t.bytesTransferred.toNat = n + size.toNat ∧ t.operationKind = .verify := by
  have haddr : s.currentAddress.toNat + size.toNat < 2 ^ s.cfg.addrWidth.bits := hs.address ▸ hsum
  obtain ⟨d, free, hd, hexec, -, -⟩ := exec_readFlash (size := size) hs.msg_length (by omega) hfit
  have hbits : 2 ^ s.cfg.addrWidth.bits ≤ 2 ^ 32 := Nat.pow_le_pow_right (by decide) (bits_le _)
  have hsize : (size.setWidth 32).toNat = size.toNat := by
    rw [BitVec.toNat_setWidth, Nat.mod_eq_of_lt (by omega)]
  have hcount : (if s.currentAddress = 0 then size.setWidth 32 else s.bytesTransferred + size.setWidth 32).toNat =
      n + size.toNat ∧ (if s.currentAddress = 0 then .verify else s.operationKind) = OperationKind.verify := by
    by_cases h0 : s.currentAddress = 0
    · have hn : n = 0 := by rw [← hs.address, h0]; rfl
      simp [h0, hn, hsize]
    · have hn : 0 < n := Nat.pos_of_ne_zero fun hn => h0 (BitVec.eq_of_toNat_eq (hs.address.trans hn))
      obtain ⟨hbytes, hkind⟩ := hs.counted hn
      simp only [if_neg h0]
      refine ⟨?_, hkind⟩
      rw [BitVec.toNat_add, hbytes, hsize, Nat.mod_eq_of_lt (by omega)]
  have hmsg := hs.msg_length
  simp only [hs.total_eq, ht, ne_eq, not_false_eq_true, true_and, if_false] at hexec
  refine ⟨_, hexec, rfl, ⟨?_, fun _ => hcount, rfl, ?_⟩, hcount⟩
  · exact (addressAfter_toNat haddr).trans (by rw [hs.address])
  · simp only [State.withReply, List.length_append, List.length_take, List.length_drop, List.cons_append,
      List.length_cons, List.length_nil, hd]
    omega

/-- A verify pass, by induction on its reads. -/
theorem execAll_readFlash_verified {sizes : List Half} {s : State} {total : Word} {n : Nat} (hs : s.Verified total n)
    (ht : total ≠ 0) (hsum : n + (sizes.map BitVec.toNat).sum < 2 ^ s.cfg.addrWidth.bits) (hne : sizes ≠ [])
    (hfit : ∀ size ∈ sizes, size.toNat + 3 ≤ s.cfg.msgBufSize) :
    ∃ t, execAll (sizes.map .readFlash) s = .next t ∧ t.totalUploadSize = total ∧
      t.bytesTransferred.toNat = n + (sizes.map BitVec.toNat).sum ∧ t.operationKind = .verify := by
  induction sizes generalizing s n with
  | nil => exact absurd rfl hne
  | cons size sizes ih =>
    simp only [List.map_cons, List.sum_cons] at hsum ⊢
    obtain ⟨t, hexec, hcfg, ht', hbytes, hkind⟩ :=
      exec_readFlash_verified hs ht (size := size) (by omega) (hfit size List.mem_cons_self)
    rw [execAll, hexec]
    dsimp only
    by_cases hlast : sizes = []
    · subst hlast
      exact ⟨t, rfl, ht'.total_eq, by simpa using hbytes, hkind⟩
    · rw [← Nat.add_assoc] at hsum ⊢
      exact ih ht' (hcfg ▸ hsum) hlast fun m hm => hcfg ▸ hfit m (List.mem_cons_of_mem _ hm)

/-- Settles O35: Load address 0 starts a verify pass of no bytes, and each read adds its size. -/
theorem verifyPassCounts : Obligations.VerifyPassCounts := by
  intro s sizes hs h2 htotal hne hfit hsum
  have hstart : ({ s with currentAddress := byteAddress s.cfg 0 }.withReply [s.cfg.statusOk]).Verified
      s.totalUploadSize 0 := by
    refine ⟨congrArg BitVec.toNat (byteAddress_zero s.cfg), fun h => absurd h (by decide), rfl, ?_⟩
    have := hs.msg_length
    simp only [State.withReply, List.length_append, List.length_take, List.length_drop, List.length_singleton]
    omega
  obtain ⟨t, hrun, ht, hbytes, hkind⟩ := execAll_readFlash_verified hstart htotal
    (by rw [Nat.zero_add]; exact hsum) hne hfit
  rw [Nat.zero_add] at hbytes
  refine ⟨t, ?_, hbytes, hkind, ?_⟩
  · rw [execAll, exec_loadAddress hs.msg_length h2]
    exact hrun
  · rw [State.display, ht, if_neg htotal, hkind, hbytes]

end Sys2Proof.Machine
end

section
/-! PROOFS. Program flash: the state before its reply as one record, the bytes of flash it leaves, and a programming
pass. -/

namespace Sys2Proof.Machine

/-! ## Erase-ahead, fill and commit -/

/-- The erase frontier after a Program flash (44_cmd_program R182, R194). -/
def State.nextFrontier (s : State) : Word :=
  if s.eraseFrontier.toNat < s.cfg.boundary then truncAddr s.cfg (s.eraseFrontier + BitVec.ofNat 32 s.cfg.pageSize)
  else s.eraseFrontier

/-- The frontier advances by whole pages up to the boundary, so it does not wrap. -/
theorem nextFrontier_toNat {s : State} (hs : s.DataInv) :
    s.nextFrontier.toNat =
      if s.eraseFrontier.toNat < s.cfg.boundary then s.eraseFrontier.toNat + s.cfg.pageSize
      else s.eraseFrontier.toNat := by
  obtain ⟨-, -, -, hb, -, -, hlt, -⟩ := hs.cfg_wf
  have hbits : 2 ^ s.cfg.addrWidth.bits ≤ 2 ^ 32 := Nat.pow_le_pow_right (by decide) (bits_le _)
  unfold State.nextFrontier
  split
  · have hend := page_end_le hs.frontier_aligned hb ‹_›
    rw [truncAddr_add_toNat, BitVec.toNat_ofNat, Nat.mod_eq_of_lt (a := s.cfg.pageSize) (by omega),
      Nat.mod_eq_of_lt (by omega)]
  · rfl

/-- What a flash byte holds when Program flash commits its page (44_cmd_program R182): erased where the erase-ahead took
it. -/
def State.beforeCommit (s : State) (x : Nat) : Byte :=
  if s.eraseFrontier.toNat < s.cfg.boundary ∧ inPageOf s.cfg s.eraseFrontier.toNat x then s.cfg.erasedByte
  else s.flash.read x

/-- The state before the reply of Program flash (44_cmd_program R181). -/
def State.programmed (s : State) (size : Half) (data : List Byte) : State :=
  let ahead := (s.progressOnWrite s.currentAddress size).eraseAhead
  if s.currentAddress.toNat < s.cfg.boundary then
    (fillWords (data.take size.toNat) ahead).commit s.currentAddress
  else ahead

/-- Program flash answers unless it would read data beyond the buffer (44_cmd_program R181, 93 U6). -/
theorem exec_programFlash_eq {s : State} {size : Half} {data : List Byte} :
    exec (.programFlash size data) s =
      if s.currentAddress.toNat < s.cfg.boundary ∧ data.length < 2 * (size.toNat / 2) then .fault .msgIndexOutOfRange
      else (s.programmed size data).reply [s.cfg.statusOk] := by
  rw [exec, execProgramFlash, State.writeStep]
  simp only [State.eraseAhead_cfg, State.progressOnWrite, State.progress_cfg, State.programmed]
  by_cases hlow : s.currentAddress.toNat < s.cfg.boundary
  · by_cases hd : 2 * (size.toNat / 2) ≤ data.length
    · simp only [hlow, hd, if_true, Nat.not_lt.2 hd, and_false, if_false]
    · simp only [hlow, hd, if_true, if_false, Nat.not_le.1 hd, and_self]
  · simp only [hlow, if_false, false_and]

/-- Program flash where the data reaches the words the packet names. -/
theorem exec_programFlash {s : State} {size : Half} {data : List Byte}
    (hd : s.currentAddress.toNat < s.cfg.boundary → 2 * (size.toNat / 2) ≤ data.length) :
    exec (.programFlash size data) s = (s.programmed size data).reply [s.cfg.statusOk] := by
  rw [exec_programFlash_eq, if_neg]
  rintro ⟨hlow, hlt⟩
  exact Nat.not_le.2 hlt (hd hlow)

/-- The state with the erase done and the registers of the packet advanced (44_cmd_program R182, R184). -/
theorem eraseAhead_progress_eq (s : State) (size : Half) :
    (s.progressOnWrite s.currentAddress size).eraseAhead =
      { s with
        bytesTransferred :=
          if s.totalUploadSize = 0 then s.bytesTransferred
          else if s.currentAddress = 0 then size.setWidth 32 else s.bytesTransferred + size.setWidth 32
        operationKind := if s.totalUploadSize ≠ 0 ∧ s.currentAddress = 0 then .write else s.operationKind
        eraseFrontier := s.nextFrontier
        rwwBlocked := if s.eraseFrontier.toNat < s.cfg.boundary then true else s.rwwBlocked
        flash := if s.eraseFrontier.toNat < s.cfg.boundary then (s.pageErase s.eraseFrontier.toNat).flash
          else s.flash } := by
  rw [State.progressOnWrite, progress_eq, eraseAhead_eq, State.nextFrontier]
  dsimp only
  split <;> rfl

/-- Everything the state before the reply of Program flash holds, but for the bytes of flash (44_cmd_program R181 to
R187). -/
theorem programmed_eq {s : State} (hs : s.DataInv) {size : Half} {data : List Byte}
    (hd : s.currentAddress.toNat < s.cfg.boundary → 2 * (size.toNat / 2) ≤ data.length) :
    s.programmed size data =
      { s with
        currentAddress := if s.currentAddress.toNat < s.cfg.boundary then s.addressAfter (2 * (size.toNat / 2))
          else s.currentAddress
        eraseFrontier := s.nextFrontier
        bytesTransferred :=
          if s.totalUploadSize = 0 then s.bytesTransferred
          else if s.currentAddress = 0 then size.setWidth 32 else s.bytesTransferred + size.setWidth 32
        operationKind := if s.totalUploadSize ≠ 0 ∧ s.currentAddress = 0 then .write else s.operationKind
        rwwBlocked := if s.currentAddress.toNat < s.cfg.boundary then false
          else if s.eraseFrontier.toNat < s.cfg.boundary then true else s.rwwBlocked
        flash := (s.programmed size data).flash
        freeCount := (s.programmed size data).freeCount } := by
  unfold State.programmed
  dsimp only
  rw [eraseAhead_progress_eq]
  by_cases hlow : s.currentAddress.toNat < s.cfg.boundary
  · obtain ⟨p, k, hfill⟩ := fillWords_state (data.take size.toNat) ((s.progressOnWrite s.currentAddress size).eraseAhead)
    rw [eraseAhead_progress_eq] at hfill
    have hlen : (data.take size.toNat).length / 2 = size.toNat / 2 := by
      have := hd hlow
      rw [List.length_take]
      omega
    have haddr : (if (data.take size.toNat).length < 2 then s.currentAddress
        else truncAddr s.cfg (s.currentAddress + BitVec.ofNat 32 (2 * ((data.take size.toNat).length / 2)))) =
          s.addressAfter (2 * (size.toNat / 2)) := by
      rw [hlen]
      split
      · have hzero : size.toNat / 2 = 0 := by omega
        rw [hzero, Nat.mul_zero, addressAfter_zero hs.address_lt]
      · rfl
    simp only [if_pos hlow, hfill, haddr, State.commit, State.pageWrite, State.rwwEnable, ← hs.pbuf_empty]
  · simp only [if_neg hlow]

/-! ## The bytes of flash -/

@[simp] theorem fillWords_cfg (data : List Byte) (s : State) : (fillWords data s).cfg = s.cfg := by
  obtain ⟨p, k, h⟩ := fillWords_state data s
  rw [h]

@[simp] theorem fillWords_flash (data : List Byte) (s : State) : (fillWords data s).flash = s.flash := by
  obtain ⟨p, k, h⟩ := fillWords_state data s
  rw [h]

theorem eraseAhead_flash_wf {s : State} (h : s.flash.wf) : s.eraseAhead.flash.wf := by
  rw [eraseAhead_eq]
  split
  · exact Memory.writeBytes_wf h _ _
  · exact h

/-- The bytes of flash after the erase-ahead (44_cmd_program R182). -/
theorem eraseAhead_progress_read {s : State} (hf : s.flash.wf) (size : Half) (x : Nat) :
    (s.progressOnWrite s.currentAddress size).eraseAhead.flash.read x = s.beforeCommit x := by
  rw [eraseAhead_progress_eq, State.beforeCommit]
  dsimp only
  by_cases he : s.eraseFrontier.toNat < s.cfg.boundary
  · rw [if_pos he, pageErase_read hf]
    simp only [he, true_and]
  · simp only [he, false_and, if_false]

/-- The page buffer when Program flash commits it. -/
def State.filled (s : State) (size : Half) (data : List Byte) : List Byte :=
  (fillWords (data.take size.toNat) (s.progressOnWrite s.currentAddress size).eraseAhead).pbuf

/-- The bytes of flash after a Program flash: those of the packet's page and-ed with the page buffer (44_cmd_program
R178, R185). -/
theorem programmed_read {s : State} (hf : s.flash.wf) (size : Half) (data : List Byte) (x : Nat) :
    (s.programmed size data).flash.read x =
      if s.currentAddress.toNat < s.cfg.boundary ∧ inPageOf s.cfg s.currentAddress.toNat x then
        s.beforeCommit x &&&
          (s.filled size data).getD (x - pageOf s.cfg s.currentAddress.toNat) s.cfg.erasedByte
      else s.beforeCommit x := by
  unfold State.programmed
  dsimp only
  by_cases hlow : s.currentAddress.toNat < s.cfg.boundary
  · have hwf : (s.progressOnWrite s.currentAddress size).eraseAhead.flash.wf :=
      eraseAhead_flash_wf (by simpa [State.progressOnWrite] using hf)
    have hcfg : (s.progressOnWrite s.currentAddress size).eraseAhead.cfg = s.cfg := by simp [State.progressOnWrite]
    simp only [hlow, if_true, true_and, State.commit, State.rwwEnable_flash, State.filled]
    rw [pageWrite_read (by rw [fillWords_flash]; exact hwf), fillWords_cfg, fillWords_flash, hcfg,
      eraseAhead_progress_read hf]
  · simp only [hlow, if_false, false_and]
    exact eraseAhead_progress_read hf size x

/-- Settles O28: the state before the reply as one record, and the pages of the erase and of the commit. -/
theorem programFlashOutcomes : Obligations.ProgramFlashOutcomes := by
  intro s size data hs hd h2
  have hwords : 2 * (size.toNat / 2) ≤ data.length := by omega
  have hstate := programmed_eq hs.data (fun _ => hwords)
  have hread := programmed_read hs.flash_wf size data
  have hreply : (s.programmed size data).reply [s.cfg.statusOk] =
      .next ((s.programmed size data).withReply [s.cfg.statusOk]) :=
    reply_next (by rw [hstate]; exact hs.msg_length) (by rw [hstate]; exact h2)
  refine ⟨_, (exec_programFlash fun _ => hwords).trans hreply, ?_, ?_, ?_, ?_, ?_, ?_, fun x he hc => ?_,
    fun x he hpage hc => ?_⟩
  · rw [hstate]
    rfl
  · rw [← nextFrontier_toNat hs.data, hstate]
    rfl
  · rw [hstate]
    rfl
  · rw [hstate]
    rfl
  · rw [hstate]
    rfl
  · rw [hstate]
    rfl
  · exact (hread x).trans (by rw [if_neg hc, State.beforeCommit, if_neg he])
  · exact (hread x).trans (by rw [if_neg hc, State.beforeCommit, if_pos ⟨he, hpage⟩])

/-! ## The page buffer of a packet from an even address -/

/-- The fill loop puts the whole words of the packet in the slots of their addresses, which do not leave the page
(44_cmd_program R177, R183, R189). -/
theorem fillWords_pbuf {data : List Byte} {s : State} (hc : s.cfg.Wf) (ha : s.currentAddress.toNat % 2 = 0) :
    (fillWords data s).pbuf =
      setCells s.pbuf (slotCells s.cfg.pageSize s.currentAddress.toNat (data.take (2 * (data.length / 2)))) := by
  induction data using List.twoStepInduction generalizing s with
  | nil => rfl
  | singleton b => simp [fillWords]
  | cons_cons lo hi rest ih _ =>
    have htwo : (2 : Word) = BitVec.ofNat 32 2 := rfl
    have hlen : 2 * ((lo :: hi :: rest).length / 2) = 2 * (rest.length / 2) + 1 + 1 := by
      simp only [List.length_cons]
      omega
    have hnext : (truncAddr s.cfg (s.currentAddress + 2)).toNat % 2 = 0 := by
      have := addressAfter_mod s 2 (two_dvd_two_pow_bits s.cfg.addrWidth)
      rw [State.addressAfter, ← htwo] at this
      omega
    have hslot : (truncAddr s.cfg (s.currentAddress + 2)).toNat % s.cfg.pageSize =
        (s.currentAddress.toNat + 1 + 1) % s.cfg.pageSize := addressAfter_mod s 2 (pageSize_dvd hc)
    rw [fillWords, pageFill_of_even hc ha, ih (by exact hc) (by exact hnext)]
    simp only [State.advance_pbuf, State.advance_cfg, State.advance_currentAddress, hlen, List.take_succ_cons,
      slotCells_cons, slotCells_congr hslot, setCells_cons, slotCells_nil, setCells_nil]

/-- The page buffer of a packet of the stated size from an even address. -/
theorem filled_eq {s : State} (hs : s.DataInv) (ha : s.currentAddress.toNat % 2 = 0) {size : Half} {data : List Byte}
    (hd : data.length = size.toNat) :
    s.filled size data = setCells (emptyPbuf s.cfg)
      (slotCells s.cfg.pageSize s.currentAddress.toNat (data.take (2 * (size.toNat / 2)))) := by
  rw [State.filled, fillWords_pbuf (by rw [eraseAhead_progress_eq]; exact hs.cfg_wf)
    (by rw [eraseAhead_progress_eq]; exact ha), eraseAhead_progress_eq, List.take_of_length_le hd.le, hd, hs.pbuf_empty]

/-- The byte last filled in a slot of the packet's page stands there. -/
theorem filled_getD_last {s : State} (hs : s.DataInv) (ha : s.currentAddress.toNat % 2 = 0) {size : Half}
    {data : List Byte} (hd : data.length = size.toNat) {i : Nat} (hi : i < 2 * (size.toNat / 2))
    (hlast : ∀ j, i < j → j < 2 * (size.toNat / 2) →
      (s.currentAddress.toNat + j) % s.cfg.pageSize ≠ (s.currentAddress.toNat + i) % s.cfg.pageSize) :
    (s.filled size data).getD ((s.currentAddress.toNat + i) % s.cfg.pageSize) s.cfg.erasedByte = data.getD i 0 := by
  have h2 : 2 ≤ s.cfg.pageSize := hs.cfg_wf.1
  have hlen : (data.take (2 * (size.toNat / 2))).length = 2 * (size.toNat / 2) :=
    List.length_take_of_le (by omega)
  rw [filled_eq hs ha hd, setCells_slotCells_last (e := 0) (by omega) (emptyPbuf_length _) (by omega)
    (by rw [hlen]; exact hlast)]
  simp [List.getD_eq_getElem?_getD, hi]

/-- A slot of the packet's page that no byte goes to is empty. -/
theorem filled_getD_of_ne {s : State} (hs : s.DataInv) (ha : s.currentAddress.toNat % 2 = 0) {size : Half}
    {data : List Byte} (hd : data.length = size.toNat) {k : Nat}
    (h : ∀ i, i < 2 * (size.toNat / 2) → (s.currentAddress.toNat + i) % s.cfg.pageSize ≠ k) :
    (s.filled size data).getD k s.cfg.erasedByte = s.cfg.erasedByte := by
  have hlen : (data.take (2 * (size.toNat / 2))).length = 2 * (size.toNat / 2) :=
    List.length_take_of_le (by omega)
  rw [filled_eq hs ha hd, setCells_slotCells_of_ne (by rw [hlen]; exact h), emptyPbuf_getD]

/-- Settles O29: the bytes of the packet's page are and-ed with the slots of the page buffer. -/
theorem programFlashPageContents : Obligations.ProgramFlashPageContents := by
  intro s t size data hs hd hlow ha hexec k hk x old
  obtain ⟨-, ht⟩ := reply_cases ((exec_programFlash fun _ => by omega).symm.trans hexec)
  have hslot : x - pageOf s.cfg s.currentAddress.toNat = k := Nat.add_sub_cancel_left _ _
  have hpage : inPageOf s.cfg s.currentAddress.toNat x := ⟨Nat.le_add_right _ _, Nat.add_lt_add_left hk _⟩
  have hread : t.flash.read x = old &&& (s.filled size data).getD k s.cfg.erasedByte := by
    rw [ht, ← hslot]
    exact (programmed_read hs.flash_wf size data x).trans (if_pos ⟨hlow, hpage⟩)
  refine ⟨fun i hi hik hlast => ?_, fun h => ?_⟩
  · subst hik
    rw [hread, filled_getD_last hs.data ha hd hi hlast]
  · rw [hread, filled_getD_of_ne hs.data ha hd h]

end Sys2Proof.Machine
end

section
/-! PROOFS. A programming pass: the pages ahead of the packets are erased before they are filled, so the packets' bytes
stand in flash. -/

namespace Sys2Proof.Machine

/-! ## Program flash keeps the data invariant -/

/-- The page of an address below the boundary lies in the array. -/
theorem page_le_flashSize {c : Config} (hc : c.Wf) {a : Nat} (h : a < c.boundary) :
    pageOf c a + c.pageSize ≤ c.flashSize := by
  have hpage := pageOf_add_le hc h
  obtain ⟨-, -, -, -, -, hle, -⟩ := hc
  omega

theorem pageErase_flash_within {s : State} (hc : s.cfg.Wf) (h : s.flash.within s.cfg.flashSize) {a : Nat}
    (ha : a < s.cfg.boundary) : (s.pageErase a).flash.within s.cfg.flashSize :=
  Memory.writeBytes_within h (by rw [List.length_replicate]; exact page_le_flashSize hc ha)

theorem pageWrite_flash_within {s : State} (hc : s.cfg.Wf) (h : s.flash.within s.cfg.flashSize) {a : Nat}
    (ha : a < s.cfg.boundary) : (s.pageWrite a).flash.within s.cfg.flashSize :=
  Memory.writeBytes_within h (by rw [mergedPage_length]; exact page_le_flashSize hc ha)

theorem eraseAhead_flash_within {s : State} (hc : s.cfg.Wf) (h : s.flash.within s.cfg.flashSize) :
    s.eraseAhead.flash.within s.cfg.flashSize := by
  rw [eraseAhead_eq]
  split
  · exact pageErase_flash_within hc h ‹_›
  · exact h

/-- Program flash keeps flash in canonical form and within its array (10_state R29). -/
theorem programmed_flash_wf {s : State} (hs : s.DataInv) (size : Half) (data : List Byte) :
    (s.programmed size data).flash.wf ∧ (s.programmed size data).flash.within s.cfg.flashSize := by
  have hwf : (s.progressOnWrite s.currentAddress size).eraseAhead.flash.wf :=
    eraseAhead_flash_wf (by simpa [State.progressOnWrite] using hs.flash_wf)
  have hwithin : (s.progressOnWrite s.currentAddress size).eraseAhead.flash.within s.cfg.flashSize := by
    have h := eraseAhead_flash_within (s := s.progressOnWrite s.currentAddress size)
      (by simpa [State.progressOnWrite] using hs.cfg_wf) (by simpa [State.progressOnWrite] using hs.flash_within)
    simpa [State.progressOnWrite] using h
  have hcfg : (s.progressOnWrite s.currentAddress size).eraseAhead.cfg = s.cfg := by simp [State.progressOnWrite]
  unfold State.programmed
  dsimp only
  split
  · rw [State.commit, State.rwwEnable_flash]
    refine ⟨pageWrite_flash_wf (by rw [fillWords_flash]; exact hwf) _, ?_⟩
    have h := pageWrite_flash_within (s := fillWords (data.take size.toNat)
      (s.progressOnWrite s.currentAddress size).eraseAhead) (a := s.currentAddress.toNat)
    rw [fillWords_cfg, fillWords_flash, hcfg] at h
    exact h hs.cfg_wf hwithin ‹_›
  · exact ⟨hwf, hwithin⟩

/-- Program flash keeps what every handler keeps (10_state R11). -/
theorem programmed_dataInv {s : State} (hs : s.DataInv) {size : Half} {data : List Byte}
    (hd : s.currentAddress.toNat < s.cfg.boundary → 2 * (size.toNat / 2) ≤ data.length) :
    (s.programmed size data).DataInv := by
  obtain ⟨hwf, hwithin⟩ := programmed_flash_wf hs size data
  obtain ⟨-, -, -, hb, -⟩ := hs.cfg_wf
  have haligned : s.nextFrontier.toNat % s.cfg.pageSize = 0 ∧ s.nextFrontier.toNat ≤ s.cfg.boundary := by
    rw [nextFrontier_toNat hs]
    split
    · exact ⟨by rw [Nat.add_mod_right, hs.frontier_aligned], page_end_le hs.frontier_aligned hb ‹_›⟩
    · exact ⟨hs.frontier_aligned, hs.frontier_le⟩
  rw [programmed_eq hs hd]
  exact { hs with
    flash_wf := hwf
    flash_within := hwithin
    frontier_aligned := haligned.1
    frontier_le := haligned.2
    address_lt := by
      dsimp only
      split
      · exact addressAfter_lt _ _
      · exact hs.address_lt }

/-! ## The state of a programming pass -/

/-- A programming pass from `s` with an erased byte of 0xFF in which packets of `size` bytes have brought `done` into
flash: the counters, the packets' bytes, and the erased bytes between them and the frontier (44_cmd_program R193). -/
structure State.PassOf (s : State) (size : Nat) (done : List Byte) (t : State) : Prop where
  data : t.DataInv
  cfg : t.cfg = s.cfg
  total : t.totalUploadSize = s.totalUploadSize
  whole : size ∣ done.length
  address : t.currentAddress.toNat = done.length
  ahead : done.length ≤ t.eraseFrontier.toNat
  written : ∀ x, x < done.length → t.flash.read x = done.getD x 0
  erased : ∀ x, done.length ≤ x → x < t.eraseFrontier.toNat → t.flash.read x = 0xFF
  kept : ∀ x, s.cfg.boundary ≤ x → t.flash.read x = s.flash.read x
  enabled : 0 < done.length → t.rwwBlocked = false
  counted : t.totalUploadSize ≠ 0 → 0 < done.length →
    t.bytesTransferred.toNat = done.length ∧ t.operationKind = .write

/-- A size that divides the page divides it into packets: the slots of a packet follow one another. -/
theorem packet_slots {p size a : Nat} (hp : 0 < p) (hsize : size ∣ p) (ha : size ∣ a) {i : Nat} (hi : i < size) :
    (a + i) % p = a % p + i ∧ a % p + size ≤ p := by
  have hmod : a % p % size = 0 := by rw [Nat.mod_mod_of_dvd _ hsize, Nat.mod_eq_zero_of_dvd ha]
  have hend : a % p + size ≤ p := page_end_le hmod (Nat.mod_eq_zero_of_dvd hsize) (Nat.mod_lt a hp)
  exact ⟨by rw [Nat.add_mod, Nat.mod_eq_of_lt (a := i) (by omega), Nat.mod_eq_of_lt (by omega)], hend⟩

theorem and_erased (b : Byte) : b &&& 0xFF = b := BitVec.and_allOnes

theorem erased_and (b : Byte) : 0xFF &&& b = b := BitVec.allOnes_and

section Packet

variable {s t : State} {size : Half} {done packet : List Byte}

/-- What the commit of the next packet finds: the packets before it, and behind them erased bytes up to the frontier
after the erase-ahead. -/
theorem State.PassOf.beforeCommit (h : s.PassOf size.toNat done t) (herased : s.cfg.erasedByte = 0xFF) (x : Nat) :
    (x < done.length → t.beforeCommit x = done.getD x 0) ∧
      (done.length ≤ x → x < t.nextFrontier.toNat → t.beforeCommit x = 0xFF) ∧
      (s.cfg.boundary ≤ x → t.beforeCommit x = s.flash.read x) := by
  have hpage : pageOf t.cfg t.eraseFrontier.toNat = t.eraseFrontier.toNat := pageOf_of_aligned h.data.frontier_aligned
  obtain ⟨-, -, -, hb, -⟩ := h.data.cfg_wf
  have hahead := h.ahead
  have hcfg := h.cfg
  unfold State.beforeCommit
  refine ⟨fun hx => ?_, fun hx hlt => ?_, fun hx => ?_⟩
  · rw [if_neg (by rintro ⟨-, hle, -⟩; omega), h.written x hx]
  · rw [nextFrontier_toNat h.data] at hlt
    by_cases hin : t.eraseFrontier.toNat < t.cfg.boundary ∧ inPageOf t.cfg t.eraseFrontier.toNat x
    · rw [if_pos hin, hcfg, herased]
    · rw [if_neg hin]
      refine h.erased x hx ?_
      by_contra hge
      refine hin ⟨?_, ?_⟩
      · split at hlt <;> omega
      · rw [inPageOf, hpage]
        split at hlt <;> omega
  · rw [if_neg ?_, h.kept x hx]
    rintro ⟨hlow, -, hlt⟩
    have := page_end_le h.data.frontier_aligned hb hlow
    rw [hpage] at hlt
    rw [← hcfg] at hx
    omega

/-- The page of the next packet ends at or before the frontier after the erase-ahead. -/
theorem State.PassOf.page_le_frontier (h : s.PassOf size.toNat done t) (hlow : done.length < s.cfg.boundary) :
    pageOf t.cfg done.length + t.cfg.pageSize ≤ t.nextFrontier.toNat := by
  obtain ⟨-, -, -, hb, -⟩ := h.data.cfg_wf
  have hle := pageOf_le t.cfg done.length
  have hahead := h.ahead
  rw [nextFrontier_toNat h.data]
  split
  · omega
  · have hpage := pageOf_add_le h.data.cfg_wf (h.cfg ▸ hlow)
    omega

/-- Every byte of flash after the next packet: the pass goes on with its bytes. -/
theorem State.PassOf.programmed_read (h : s.PassOf size.toNat done t) (herased : s.cfg.erasedByte = 0xFF)
    (heven : size.toNat % 2 = 0) (hpos : 0 < size.toNat) (hdvd : size.toNat ∣ s.cfg.pageSize)
    (hpacket : packet.length = size.toNat) (hfit : done.length + size.toNat ≤ s.cfg.boundary) (x : Nat) :
    (x < (done ++ packet).length → (t.programmed size packet).flash.read x = (done ++ packet).getD x 0) ∧
      ((done ++ packet).length ≤ x → x < t.nextFrontier.toNat → (t.programmed size packet).flash.read x = 0xFF) ∧
      (s.cfg.boundary ≤ x → (t.programmed size packet).flash.read x = s.flash.read x) := by
  have hcfg := h.cfg
  have hboundary : t.cfg.boundary = s.cfg.boundary := congrArg _ hcfg
  have hp : 0 < t.cfg.pageSize := by have := h.data.cfg_wf.1; omega
  have hend := h.page_le_frontier (by omega)
  obtain ⟨hdone, hahead, hkept⟩ := h.beforeCommit herased x
  have hread := Machine.programmed_read h.data.flash_wf size packet x
  rw [h.address] at hread
  have hlow : done.length < t.cfg.boundary := by omega
  have hpage := pageOf_add_le h.data.cfg_wf hlow
  have hbase := pageOf_add_mod t.cfg done.length
  have heven' : t.currentAddress.toNat % 2 = 0 := by
    rw [h.address]
    exact Nat.mod_eq_zero_of_dvd ((Nat.dvd_of_mod_eq_zero heven).trans h.whole)
  have hslots : ∀ i, i < size.toNat →
      (t.currentAddress.toNat + i) % t.cfg.pageSize = done.length % t.cfg.pageSize + i ∧
        done.length % t.cfg.pageSize + size.toNat ≤ t.cfg.pageSize := fun i hi => by
    rw [h.address]
    exact packet_slots hp (hcfg ▸ hdvd) h.whole hi
  have hwords : 2 * (size.toNat / 2) = size.toNat := by omega
  have hroom := (hslots 0 hpos).2
  have hslot : done.length ≤ x → x < done.length + size.toNat →
      (t.filled size packet).getD (x - pageOf t.cfg done.length) t.cfg.erasedByte = packet.getD (x - done.length) 0 := by
    intro hle hlt
    have hi : x - done.length < size.toNat := by omega
    have hx : x - pageOf t.cfg done.length = (t.currentAddress.toNat + (x - done.length)) % t.cfg.pageSize := by
      rw [(hslots _ hi).1]
      omega
    rw [hx]
    refine filled_getD_last h.data heven' hpacket (by omega) fun j hj hjlt => ?_
    rw [(hslots _ hi).1, (hslots j (by omega)).1]
    omega
  have hempty : ∀ k, k < done.length % t.cfg.pageSize ∨ done.length % t.cfg.pageSize + size.toNat ≤ k →
      (t.filled size packet).getD k t.cfg.erasedByte = 0xFF := by
    intro k hk
    rw [filled_getD_of_ne h.data heven' hpacket, hcfg, herased]
    intro i hi
    rw [(hslots i (by omega)).1]
    omega
  rw [List.length_append, hpacket]
  refine ⟨fun hx => ?_, fun hx hlt => ?_, fun hx => ?_⟩
  · by_cases hold : x < done.length
    · rw [List.getD_append _ _ _ _ hold, hread, hdone hold]
      split
      · rw [hempty _ (.inl (by omega)), and_erased]
      · rfl
    · rw [List.getD_append_right _ _ _ _ (by omega), hread, if_pos ⟨hlow, by omega, by omega⟩,
        hslot (by omega) hx, hahead (by omega) (by omega), erased_and]
  · rw [hread, hahead (by omega) hlt]
    split
    · rw [hempty _ (.inr (by omega)), and_erased]
    · rfl
  · rw [hread, if_neg (by rintro ⟨-, -, hlt⟩; omega), hkept hx]

/-- One packet of a programming pass (44_cmd_program R181 to R187). -/
theorem State.PassOf.exec_packet (h : s.PassOf size.toNat done t) (herased : s.cfg.erasedByte = 0xFF)
    (heven : size.toNat % 2 = 0) (hpos : 0 < size.toNat) (hdvd : size.toNat ∣ s.cfg.pageSize)
    (h2 : 2 ≤ s.cfg.msgBufSize) (hpacket : packet.length = size.toNat)
    (hfit : done.length + size.toNat ≤ s.cfg.boundary) :
    ∃ u, exec (.programFlash size packet) t = .next u ∧ s.PassOf size.toNat (done ++ packet) u := by
  have hboundary : t.cfg.boundary = s.cfg.boundary := congrArg _ h.cfg
  obtain ⟨-, -, -, -, -, -, hbits, -⟩ := h.data.cfg_wf
  have hwide : 2 ^ t.cfg.addrWidth.bits ≤ 2 ^ 32 := Nat.pow_le_pow_right (by decide) (bits_le _)
  have hd : t.currentAddress.toNat < t.cfg.boundary → 2 * (size.toNat / 2) ≤ packet.length := fun _ => by omega
  have hstate := programmed_eq h.data hd
  have hdata := programmed_dataInv h.data hd
  have hfit2 : 1 + [t.cfg.statusOk].length ≤ (t.programmed size packet).cfg.msgBufSize := by
    rw [hstate]
    exact (congrArg Config.msgBufSize h.cfg).symm ▸ h2
  refine ⟨_, (exec_programFlash hd).trans (reply_next hdata.msg_length hfit2), ?_⟩
  have haddr : t.currentAddress.toNat < t.cfg.boundary := by rw [h.address]; omega
  have hlen : (done ++ packet).length = done.length + size.toNat := by rw [List.length_append, hpacket]
  have hread := h.programmed_read herased heven hpos hdvd hpacket hfit
  have hfrontier : (t.programmed size packet).eraseFrontier = t.nextFrontier := by rw [hstate]
  have hend := h.page_le_frontier (by omega)
  have hp : 0 < t.cfg.pageSize := by have := h.data.cfg_wf.1; omega
  have hroom := (packet_slots hp (h.cfg ▸ hdvd) h.whole (i := 0) (by omega)).2
  have hbase := pageOf_add_mod t.cfg done.length
  have hsize : (size.setWidth 32).toNat = size.toNat := by
    rw [BitVec.toNat_setWidth, Nat.mod_eq_of_lt (by omega)]
  have hcount : t.totalUploadSize ≠ 0 → (t.programmed size packet).bytesTransferred.toNat = (done ++ packet).length ∧
      (t.programmed size packet).operationKind = .write := by
    intro htotal
    rw [hstate, hlen]
    dsimp only
    rw [if_neg htotal]
    by_cases h0 : t.currentAddress = 0
    · have hdone : done.length = 0 := by rw [← h.address, h0]; rfl
      rw [if_pos h0, if_pos ⟨htotal, h0⟩, hsize, hdone, Nat.zero_add]
      exact ⟨rfl, rfl⟩
    · have hdone : 0 < done.length :=
        Nat.pos_of_ne_zero fun hdone => h0 (BitVec.eq_of_toNat_eq (h.address.trans hdone))
      obtain ⟨hbytes, hkind⟩ := h.counted htotal hdone
      rw [if_neg h0, if_neg fun hz => h0 hz.2, BitVec.toNat_add, hbytes, hsize, Nat.mod_eq_of_lt (by omega)]
      exact ⟨rfl, hkind⟩
  refine ⟨hdata.withReply hfit2, ?_, ?_, ?_, ?_, ?_, fun x => (hread x).1, fun x hx hlt => (hread x).2.1 hx ?_,
    fun x => (hread x).2.2, fun _ => ?_, fun htotal _ => ?_⟩
  · rw [hstate]
    exact h.cfg
  · rw [hstate]
    exact h.total
  · exact hlen ▸ h.whole.add (dvd_refl _)
  · have haddress : (t.programmed size packet).currentAddress = t.addressAfter (2 * (size.toNat / 2)) := by
      rw [hstate]
      exact if_pos haddr
    refine (congrArg BitVec.toNat haddress).trans ?_
    rw [addressAfter_toNat (by rw [h.address]; omega), h.address, hlen]
    omega
  · refine hlen.trans_le (Nat.le_trans ?_ (congrArg BitVec.toNat hfrontier).ge)
    omega
  · exact (congrArg BitVec.toNat hfrontier) ▸ hlt
  · rw [hstate]
    exact if_pos haddr
  · exact hcount fun hzero => htotal (by rw [← hzero, hstate]; rfl)

/-- The packets of a programming pass, one after another. -/
theorem State.PassOf.execAll_packets {packets : List (List Byte)} (h : s.PassOf size.toNat done t)
    (herased : s.cfg.erasedByte = 0xFF) (heven : size.toNat % 2 = 0) (hpos : 0 < size.toNat)
    (hdvd : size.toNat ∣ s.cfg.pageSize) (h2 : 2 ≤ s.cfg.msgBufSize) (hpackets : ∀ p ∈ packets, p.length = size.toNat)
    (hfit : done.length + packets.length * size.toNat ≤ s.cfg.boundary) :
    ∃ u, execAll (packets.map (Instr.programFlash size)) t = .next u ∧
      s.PassOf size.toNat (done ++ packets.flatten) u := by
  induction packets generalizing t done with
  | nil => exact ⟨t, rfl, by simpa using h⟩
  | cons p packets ih =>
    rw [List.length_cons, Nat.succ_mul] at hfit
    have hp := hpackets p List.mem_cons_self
    obtain ⟨v, hexec, hv⟩ := h.exec_packet herased heven hpos hdvd h2 hp (by omega)
    obtain ⟨u, hrun, hu⟩ := ih hv (fun q hq => hpackets q (List.mem_cons_of_mem _ hq))
      (by rw [List.length_append, hp]; omega)
    refine ⟨u, ?_, by simpa using hu⟩
    rw [List.map_cons, execAll, hexec]
    exact hrun

end Packet

/-- A programming pass begins with the address and the frontier at 0. -/
theorem passOf_start {s : State} (hs : s.DataInv) (size : Nat) (ha : s.currentAddress = 0) (hf : s.eraseFrontier = 0) :
    s.PassOf size [] s where
  data := hs
  cfg := rfl
  total := rfl
  whole := dvd_zero size
  address := by rw [ha]; rfl
  ahead := Nat.zero_le _
  written _ hx := absurd hx (Nat.not_lt_zero _)
  erased x _ hx := by
    rw [hf] at hx
    exact absurd hx (Nat.not_lt_zero _)
  kept _ _ := rfl
  enabled h := absurd h (Nat.lt_irrefl 0)
  counted _ h := absurd h (Nat.lt_irrefl 0)

/-- A Read flash from address 0 on answers the bytes of flash below the boundary (45_cmd_read R201, R211). -/
theorem exec_readFlash_from_zero {s : State} (hs : s.DataInv) (h0 : s.currentAddress = 0)
    (hr : s.rwwBlocked = false) {n : Half} (hn : n.toNat ≤ s.cfg.boundary) (hreply : n.toNat + 3 ≤ s.cfg.msgBufSize) :
    ∃ u, exec (.readFlash n) s = .next u ∧ u.len.toNat = n.toNat + 3 ∧
      (u.msg.drop 2).take n.toNat = (List.range n.toNat).map s.flash.read := by
  obtain ⟨-, -, -, -, -, hflash, hbits, -, hsize, -⟩ := hs.cfg_wf
  have hmsg := hs.msg_length
  obtain ⟨d, free, hd, hexec, hbytes, -⟩ := exec_readFlash (size := n) hmsg hs.address_lt hreply
  have hcurrent : s.currentAddress.toNat = 0 := by rw [h0]; rfl
  have htarget : ∀ i, i < n.toNat → s.flashTarget i = i := fun i hi => by
    have haddr : (s.addressAfter i).toNat = s.currentAddress.toNat + i := addressAfter_toNat (by omega)
    exact (congrArg (flashIndex s.cfg) haddr).trans
      (by rw [hcurrent, Nat.zero_add, flashIndex, Nat.mod_eq_of_lt (by omega)])
  have hdata : d = (List.range n.toNat).map s.flash.read := by
    refine List.ext_getElem (by simp [hd]) fun i hi _ => ?_
    have hin : i < n.toNat := hd ▸ hi
    have hbyte := hbytes i hin (.inl hr)
    rw [htarget i hin, List.getD_eq_getElem?_getD, List.getElem?_eq_getElem hi, Option.getD_some] at hbyte
    simpa using hbyte
  refine ⟨_, hexec, ?_, ?_⟩
  · simp only [State.withReply, List.cons_append, List.length_append, List.length_cons, List.length_nil, hd,
      BitVec.toNat_ofNat]
    omega
  · obtain ⟨op, rest, hop⟩ : ∃ op rest, s.msg = op :: rest := List.exists_cons_of_length_pos (by omega)
    rw [← hdata]
    simp [State.withReply, hop, ← hd]

/-- What a Read flash from address 0 on answers after a pass (45_cmd_read R211): the packets' bytes. -/
theorem State.PassOf.readBack {s t : State} {size : Nat} {done : List Byte} (h : s.PassOf size done t)
    (h2 : 2 ≤ s.cfg.msgBufSize) (hdone : 0 < done.length) (hfit : done.length ≤ s.cfg.boundary) {n : Half}
    (hn : n.toNat ≤ done.length) (hreply : n.toNat + 3 ≤ s.cfg.msgBufSize) :
    ∃ u, execAll [.loadAddress 0, .readFlash n] t = .next u ∧ u.len.toNat = n.toNat + 3 ∧
      (u.msg.drop 2).take n.toNat = done.take n.toNat := by
  rw [← h.cfg] at h2 hfit hreply
  have hloaded := exec_loadAddress h.data.msg_length h2 0
  rw [byteAddress_zero] at hloaded
  have hdata : ({ t with currentAddress := 0 }.withReply [t.cfg.statusOk]).DataInv :=
    State.DataInv.withReply (s := { t with currentAddress := 0 }) { h.data with address_lt := Nat.two_pow_pos _ } h2
  obtain ⟨u, hexec, hlen, hanswer⟩ := exec_readFlash_from_zero hdata rfl (h.enabled hdone) (n := n)
    (Nat.le_trans hn hfit) hreply
  refine ⟨u, ?_, hlen, hanswer.trans ?_⟩
  · rw [execAll, hloaded]
    dsimp only
    rw [execAll, hexec]
    rfl
  · refine List.ext_getElem (by simp [hn]) fun i hi _ => ?_
    have hin : i < n.toNat := by simpa using hi
    have hwritten := h.written i (by omega)
    rw [List.getD_eq_getElem?_getD, List.getElem?_eq_getElem (by omega), Option.getD_some] at hwritten
    rw [List.getElem_map, List.getElem_range, List.getElem_take]
    exact hwritten

/-- Settles O34: the pass starts at the state itself, its packets follow by induction, and the Read flash starts at
address 0 again. -/
theorem programmingPassReadsBack : Obligations.ProgrammingPassReadsBack := by
  intro s size packets hs h2 herased haddr hfrontier heven hpos hdvd hpackets hne hfit
  have hlen : packets.flatten.length = packets.length * size.toNat := by
    rw [List.length_flatten, List.map_congr_left hpackets]
    simp
  have hdone : 0 < packets.length * size.toNat := Nat.mul_pos (List.length_pos_of_ne_nil hne) hpos
  obtain ⟨t, hrun, ht⟩ := (passOf_start hs.data size.toNat haddr hfrontier).execAll_packets herased heven hpos
    (Nat.dvd_of_mod_eq_zero hdvd) h2 hpackets (by simpa using hfit)
  rw [List.nil_append] at ht
  refine ⟨t, hrun, ht.enabled (hlen ▸ hdone), ht.address.trans hlen, fun x hx => ht.written x (hlen ▸ hx), ht.kept,
    fun htotal => ?_, fun n hn hreply => ht.readBack h2 (hlen ▸ hdone) (hlen ▸ hfit) (hlen ▸ hn) hreply⟩
  rw [← hlen]
  exact ht.counted (by rw [ht.total]; exact htotal) (hlen ▸ hdone)

end Sys2Proof.Machine
end

section
/-! PROOFS. The self-update replay: the bytes of flash one page leaves, and by induction on the pages those of a whole
replay. -/

namespace Sys2Proof.Machine

/-! ## One page -/

/-- The state in which a page of the replay is filled (46_self_update R218): erased first, where the flags and the
boundary say so. -/
def State.opened (s : State) (flags : ReplayFlags) (d : Word) : State :=
  if flags.eraseDestination && decide (pageOf s.cfg d.toNat < s.cfg.boundary) then s.pageErase (pageOf s.cfg d.toNat)
  else s

/-- The page buffer when the replay commits a page. -/
def State.copied (s : State) (flags : ReplayFlags) (d a : Word) (m : Nat) : List Byte :=
  (copyWords flags.sourceIsProgramMemory (decide (pageOf s.cfg d.toNat < s.cfg.boundary)) ((m + 1) / 2) d a
    (s.opened flags d)).pbuf

theorem replayPage_eq (s : State) (flags : ReplayFlags) (d a : Word) (m : Nat) :
    s.replayPage flags d a m =
      (if flags.copyData then
        (if pageOf s.cfg d.toNat < s.cfg.boundary then
          (copyWords flags.sourceIsProgramMemory (decide (pageOf s.cfg d.toNat < s.cfg.boundary)) ((m + 1) / 2) d a
            (s.opened flags d)).pageWrite (pageOf s.cfg d.toNat)
        else copyWords flags.sourceIsProgramMemory (decide (pageOf s.cfg d.toNat < s.cfg.boundary)) ((m + 1) / 2) d a
          (s.opened flags d))
      else s.opened flags d).rwwEnable := by
  simp only [State.replayPage, State.opened, decide_eq_true_eq]

@[simp] theorem copyWords_cfg (fromFlash isOpen : Bool) (k : Nat) (d a : Word) (s : State) :
    (copyWords fromFlash isOpen k d a s).cfg = s.cfg := by
  obtain ⟨p, n, h⟩ := copyWords_state fromFlash isOpen k d a s
  rw [h]

@[simp] theorem copyWords_flash (fromFlash isOpen : Bool) (k : Nat) (d a : Word) (s : State) :
    (copyWords fromFlash isOpen k d a s).flash = s.flash := by
  obtain ⟨p, n, h⟩ := copyWords_state fromFlash isOpen k d a s
  rw [h]

@[simp] theorem opened_cfg (s : State) (flags : ReplayFlags) (d : Word) : (s.opened flags d).cfg = s.cfg := by
  unfold State.opened
  split <;> rfl

theorem pageOf_pageOf (c : Config) (a : Nat) : pageOf c (pageOf c a) = pageOf c a := pageOf_of_aligned (pageOf_mod c a)

theorem opened_flash_wf {s : State} (hf : s.flash.wf) (flags : ReplayFlags) (d : Word) :
    (s.opened flags d).flash.wf := by
  unfold State.opened
  split
  · exact pageErase_flash_wf hf _
  · exact hf

/-- The bytes of flash when a page is filled: those of an open page erased, with `EraseDestination`. -/
theorem opened_read {s : State} (hf : s.flash.wf) (flags : ReplayFlags) (d : Word) (x : Nat) :
    (s.opened flags d).flash.read x =
      if pageOf s.cfg d.toNat < s.cfg.boundary ∧ inPageOf s.cfg d.toNat x then s.beforeCopy flags x
      else s.flash.read x := by
  unfold State.opened State.beforeCopy
  by_cases hopen : pageOf s.cfg d.toNat < s.cfg.boundary
  · cases flags.eraseDestination
    · simp
    · simp only [hopen, decide_true, Bool.and_self, if_true, true_and]
      rw [pageErase_read hf, pageOf_pageOf]
  · simp [hopen]

/-- The bytes of flash after one page of the replay (46_self_update R218, R224). -/
theorem replayPage_read {s : State} (hf : s.flash.wf) (flags : ReplayFlags) (d a : Word) (m x : Nat) :
    (s.replayPage flags d a m).flash.read x =
      if pageOf s.cfg d.toNat < s.cfg.boundary ∧ inPageOf s.cfg d.toNat x then
        (if flags.copyData then
          s.beforeCopy flags x &&& (s.copied flags d a m).getD (x - pageOf s.cfg d.toNat) s.cfg.erasedByte
        else s.beforeCopy flags x)
      else s.flash.read x := by
  have hopened := opened_read hf flags d x
  rw [replayPage_eq, State.rwwEnable_flash]
  by_cases hcopy : flags.copyData
  · by_cases hopen : pageOf s.cfg d.toNat < s.cfg.boundary
    · simp only [hopen, true_and] at hopened
      simp only [hcopy, hopen, if_true, true_and]
      rw [pageWrite_read (by rw [copyWords_flash]; exact opened_flash_wf hf flags d), copyWords_cfg, copyWords_flash,
        opened_cfg, pageOf_pageOf, hopened, State.copied, decide_eq_true hopen]
      split
      · rfl
      · rfl
    · simpa [hcopy, hopen] using hopened
  · simpa [hcopy] using hopened

/-- One page of the replay keeps flash in canonical form and within its array (46_self_update R224). -/
theorem replayPage_flash_wf {s : State} (hs : s.DataInv) (flags : ReplayFlags) (d a : Word) (m : Nat) :
    (s.replayPage flags d a m).flash.wf ∧ (s.replayPage flags d a m).flash.within s.cfg.flashSize := by
  have hwf := opened_flash_wf hs.flash_wf flags d
  have hwithin : (s.opened flags d).flash.within s.cfg.flashSize := by
    unfold State.opened
    split
    next h =>
      rw [Bool.and_eq_true, decide_eq_true_eq] at h
      exact pageErase_flash_within hs.cfg_wf hs.flash_within h.2
    next => exact hs.flash_within
  rw [replayPage_eq, State.rwwEnable_flash]
  split_ifs with hcopy hopen
  · refine ⟨pageWrite_flash_wf (by rw [copyWords_flash]; exact hwf) _, ?_⟩
    have h := pageWrite_flash_within (s := copyWords flags.sourceIsProgramMemory
      (decide (pageOf s.cfg d.toNat < s.cfg.boundary)) ((m + 1) / 2) d a (s.opened flags d)) (a := pageOf s.cfg d.toNat)
    rw [copyWords_cfg, copyWords_flash, opened_cfg] at h
    exact h hs.cfg_wf hwithin hopen
  · rw [copyWords_flash]
    exact ⟨hwf, hwithin⟩
  · exact ⟨hwf, hwithin⟩

/-! ## What a replay leaves alone -/

/-- What every part of a replay leaves alone (46_self_update R218, R219, R224): all but flash below the boundary, the
read-while-write flag and the model's own counter. -/
structure State.Replayed (s t : State) : Prop where
  data : t.DataInv
  state : t = { s with flash := t.flash, rwwBlocked := t.rwwBlocked, freeCount := t.freeCount }
  kept : ∀ x, s.cfg.boundary ≤ x → t.flash.read x = s.flash.read x

theorem State.Replayed.refl {s : State} (hs : s.DataInv) : s.Replayed s := ⟨hs, rfl, fun _ _ => rfl⟩

theorem State.Replayed.cfg {s t : State} (h : s.Replayed t) : t.cfg = s.cfg := by rw [h.state]

theorem State.Replayed.trans {s t u : State} (h : s.Replayed t) (h' : t.Replayed u) : s.Replayed u where
  data := h'.data
  state := by
    have h1 := h.state
    have h2 := h'.state
    generalize t.flash = f, t.rwwBlocked = r, t.freeCount = k at h1
    subst h1
    exact h2
  kept x hx := (h'.kept x (h.cfg ▸ hx)).trans (h.kept x hx)

theorem replayPage_replayed {s : State} (hs : s.DataInv) (flags : ReplayFlags) (d a : Word) (m : Nat) :
    s.Replayed (s.replayPage flags d a m) := by
  obtain ⟨hwf, hwithin⟩ := replayPage_flash_wf hs flags d a m
  have hread := replayPage_read hs.flash_wf flags d a m
  obtain ⟨f, k, h⟩ := replayPage_state s flags d a m
  rw [← hs.pbuf_empty] at h
  rw [h] at hwf hwithin hread ⊢
  refine ⟨{ hs with flash_wf := hwf, flash_within := hwithin }, rfl, fun x hx => (hread x).trans (if_neg ?_)⟩
  rintro ⟨hopen, -, hlt⟩
  have hpage := page_end_le (pageOf_mod s.cfg d.toNat) hs.cfg_wf.2.2.2.1 hopen
  omega

theorem replayPages_replayed {flags : ReplayFlags} {fuel : Nat} {d a : Word} {n : Nat} {s : State} (hs : s.DataInv) :
    s.Replayed (replayPages flags fuel d a n s) := by
  induction fuel generalizing d a n s with
  | zero => exact .refl hs
  | succ fuel ih =>
    rw [replayPages]
    split
    · exact .refl hs
    · have hpage := replayPage_replayed hs flags d a (spanInPage s.cfg d n)
      exact hpage.trans (ih hpage.data)

/-- The replay does not block an enabled region (46_self_update R218). -/
theorem replayPages_enabled {flags : ReplayFlags} {fuel : Nat} {d a : Word} {n : Nat} {s : State}
    (h : s.rwwBlocked = false) : (replayPages flags fuel d a n s).rwwBlocked = false := by
  induction fuel generalizing d a n s with
  | zero => exact h
  | succ fuel ih =>
    rw [replayPages]
    split
    · exact h
    · obtain ⟨f, k, hp⟩ := replayPage_state s flags d a (spanInPage s.cfg d n)
      exact ih (by rw [hp])

/-- After a page the read-while-write memory is enabled (46_self_update R218). -/
theorem replayPages_rwwBlocked {flags : ReplayFlags} {d a : Word} {n : Nat} {s : State}
    (h : s.rwwBlocked = false ∨ n ≠ 0) : (replayPages flags n d a n s).rwwBlocked = false := by
  obtain h | hn := h
  · exact replayPages_enabled h
  · obtain ⟨fuel, rfl⟩ := Nat.exists_eq_succ_of_ne_zero hn
    obtain ⟨f, k, hp⟩ := replayPage_state s flags d a (spanInPage s.cfg d (fuel + 1))
    rw [replayPages, if_neg hn]
    exact replayPages_enabled (by rw [hp])

/-- With neither erase nor copy the replay writes nothing. -/
theorem replayPages_flash_of_idle {flags : ReplayFlags} (he : flags.eraseDestination = false)
    (hc : flags.copyData = false) (fuel : Nat) (d a : Word) (n : Nat) (s : State) :
    (replayPages flags fuel d a n s).flash = s.flash := by
  induction fuel generalizing d a n s with
  | zero => rfl
  | succ fuel ih =>
    rw [replayPages]
    split
    · rfl
    · rw [ih, replayPage_eq, if_neg (by simp [hc]), State.rwwEnable_flash, State.opened, if_neg (by simp [he])]

/-- Settles O38: the pages keep all but flash, the flag and the counter (induction on the pages); the invalidation and
the hand-off follow. -/
theorem replayEndsInHandoff : Obligations.ReplayEndsInHandoff := by
  intro s source destination size flags hs hdefer
  have hpages := replayPages_replayed (flags := flags) (fuel := size.toNat) (d := destination) (a := source)
    (n := size.toNat) hs.data
  obtain ⟨-, -, -, -, -, -, -, -, -, -, -, -, hmagic⟩ := hs.cfg_wf
  refine ⟨(replayPages flags size.toNat destination source size.toNat s).invalidate.handoff,
    if_neg (by simp [hdefer]), ?_, rfl, Ne.symm hmagic, fun h => ?_, hpages.kept, fun he hc => ?_⟩
  · have hstate := hpages.state
    generalize replayPages flags size.toNat destination source size.toNat s = u at hstate
    rw [hstate]
    rfl
  · exact replayPages_rwwBlocked (h.imp_right fun hsize hzero => hsize (BitVec.eq_of_toNat_eq hzero))
  · exact replayPages_flash_of_idle he hc _ _ _ _ _

/-! ## An erase-only replay -/

theorem spanInPage_pos {c : Config} (hp : 0 < c.pageSize) (d : Word) {n : Nat} (hn : n ≠ 0) : 0 < spanInPage c d n := by
  have := lt_pageOf_add hp d.toNat
  unfold spanInPage
  omega

theorem spanInPage_le (c : Config) (d : Word) (n : Nat) : spanInPage c d n ≤ n := Nat.min_le_left _ _

/-- What is left of a span behind its first page begins at the next page (46_self_update R218). -/
theorem next_page {c : Config} (hp : 0 < c.pageSize) {d : Word} {n : Nat} (hn : n - spanInPage c d n ≠ 0)
    (hspan : d.toNat + n ≤ 2 ^ 32) :
    spanInPage c d n = pageOf c d.toNat + c.pageSize - d.toNat ∧
      (d + BitVec.ofNat 32 (spanInPage c d n)).toNat = pageOf c d.toNat + c.pageSize := by
  have hd := d.isLt
  have hlt := lt_pageOf_add hp d.toNat
  have hm : spanInPage c d n = pageOf c d.toNat + c.pageSize - d.toNat := by
    unfold spanInPage at hn ⊢
    omega
  refine ⟨hm, ?_⟩
  rw [hm] at hn ⊢
  rw [BitVec.toNat_add, BitVec.toNat_ofNat, Nat.mod_eq_of_lt (a := pageOf c d.toNat + c.pageSize - d.toNat) (by omega),
    Nat.mod_eq_of_lt (by omega)]
  omega

/-- A byte of a page lies below a page-aligned bound exactly when the page does. -/
theorem page_lt_iff {p base b x : Nat} (hbase : base % p = 0) (hb : b % p = 0) (hle : base ≤ x) (hlt : x < base + p) :
    base < b ↔ x < b := by
  constructor
  · intro h
    have := page_end_le hbase hb h
    omega
  · omega

/-- What one page of an erase-only replay leaves at each address (46_self_update R219, R224). -/
theorem replayPage_read_of_erase {flags : ReplayFlags} (he : flags.eraseDestination = true)
    (hc : flags.copyData = false) {s : State} (hs : s.DataInv) (d a : Word) (m x : Nat) :
    (s.replayPage flags d a m).flash.read x =
      if pageOf s.cfg d.toNat ≤ x ∧ x < pageOf s.cfg d.toNat + s.cfg.pageSize ∧ x < s.cfg.boundary then
        s.cfg.erasedByte else s.flash.read x := by
  obtain ⟨-, -, -, hb, -⟩ := hs.cfg_wf
  have hiff := page_lt_iff (pageOf_mod s.cfg d.toNat) hb (x := x)
  rw [replayPage_read hs.flash_wf, State.beforeCopy, he, hc]
  exact if_congr ⟨fun ⟨hopen, hle, hlt⟩ => ⟨hle, hlt, (hiff hle hlt).1 hopen⟩,
    fun ⟨hle, hlt, hx⟩ => ⟨(hiff hle hlt).2 hx, hle, hlt⟩⟩ rfl rfl

/-- What an erase-only replay leaves at each address, by induction on its pages (46_self_update R219). -/
theorem replayPages_read_of_erase {flags : ReplayFlags} (he : flags.eraseDestination = true)
    (hc : flags.copyData = false) {fuel : Nat} {d a : Word} {n : Nat} {s : State} (hs : s.DataInv) (hn : n ≤ fuel)
    (hspan : d.toNat + n ≤ 2 ^ 32) (x : Nat) :
    (replayPages flags fuel d a n s).flash.read x =
      if n ≠ 0 ∧ pageOf s.cfg d.toNat ≤ x ∧ x < pageOf s.cfg (d.toNat + n - 1) + s.cfg.pageSize ∧ x < s.cfg.boundary
      then s.cfg.erasedByte else s.flash.read x := by
  induction fuel generalizing d a n s with
  | zero =>
    have h0 : n = 0 := by omega
    subst h0
    simp [replayPages]
  | succ fuel ih =>
    by_cases h0 : n = 0
    · simp [replayPages, h0]
    · have hp : 0 < s.cfg.pageSize := by have := hs.cfg_wf.1; omega
      have hm := spanInPage_pos hp d h0
      have hpage := replayPage_replayed hs flags d a (spanInPage s.cfg d n)
      have hstep : destinationStep flags (spanInPage s.cfg d n) = BitVec.ofNat 32 (spanInPage s.cfg d n) := by
        simp [destinationStep, hc]
      have hread := replayPage_read_of_erase he hc hs d a (spanInPage s.cfg d n) x
      rw [replayPages, if_neg h0]
      dsimp only
      rw [hstep]
      by_cases hrest : n - spanInPage s.cfg d n = 0
      · have hlast : pageOf s.cfg (d.toNat + n - 1) = pageOf s.cfg d.toNat := by
          have := pageOf_le s.cfg d.toNat
          refine (inPageOf_iff hp _ _).1 ⟨by omega, ?_⟩
          unfold spanInPage at hrest
          omega
        rw [ih hpage.data (by omega) (by have := (d + BitVec.ofNat 32 (spanInPage s.cfg d n)).isLt; omega), hread, hlast]
        simp [hrest, h0]
      · obtain ⟨hspan', hnext⟩ := next_page hp hrest hspan
        have hd := pageOf_le s.cfg d.toNat
        have hy := lt_pageOf_add hp (d.toNat + n - 1)
        have hlast : pageOf s.cfg d.toNat + s.cfg.pageSize + (n - spanInPage s.cfg d n) - 1 = d.toNat + n - 1 := by omega
        have haligned : pageOf s.cfg (pageOf s.cfg d.toNat + s.cfg.pageSize) = pageOf s.cfg d.toNat + s.cfg.pageSize :=
          pageOf_of_aligned (by rw [Nat.add_mod_right, pageOf_mod])
        rw [ih hpage.data (by omega) (by omega), hpage.cfg, hread, hnext, haligned, hlast]
        grind

/-- Settles O39: the pages of an erase-only replay (`replayPages_read_of_erase`). -/
theorem eraseOnlyReplayErasesTheSpan : Obligations.EraseOnlyReplayErasesTheSpan := by
  intro s t source destination size flags hs hdefer he hc hspan hexec x
  rw [exec, execSelfUpdateReplay, if_neg (by simp [hdefer])] at hexec
  obtain rfl := Host.Outcome.next.inj hexec
  have hsize : size ≠ 0 ↔ size.toNat ≠ 0 :=
    not_congr ⟨fun h => by rw [h]; rfl, fun h => BitVec.eq_of_toNat_eq h⟩
  simp only [hsize]
  exact replayPages_read_of_erase he hc hs.data (Nat.le_refl _) hspan x

end Sys2Proof.Machine
end

section
/-! PROOFS. The invariant: what each kind of step keeps, from the inversion of `step`. -/

namespace Sys2Proof.Machine

/-! ## A handler up to its reply -/

/-- The state of a request's handler before its reply (40_framer R113); a handler that only answers leaves it alone. -/
def State.handled (s : State) : Instr → State
  | .leaveProgmode => s.setExit
  | .programLock req => s.lockSet (lockRequest req)
  | .chipErase => { s with eraseFrontier := 0 }
  | .loadAddress waddr => { s with currentAddress := byteAddress s.cfg waddr }
  | .setUploadSize total =>
    { s with totalUploadSize := total.setWidth 32, bytesTransferred := 0, operationKind := .none }
  | .programFlash size data => s.programmed size data
  | .programEeprom size data => eeWriteBytes (data.take size.toNat) s
  | .readFlash size => (flashReadBytes size.toNat (s.progressOnRead s.currentAddress size)).2
  | .readEeprom size => (eeReadBytes size.toNat s).2
  | _ => s

theorem exec_programFlash_cases {s t : State} {size : Half} {data : List Byte}
    (h : exec (.programFlash size data) s = .next t) :
    (s.currentAddress.toNat < s.cfg.boundary → 2 * (size.toNat / 2) ≤ data.length) ∧
      (s.programmed size data).reply [s.cfg.statusOk] = .next t := by
  rw [exec_programFlash_eq] at h
  split at h
  · cases h
  next hd => exact ⟨fun hlow => Nat.le_of_not_lt fun hlt => hd ⟨hlow, hlt⟩, h⟩

theorem exec_programEeprom_cases {s t : State} {size : Half} {data : List Byte}
    (h : exec (.programEeprom size data) s = .next t) :
    size.toNat ≤ data.length ∧ (eeWriteBytes (data.take size.toNat) s).reply [s.cfg.statusOk] = .next t := by
  simp only [exec, execProgramEeprom] at h
  split at h
  · exact ⟨‹_›, h⟩
  · cases h

/-- The data a program command answers with reaches what its size names (93 U6). -/
def Instr.DataReaches (s : State) : Instr → Prop
  | .programFlash size data => s.currentAddress.toNat < s.cfg.boundary → 2 * (size.toNat / 2) ≤ data.length
  | .programEeprom size data => size.toNat ≤ data.length
  | _ => True

/-- Everything the handler of a request does: `handled`, then a reply. -/
theorem exec_cases {i : Instr} {s t : State} (hi : NoReplay (.ok i)) (h : exec i s = .next t) :
    Instr.DataReaches s i ∧ ∃ body, (s.handled i).reply body = .next t := by
  cases i with
  | selfUpdateReplay source destination size flags => exact absurd rfl (hi source destination size flags)
  | spiMulti sub sidx =>
    simp only [exec, execSpiMulti] at h
    split at h <;> exact ⟨trivial, _, h⟩
  | programFlash size data =>
    obtain ⟨hd, h⟩ := exec_programFlash_cases h
    exact ⟨hd, _, h⟩
  | programEeprom size data =>
    obtain ⟨hd, h⟩ := exec_programEeprom_cases h
    exact ⟨hd, _, h⟩
  | _ => exact ⟨trivial, _, h⟩

/-! ## Handlers keep the data invariant -/

theorem reply_dataInv {s t : State} (hs : s.DataInv) {body : List Byte} (h : s.reply body = .next t) : t.DataInv := by
  obtain ⟨hfit, -⟩ := reply_cases h
  rw [reply_next hs.msg_length hfit] at h
  exact Host.Outcome.next.inj h ▸ hs.withReply hfit

theorem progress_dataInv {s : State} (hs : s.DataInv) (kind : OperationKind) (a0 : Word) (size : Half) :
    (s.progress kind a0 size).DataInv := by
  rw [progress_eq]
  exact { hs with }

theorem flashReadBytes_dataInv {s : State} (hs : s.DataInv) (n : Nat) : (flashReadBytes n s).2.DataInv := by
  obtain ⟨free, h, -⟩ := flashReadBytes_state_eq n hs.address_lt
  rw [h]
  exact { hs with address_lt := addressAfter_lt _ _ }

theorem eeReadBytes_dataInv {s : State} (hs : s.DataInv) (n : Nat) : (eeReadBytes n s).2.DataInv := by
  rw [eeReadBytes_eq n hs.address_lt]
  exact { hs with address_lt := addressAfter_lt _ _ }

theorem eeWrite_dataInv {s : State} (hs : s.DataInv) (a : Half) (b : Byte) : (s.eeWrite a b).DataInv :=
  have ⟨_, _, _, _, _, _, _, hpos, _⟩ := hs.cfg_wf
  { hs with
    eeprom_wf := Memory.write_wf hs.eeprom_wf _ _
    eeprom_within := Memory.write_within hs.eeprom_within (Nat.mod_lt _ hpos) _ }

theorem eeWriteBytes_dataInv {s : State} (hs : s.DataInv) (bs : List Byte) : (eeWriteBytes bs s).DataInv := by
  induction bs generalizing s with
  | nil => exact hs
  | cons b bs ih => exact ih { eeWrite_dataInv hs _ b with address_lt := truncAddr_lt _ _ }

/-- The handler of a request keeps what every handler keeps. -/
theorem handled_dataInv {i : Instr} {s : State} (hs : s.DataInv) (hd : Instr.DataReaches s i) :
    (s.handled i).DataInv := by
  cases i with
  | leaveProgmode | programLock req => exact { hs with }
  | chipErase => exact { hs with frontier_aligned := Nat.zero_mod _, frontier_le := Nat.zero_le _ }
  | loadAddress waddr => exact { hs with address_lt := truncAddr_lt _ _ }
  | setUploadSize total =>
    refine { hs with total_lt := ?_ }
    exact (BitVec.toNat_setWidth _ _).trans_lt (Nat.lt_of_le_of_lt (Nat.mod_le _ _) total.isLt)
  | programFlash size data => exact programmed_dataInv hs hd
  | programEeprom size data => exact eeWriteBytes_dataInv hs _
  | readFlash size => exact flashReadBytes_dataInv (progress_dataInv hs _ _ _) _
  | readEeprom size => exact eeReadBytes_dataInv hs _
  | _ => exact hs

theorem exec_dataInv {i : Instr} {s t : State} (hi : NoReplay (.ok i)) (hs : s.DataInv) (h : exec i s = .next t) :
    t.DataInv := by
  obtain ⟨hd, body, hr⟩ := exec_cases hi h
  exact reply_dataInv (handled_dataInv hs hd) hr

/-! ## A reset brings the invariant back -/

/-- The part of the invariant that a reset needs: the memories it keeps (10_state R29, R38). -/
structure State.MemoryInv (s : State) : Prop where
  cfg_wf : s.cfg.Wf
  flash_wf : s.flash.wf
  flash_within : s.flash.within s.cfg.flashSize
  eeprom_wf : s.eeprom.wf
  eeprom_within : s.eeprom.within s.cfg.eepromSize
  ram_wf : s.ram.wf

theorem State.DataInv.memory {s : State} (hs : s.DataInv) : s.MemoryInv := { hs with }

theorem resetValues_dataInv {s : State} (hs : s.MemoryInv) (cause : ResetCause) : (s.resetValues cause).DataInv :=
  { hs with
    msg_length := List.length_replicate
    pbuf_empty := rfl
    ram_wf := by
      unfold State.resetValues
      dsimp only
      split
      · exact ⟨List.Pairwise.nil, fun _ h => absurd h List.not_mem_nil⟩
      · exact hs.ram_wf
    frontier_aligned := Nat.zero_mod _
    frontier_le := Nat.zero_le _
    address_lt := Nat.two_pow_pos _
    total_lt := Nat.two_pow_pos 24 }

/-- With the decoder in `AwaitStart` the invariant is the data invariant and what it says of phases. -/
theorem inv_of_awaitStart {t : State} (hd : t.DataInv) (hf : t.fstate = .awaitStart)
    (hexit : t.exitFlag = true → t.phase = .handedOff)
    (hboot : t.phase = .replay ∨ t.phase = .wait → t.rwwBlocked = false) : t.Inv :=
  { hd with
    len_ok := by simp [hf]
    idx_ok := by simp [hf]
    exit_handed := hexit
    boot_clean := fun h => ⟨hboot h, hf⟩ }

/-- After a reset the invariant holds whatever the registers held (10_state R39). -/
theorem afterReset_inv {s : State} (hs : s.MemoryInv) (cause : ResetCause) : (s.afterReset cause).Inv := by
  have hdata := resetValues_dataInv hs cause
  unfold State.afterReset
  split
  · exact inv_of_awaitStart (t := { s.resetValues cause with phase := .replay }) { hdata with } rfl nofun fun _ => rfl
  · exact inv_of_awaitStart (t := (s.resetValues cause).normalBoot) { hdata with } rfl nofun fun _ => rfl

theorem runApplication_memoryInv {s : State} (hs : s.MemoryInv) (did : List ApplicationEffect) :
    (s.runApplication did).MemoryInv := by
  obtain ⟨hf, hfw, he, hew, hr⟩ := runApplication_wf hs.cfg_wf hs.flash_wf hs.flash_within hs.eeprom_wf hs.eeprom_within
    hs.ram_wf did
  obtain ⟨d, r, f, e, v, h⟩ := runApplication_state s did
  rw [h] at hf hfw he hew hr ⊢
  exact { hs with flash_wf := hf, flash_within := hfw, eeprom_wf := he, eeprom_within := hew, ram_wf := hr }

theorem freePage_flash (s : State) (a : Nat) : (s.freePage a).flash = s.flash.writeBytes (pageOf s.cfg a)
    ((List.range s.cfg.pageSize).map fun k => Config.freeByte (s.freeCount + k)) := rfl

theorem freePage_memoryInv {s : State} (hs : s.MemoryInv) {a : Nat} (ha : a < s.cfg.boundary) :
    (s.freePage a).MemoryInv :=
  { hs with
    flash_wf := Memory.writeBytes_wf hs.flash_wf _ _
    flash_within := Memory.writeBytes_within hs.flash_within (by simpa using page_le_flashSize hs.cfg_wf ha) }

/-- A page cut short keeps every byte of flash outside it (93 U12). -/
theorem freePage_read {s : State} (hf : s.flash.wf) {a x : Nat} (hx : ¬ inPageOf s.cfg a x) :
    (s.freePage a).flash.read x = s.flash.read x := by
  rw [freePage_flash, Memory.read_writeBytes_outside hf]
  simp only [List.length_map, List.length_range]
  rw [inPageOf] at hx
  omega

/-- A replay cut short in a page keeps the memories in form, and every byte at or above the boundary (46_self_update
R224, 93 U12). -/
theorem cutPages_memory {flags : ReplayFlags} {fuel : Nat} {d a : Word} {n ops : Nat} {s t : State} (hs : s.DataInv)
    (h : cutPages flags fuel d a n ops s = some t) :
    t.MemoryInv ∧ ∀ x, s.cfg.boundary ≤ x → t.flash.read x = s.flash.read x := by
  induction fuel generalizing d a n ops s with
  | zero => simp [cutPages] at h
  | succ fuel ih =>
    rw [cutPages] at h
    dsimp only at h
    by_cases hn : n = 0
    · rw [if_pos hn] at h
      cases h
    · rw [if_neg hn] at h
      by_cases hcut : ops < if pageOf s.cfg d.toNat < s.cfg.boundary then
          flags.eraseDestination.toNat + flags.copyData.toNat else 0
      · rw [if_pos hcut] at h
        cases h
        have hopen : pageOf s.cfg d.toNat < s.cfg.boundary := by
          by_contra hclosed
          rw [if_neg hclosed] at hcut
          exact Nat.not_lt_zero _ hcut
        refine ⟨freePage_memoryInv hs.memory hopen, fun x hx => freePage_read hs.flash_wf ?_⟩
        rintro ⟨-, hlt⟩
        have hpage := pageOf_add_le hs.cfg_wf hopen
        omega
      · rw [if_neg hcut] at h
        have hpage := replayPage_replayed hs flags d a (spanInPage s.cfg d n)
        obtain ⟨hmem, hread⟩ := ih hpage.data h
        exact ⟨hmem, fun x hx => (hread x (by rw [hpage.cfg]; exact hx)).trans (hpage.kept x hx)⟩

/-- A replay with a reset inside it, likewise. -/
theorem cutReplay_memory {source destination : Word} {size : Half} {flags : ReplayFlags} {ops : Nat} {s : State}
    (hs : s.DataInv) : (cutReplay source destination size flags ops s).MemoryInv ∧
      ∀ x, s.cfg.boundary ≤ x → (cutReplay source destination size flags ops s).flash.read x = s.flash.read x := by
  unfold cutReplay
  split
  · exact ⟨hs.memory, fun _ _ => rfl⟩
  · split
    next t ht =>
      obtain ⟨hmem, hread⟩ := cutPages_memory hs ht
      exact ⟨{ hmem with }, hread⟩
    next =>
      have hpages := replayPages_replayed (flags := flags) (fuel := size.toNat) (d := destination) (a := source)
        (n := size.toNat) hs
      exact ⟨{ hpages.data.memory with }, hpages.kept⟩

/-- The memories that a command cut short leaves are in form (93 U12). -/
theorem cutCommand_memoryInv {i : Instr} {ops : Nat} {s t : State} (hs : s.DataInv) (h : cutCommand i ops s = some t) :
    t.MemoryInv := by
  cases i <;> simp only [cutCommand, reduceCtorEq] at h
  case programLock req =>
    unfold cutProgramLock at h
    split at h <;> cases h
    exact { hs with }
  case programFlash size data =>
    unfold cutProgramFlash at h
    simp only at h
    split at h
    next he =>
      cases h
      rw [Bool.and_eq_true, decide_eq_true_eq] at he
      exact freePage_memoryInv hs.memory he.1
    next =>
      obtain ⟨⟨hlow, -⟩, h⟩ := Option.ite_none_right_eq_some.1 h
      cases h
      have hahead : s.eraseAhead.MemoryInv :=
        { cfg_wf := by simpa using hs.cfg_wf
          flash_wf := eraseAhead_flash_wf hs.flash_wf
          flash_within := by simpa using eraseAhead_flash_within hs.cfg_wf hs.flash_within
          eeprom_wf := by simpa using hs.eeprom_wf
          eeprom_within := by simpa using hs.eeprom_within
          ram_wf := by simpa using hs.ram_wf }
      exact freePage_memoryInv hahead (by simpa using hlow)
  case programEeprom size data =>
    unfold cutProgramEeprom at h
    split at h <;> cases h
    exact (eeWrite_dataInv (s := (eeWriteBytes (data.take ops) s).drawByte.2)
      { eeWriteBytes_dataInv hs _ with } _ _).memory
  case selfUpdateReplay source destination size flags =>
    cases h
    exact (cutReplay_memory hs).1

/-- The memories are in form wherever a reset arrives. -/
theorem BeforeReset.memoryInv {s u : State} {e : Event} {rest : List Event} (hs : s.Inv)
    (h : BeforeReset s e rest u) : u.MemoryInv := by
  have hdata : ({ s with env := rest } : State).DataInv := { hs.data with }
  cases h with
  | waiting | untrusted => exact hdata.memory
  | application => exact runApplication_memoryInv hdata.memory _
  | command hp hf he hi hu => exact cutCommand_memoryInv hdata hu
  | reply hp hf he hi hu =>
    exact { (exec_dataInv (s := { s with env := rest }) (hi ▸ decode_request_noReplay s.cfg s.msg) hdata hu).memory
      with }
  | replay hp hm he => exact (cutReplay_memory (s := { s with env := rest }.clearWatchdog) { hdata with }).1

/-! ## The invariant -/

/-- Before the length is complete the invariant asks nothing of the decoder's registers. -/
theorem inv_of_header {t : State} (hd : t.DataInv) (hp : t.phase = .loop) (hexit : t.exitFlag = false)
    (hf : t.fstate = .awaitStart ∨ t.fstate = .awaitSequence ∨ t.fstate = .awaitLengthHigh ∨
      t.fstate = .awaitLengthLow) : t.Inv :=
  { hd with
    len_ok := by obtain hf | hf | hf | hf := hf <;> simp [hf]
    idx_ok := by obtain hf | hf | hf | hf := hf <;> simp [hf]
    exit_handed := by simp [hexit]
    boot_clean := by simp [hp] }

/-- With a length in range the invariant asks for it and for the index of the next payload byte. -/
theorem inv_of_length {t : State} (hd : t.DataInv) (hp : t.phase = .loop) (hexit : t.exitFlag = false)
    (hlen : t.LengthInRange) (hidx : t.fstate = .awaitPayloadByte → t.idx.toNat < t.len.toNat) : t.Inv :=
  { hd with
    len_ok := fun _ => hlen
    idx_ok := hidx
    exit_handed := by simp [hexit]
    boot_clean := by simp [hp] }

/-- One received byte keeps the invariant (40_framer R102 to R108): the length is tested before the payload is received,
and the index stays below it. -/
theorem decodeByte_inv {s : State} (hs : s.Inv) (hp : s.phase = .loop) (b : Byte) : (s.decodeByte b).Inv := by
  have hexit := hs.exitFlag_false (by simp [hp])
  have hlen := hs.len_ok
  cases hf : s.fstate with
  | process =>
    rw [decodeByte_of_process hf]
    exact hs
  | awaitStart =>
    rw [decodeByte_of_awaitStart hf]
    split
    · exact inv_of_header { hs.data with } hp hexit (.inr (.inl rfl))
    · exact hs
  | awaitSequence =>
    rw [decodeByte_of_awaitSequence hf]
    exact inv_of_header { hs.data with } hp hexit (.inr (.inr (.inl rfl)))
  | awaitLengthHigh =>
    rw [decodeByte_of_awaitLengthHigh hf]
    exact inv_of_header { hs.data with } hp hexit (.inr (.inr (.inr rfl)))
  | awaitLengthLow =>
    rw [decodeByte_of_awaitLengthLow hf]
    split
    · exact inv_of_header { hs.data with } hp hexit (.inl rfl)
    next hbad =>
      obtain ⟨hne, hle⟩ := not_or.1 hbad
      have hrange : ({ s with len := s.len ||| b.setWidth 16 } : State).LengthInRange :=
        ⟨Nat.pos_of_ne_zero fun h0 => hne (BitVec.eq_of_toNat_eq h0), Nat.le_of_not_lt hle⟩
      exact inv_of_length { hs.data with } hp hexit hrange nofun
  | awaitToken =>
    rw [decodeByte_of_awaitToken hf]
    split
    · exact inv_of_length { hs.data with } hp hexit (hlen (.inl hf)) fun _ => (hlen (.inl hf)).1
    · exact inv_of_header { hs.data with } hp hexit (.inl rfl)
  | awaitPayloadByte =>
    have hidx := hs.idx_ok hf
    have hnext : (s.idx + 1).toNat = s.idx.toNat + 1 := by
      have := s.len.isLt
      bv_omega
    rw [decodeByte_of_awaitPayloadByte hf]
    refine inv_of_length { hs.data with msg_length := List.length_set.trans hs.msg_length } hp hexit
      (hlen (.inr (.inl hf))) fun hmore => ?_
    dsimp only at hmore ⊢
    split at hmore
    · cases hmore
    next hne =>
      have : (s.idx + 1).toNat ≠ s.len.toNat := fun h => hne (BitVec.eq_of_toNat_eq h)
      omega
  | awaitChecksum =>
    rw [decodeByte_of_awaitChecksum hf]
    refine inv_of_length { hs.data with } hp hexit (hlen (.inr (.inr (.inl hf)))) fun hmore => ?_
    dsimp only at hmore
    split at hmore <;> cases hmore

theorem State.Inv.withEnv {s : State} (hs : s.Inv) (e : List Event) : ({ s with env := e } : State).Inv := { hs with }

/-- Handing off keeps the invariant. -/
theorem State.Inv.handoff {s : State} (hs : s.Inv) : s.handoff.Inv :=
  { hs with
    exit_handed := fun _ => rfl
    boot_clean := by simp }

/-- A trusted replay ends in a state that meets the invariant (46_self_update R216 to R227). -/
theorem execSelfUpdateReplay_inv {source destination : Word} {size : Half} {flags : ReplayFlags} {s t : State}
    (hs : s.DataInv) (hf : s.fstate = .awaitStart) (h : execSelfUpdateReplay source destination size flags s = .next t) :
    t.Inv := by
  unfold execSelfUpdateReplay at h
  split at h <;> cases h
  · exact inv_of_awaitStart (t := s.handoff) { hs with } hf (fun _ => rfl) (by simp)
  · have hpages := replayPages_replayed (flags := flags) (fuel := size.toNat) (d := destination) (a := source)
      (n := size.toNat) hs
    have hfstate : (replayPages flags size.toNat destination source size.toNat s).fstate = .awaitStart := by
      rw [hpages.state]
      exact hf
    exact inv_of_awaitStart (t := (replayPages flags size.toNat destination source size.toNat s).invalidate.handoff)
      { hpages.data with } hfstate (fun _ => rfl) (by simp)

/-- Settles O53: one case for each kind of step. -/
theorem stepKeepsInvariant : Obligations.StepKeepsInvariant := by
  intro s t hs h
  cases steps_of_step h with
  | poll hp he => exact { hs with }
  | firstByte hp he =>
    rw [enterLoop_eq]
    refine inv_of_header { hs.data with } rfl (hs.exitFlag_false (by simp [hp])) ?_
    dsimp only
    split
    · exact .inr (.inl rfl)
    · exact .inl rfl
  | timeout hp he => exact State.Inv.handoff (s := { s with env := _, led := false }) { hs with }
  | silent hp hf he => exact { hs with }
  | @byte b rest hp hf he => exact decodeByte_inv (hs.withEnv rest) hp b
  | @guard rest hp hf he =>
    obtain ⟨p, k, rfl | rfl, hg⟩ := receiveGuard_state { s with env := rest } <;> rw [hg]
    · exact { hs with }
    · exact State.Inv.handoff (s := { s with env := rest, freeCount := k }) { hs with }
  | command hp hf hi hu =>
    have hnoreplay := hi ▸ decode_request_noReplay s.cfg s.msg
    have hphase := (exec_sameMachine hnoreplay hu).phase.trans hp
    rw [finishCommand_eq]
    refine inv_of_awaitStart { exec_dataInv hnoreplay hs.data hu with } rfl (fun hexit => if_pos hexit) fun hboot => ?_
    dsimp only at hboot
    split at hboot <;> simp [hphase] at hboot
  | replay hp hm ht =>
    exact execSelfUpdateReplay_inv (s := s.clearWatchdog) { hs.data with } (hs.boot_clean (.inl hp)).2 ht
  | boot hp hm =>
    have hexit := hs.exitFlag_false (by simp [hp])
    obtain ⟨hr, hf⟩ := hs.boot_clean (.inl hp)
    exact inv_of_awaitStart (t := s.clearWatchdog.normalBoot) { hs.data with } hf (by simp [hexit]) fun _ => hr
  | passes hp he hc => exact { hs with }
  | reset he hc hu => exact afterReset_inv (hu.memoryInv hs) _

/-- Settles O52: the configuration is well formed, the memories are empty and the registers 0. -/
theorem resetMeetsInvariant : Obligations.ResetMeetsInvariant := by
  have hempty : Memory.wf [] := ⟨List.Pairwise.nil, fun _ h => absurd h List.not_mem_nil⟩
  have hwithin : ∀ size, Memory.within [] size := fun _ _ h => absurd h List.not_mem_nil
  have hdata : State.reset.DataInv :=
    { cfg_wf := by decide
      msg_length := List.length_replicate
      pbuf_empty := rfl
      flash_wf := hempty
      flash_within := hwithin _
      eeprom_wf := hempty
      eeprom_within := hwithin _
      ram_wf := hempty
      frontier_aligned := Nat.zero_mod _
      frontier_le := Nat.zero_le _
      address_lt := Nat.two_pow_pos _
      total_lt := Nat.two_pow_pos 24 }
  exact inv_of_awaitStart hdata rfl nofun fun _ => rfl

end Sys2Proof.Machine
end

section
/-! PROOFS. Which step can change what: flash, EEPROM, the lock byte, the erase frontier and the address register over
one step, and the protected region over a run. -/

namespace Sys2Proof.Machine

/-! ## What one command can change -/

/-- A lock byte of which only bits 5 to 2 can have been cleared (42_cmd_device R149). -/
def Narrows (old new : Byte) : Prop := ∃ m : Byte, new = old &&& m ∧ m ||| 0x3C = 0xFF

theorem Narrows.refl (b : Byte) : Narrows b b := ⟨0xFF, (and_erased b).symm, by decide⟩

theorem not_and_lockMask (v : Byte) : ~~~ (v &&& lockMask) ||| 0x3C = 0xFF := by revert v; decide

/-- Clearing bits within the mask narrows the lock byte. -/
theorem narrows_lockSet (b v : Byte) : Narrows b (b &&& ~~~ (v &&& lockMask)) := ⟨_, rfl, not_and_lockMask v⟩

/-- What a command changes of the arrays, whether it runs to its reply or is cut short (10_state R29 to R31): each only
by the command that is for it. -/
structure Touches (i : Instr) (s u : State) : Prop where
  cfg : u.cfg = s.cfg
  fuseLow : u.fuseLow = s.fuseLow
  fuseHigh : u.fuseHigh = s.fuseHigh
  fuseExt : u.fuseExt = s.fuseExt
  ram : u.ram = s.ram
  env : u.env = s.env
  flash : (∀ size data, i ≠ .programFlash size data) → u.flash = s.flash
  eeprom : (∀ size data, i ≠ .programEeprom size data) → u.eeprom = s.eeprom
  lockBits : (∀ req, i ≠ .programLock req) → u.lockBits = s.lockBits
  narrows : Narrows s.lockBits u.lockBits

theorem programmed_eeprom (s : State) (size : Half) (data : List Byte) :
    (s.programmed size data).eeprom = s.eeprom ∧ (s.programmed size data).lockBits = s.lockBits := by
  unfold State.programmed
  dsimp only
  split
  · obtain ⟨p, k, h⟩ := fillWords_state (data.take size.toNat) (s.progressOnWrite s.currentAddress size).eraseAhead
    rw [h]
    simp [State.progressOnWrite]
  · simp [State.progressOnWrite]

/-- A handler writes an array only if its command is for it. -/
theorem handled_arrays (i : Instr) (s : State) :
    ((∀ size data, i ≠ .programFlash size data) → (s.handled i).flash = s.flash) ∧
      ((∀ size data, i ≠ .programEeprom size data) → (s.handled i).eeprom = s.eeprom) ∧
      ((∀ req, i ≠ .programLock req) → (s.handled i).lockBits = s.lockBits) := by
  cases i with
  | programLock req => exact ⟨fun _ => rfl, fun _ => rfl, fun h => absurd rfl (h req)⟩
  | programFlash size data =>
    obtain ⟨heeprom, hlock⟩ := programmed_eeprom s size data
    exact ⟨fun h => absurd rfl (h size data), fun _ => heeprom, fun _ => hlock⟩
  | programEeprom size data =>
    obtain ⟨e, a, hw⟩ := eeWriteBytes_state (data.take size.toNat) s
    have hu : s.handled (.programEeprom size data) = { s with eeprom := e, currentAddress := a } := hw
    rw [hu]
    exact ⟨fun _ => rfl, fun h => absurd rfl (h size data), fun _ => rfl⟩
  | readFlash size =>
    obtain ⟨a, k, hr⟩ := flashReadBytes_state size.toNat (s.progressOnRead s.currentAddress size)
    have hflash := (congrArg State.flash hr).trans (State.progress_flash s .verify s.currentAddress size)
    have heeprom := (congrArg State.eeprom hr).trans (State.progress_eeprom s .verify s.currentAddress size)
    have hlock := (congrArg State.lockBits hr).trans (State.progress_lockBits s .verify s.currentAddress size)
    exact ⟨fun _ => hflash, fun _ => heeprom, fun _ => hlock⟩
  | readEeprom size =>
    obtain ⟨a, hr⟩ := eeReadBytes_state size.toNat s
    simp [State.handled, hr]
  | _ => exact ⟨fun _ => rfl, fun _ => rfl, fun _ => rfl⟩

/-- Only Program lock bits changes the lock byte, so only it has to be looked at. -/
theorem narrows_of_lockBits {i : Instr} {s u : State} (hreq : ∀ req, i = .programLock req → Narrows s.lockBits u.lockBits)
    (h : (∀ req, i ≠ .programLock req) → u.lockBits = s.lockBits) : Narrows s.lockBits u.lockBits := by
  by_cases hi : ∃ req, i = .programLock req
  · obtain ⟨req, hi⟩ := hi
    exact hreq req hi
  · rw [h fun req hr => hi ⟨req, hr⟩]
    exact .refl _

theorem exec_touches {i : Instr} {s u : State} (hi : NoReplay (.ok i)) (h : exec i s = .next u) : Touches i s u := by
  have hsame := exec_sameMachine hi h
  obtain ⟨-, body, hr⟩ := exec_cases hi h
  obtain ⟨-, hu⟩ := reply_cases hr
  obtain ⟨hnflash, hneeprom, hnlock⟩ := handled_arrays i s
  have hflash : u.flash = (s.handled i).flash := by rw [hu]
  have heeprom : u.eeprom = (s.handled i).eeprom := by rw [hu]
  have hlock : u.lockBits = (s.handled i).lockBits := by rw [hu]
  exact
    { hsame with
      flash := fun hn => hflash.trans (hnflash hn)
      eeprom := fun hn => heeprom.trans (hneeprom hn)
      lockBits := fun hn => hlock.trans (hnlock hn)
      narrows := narrows_of_lockBits (i := i)
        (fun req hreq => by
          subst hreq
          rw [hlock]
          exact narrows_lockSet s.lockBits (~~~ req))
        fun hn => hlock.trans (hnlock hn) }

theorem cutCommand_touches {i : Instr} {ops : Nat} {s u : State} (hi : NoReplay (.ok i))
    (h : cutCommand i ops s = some u) : Touches i s u := by
  obtain ⟨hcfg, hlow, hhigh, hext, hram, henv, -, -⟩ := cutCommand_keeps h
  suffices hrest : ((∀ size data, i ≠ .programFlash size data) → u.flash = s.flash) ∧
      ((∀ size data, i ≠ .programEeprom size data) → u.eeprom = s.eeprom) ∧
      ((∀ req, i ≠ .programLock req) → u.lockBits = s.lockBits) ∧ Narrows s.lockBits u.lockBits by
    obtain ⟨hflash, heeprom, hlock, hnarrow⟩ := hrest
    exact ⟨hcfg, hlow, hhigh, hext, hram, henv, hflash, heeprom, hlock, hnarrow⟩
  cases i <;> simp only [cutCommand, reduceCtorEq] at h
  case programLock req =>
    unfold cutProgramLock at h
    split at h <;> cases h
    refine ⟨fun _ => rfl, fun _ => rfl, fun hn => absurd rfl (hn req), ?_⟩
    have hmask : lockRequest req &&& s.drawByte.1 = (~~~ req &&& s.drawByte.1) &&& lockMask := by
      rw [lockRequest, BitVec.and_assoc, BitVec.and_comm lockMask, BitVec.and_assoc]
    exact hmask ▸ narrows_lockSet s.lockBits _
  case programFlash size data =>
    have hlock : u.eeprom = s.eeprom ∧ u.lockBits = s.lockBits := by
      unfold cutProgramFlash at h
      simp only at h
      split at h
      · cases h
        exact ⟨rfl, rfl⟩
      · obtain ⟨-, h⟩ := Option.ite_none_right_eq_some.1 h
        cases h
        simp
    exact ⟨fun hn => absurd rfl (hn size data), fun _ => hlock.1, fun _ => hlock.2, hlock.2 ▸ .refl _⟩
  case programEeprom size data =>
    unfold cutProgramEeprom at h
    split at h <;> cases h
    obtain ⟨e, a, he⟩ := eeWriteBytes_state (data.take ops) s
    rw [he]
    exact ⟨fun _ => rfl, fun hn => absurd rfl (hn size data), fun _ => rfl, .refl _⟩
  case selfUpdateReplay source destination size flags => exact absurd rfl (hi source destination size flags)

/-- Everything a replay cut short can do (46_self_update R218, 93 U12). -/
theorem cutReplay_state (source destination : Word) (size : Half) (flags : ReplayFlags) (ops : Nat) (s : State) :
    ∃ f r p k d, cutReplay source destination size flags ops s =
      { s with flash := f, rwwBlocked := r, pbuf := p, freeCount := k, desc := d } := by
  unfold cutReplay
  split
  · exact ⟨s.flash, s.rwwBlocked, s.pbuf, s.freeCount, s.desc, rfl⟩
  · split
    next t ht =>
      obtain ⟨f, r, p, k, rfl⟩ := cutPages_state ht
      exact ⟨f, r, p, _, _, rfl⟩
    next =>
      obtain ⟨f, r, p, k, hr⟩ := replayPages_state flags size.toNat destination source size.toNat s
      rw [hr]
      exact ⟨f, r, p, _, _, rfl⟩

/-! ## The arrays over one step -/

/-- The events that carry effects of the application (00_scope R5). -/
theorem eq_applicationThenReset {e : Event} {x : ApplicationEffect} (h : x ∈ e.applicationEffects) :
    ∃ cause, e = .applicationThenReset e.applicationEffects cause := by
  cases e with
  | applicationThenReset did cause => exact ⟨cause, rfl⟩
  | _ => exact absurd h List.not_mem_nil

theorem applicationNext_of_mem {s : State} {e : Event} {rest : List Event} {x : ApplicationEffect}
    (hp : s.phase = .handedOff) (he : s.env = e :: rest) (hx : x ∈ e.applicationEffects) : s.applicationNext x := by
  obtain ⟨cause, hcause⟩ := eq_applicationThenReset hx
  exact ⟨hp, e.applicationEffects, cause, rest, by rw [he, ← hcause], hx⟩

/-- Which step can change which array (10_state R29 to R33, 20_memory R42). -/
structure ArrayStep (s t : State) : Prop where
  cfg : t.cfg = s.cfg
  fuseLow : t.fuseLow = s.fuseLow
  fuseHigh : t.fuseHigh = s.fuseHigh
  fuseExt : t.fuseExt = s.fuseExt
  eeprom : t.eeprom = s.eeprom ∨
    (s.phase = .loop ∧ s.fstate = .process ∧ s.msg[0]? = some s.cfg.opcodes.programEeprom) ∨
    (∃ a b, s.applicationNext (.eeprom a b))
  flash : t.flash = s.flash ∨
    (s.phase = .loop ∧ s.fstate = .process ∧ s.msg[0]? = some s.cfg.opcodes.programFlash) ∨
    (s.phase = .replay ∧ s.desc.magic = s.cfg.magic) ∨ (∃ a b, s.applicationNext (.flash a b))
  ram : t.ram = s.ram ∨ ∃ a b, s.applicationNext (.ram a b)
  lockBits : Narrows s.lockBits t.lockBits ∨
    (∃ v, s.applicationNext (.lockBits v)) ∧ ∃ m, t.lockBits = s.lockBits &&& m

/-- A step that leaves the arrays alone. -/
theorem ArrayStep.of_eq {s t : State} (hcfg : t.cfg = s.cfg) (hlow : t.fuseLow = s.fuseLow)
    (hhigh : t.fuseHigh = s.fuseHigh) (hext : t.fuseExt = s.fuseExt) (heeprom : t.eeprom = s.eeprom)
    (hflash : t.flash = s.flash) (hram : t.ram = s.ram) (hlock : t.lockBits = s.lockBits) : ArrayStep s t :=
  ⟨hcfg, hlow, hhigh, hext, .inl heeprom, .inl hflash, .inl hram, .inl (hlock ▸ .refl _)⟩

/-- A command, or a part of it, in `Process`. -/
theorem ArrayStep.of_touches {s u : State} {i : Instr} {rest : List Event} (hp : s.phase = .loop)
    (hf : s.fstate = .process) (hi : decode s.cfg (.request s.msg) = .ok i)
    (h : Touches i { s with env := rest } u) : ArrayStep s u where
  cfg := h.cfg
  fuseLow := h.fuseLow
  fuseHigh := h.fuseHigh
  fuseExt := h.fuseExt
  eeprom := by
    by_cases hex : ∃ size data, i = .programEeprom size data
    · obtain ⟨size, data, rfl⟩ := hex
      exact .inr (.inl ⟨hp, hf, decode_request_opcode hi⟩)
    · exact .inl (h.eeprom fun size data he => hex ⟨size, data, he⟩)
  flash := by
    by_cases hex : ∃ size data, i = .programFlash size data
    · obtain ⟨size, data, rfl⟩ := hex
      exact .inr (.inl ⟨hp, hf, decode_request_opcode hi⟩)
    · exact .inl (h.flash fun size data he => hex ⟨size, data, he⟩)
  ram := .inl h.ram
  lockBits := .inl h.narrows

/-- A trusted replay, or a part of it. -/
theorem ArrayStep.of_replay {s u : State} (hp : s.phase = .replay) (hm : s.desc.magic = s.cfg.magic)
    (h : ∃ ph wr we f r p k d e, u = { s with
      phase := ph, wdtReset := wr, wdtEnable := we, flash := f, rwwBlocked := r, pbuf := p, freeCount := k, desc := d,
      env := e }) : ArrayStep s u := by
  obtain ⟨ph, wr, we, f, r, p, k, d, e, rfl⟩ := h
  exact ⟨rfl, rfl, rfl, rfl, .inl rfl, .inr (.inr (.inl ⟨hp, hm⟩)), .inl rfl, .inl (.refl _)⟩

/-- Effects that leave a memory alone store nothing there. -/
theorem storeCells_of_no_cell {m : Memory} {cell : ApplicationEffect → Option (Nat × Byte)}
    {did : List ApplicationEffect} (h : ∀ x ∈ did, cell x = none) : storeCells m (did.filterMap cell) = m := by
  rw [List.filterMap_eq_nil_iff.2 h]
  rfl

/-- The application's run before a reset (00_scope R5). -/
theorem ArrayStep.of_application {s : State} {e : Event} {rest : List Event} (hp : s.phase = .handedOff)
    (he : s.env = e :: rest) : ArrayStep s ({ s with env := rest }.runApplication e.applicationEffects) := by
  have hnext : ∀ x ∈ e.applicationEffects, s.applicationNext x := fun x hx => applicationNext_of_mem hp he hx
  obtain ⟨d, r, f, ep, v, h⟩ := runApplication_state { s with env := rest } e.applicationEffects
  refine ⟨by rw [h], by rw [h], by rw [h], by rw [h], ?_, ?_, ?_, ?_⟩
  · by_cases hex : ∃ a b, .eeprom a b ∈ e.applicationEffects
    · obtain ⟨a, b, hx⟩ := hex
      exact .inr (.inr ⟨a, b, hnext _ hx⟩)
    · refine .inl ((runApplication_eeprom _ _).trans (storeCells_of_no_cell fun x hx => ?_))
      cases x with
      | eeprom a b => exact absurd ⟨a, b, hx⟩ hex
      | _ => rfl
  · by_cases hex : ∃ a b, .flash a b ∈ e.applicationEffects
    · obtain ⟨a, b, hx⟩ := hex
      exact .inr (.inr (.inr ⟨a, b, hnext _ hx⟩))
    · refine .inl ((runApplication_flash _ _).trans (storeCells_of_no_cell fun x hx => ?_))
      cases x with
      | flash a b => exact absurd ⟨a, b, hx⟩ hex
      | _ => rfl
  · by_cases hex : ∃ a b, .ram a b ∈ e.applicationEffects
    · obtain ⟨a, b, hx⟩ := hex
      exact .inr ⟨a, b, hnext _ hx⟩
    · refine .inl ((runApplication_ram _ _).trans (storeCells_of_no_cell fun x hx => ?_))
      cases x with
      | ram a b => exact absurd ⟨a, b, hx⟩ hex
      | _ => rfl
  · by_cases hex : ∃ v, .lockBits v ∈ e.applicationEffects
    · obtain ⟨w, hx⟩ := hex
      exact .inr ⟨⟨w, hnext _ hx⟩, v, by rw [h]⟩
    · refine .inl ?_
      rw [runApplication_lockBits_of_not_mem fun w hw => hex ⟨w, hw⟩]
      exact .refl _

/-- The arrays when a reset arrives. -/
theorem BeforeReset.arrayStep {s u : State} {e : Event} {rest : List Event} (he : s.env = e :: rest)
    (h : BeforeReset s e rest u) : ArrayStep s u := by
  cases h with
  | waiting | untrusted => exact .of_eq rfl rfl rfl rfl rfl rfl rfl rfl
  | application hp => exact .of_application hp he
  | command hp hf _ hi hu =>
    exact .of_touches hp hf hi (cutCommand_touches (hi ▸ decode_request_noReplay s.cfg s.msg) hu)
  | reply hp hf _ hi hu =>
    have h := exec_touches (s := { s with env := rest }) (hi ▸ decode_request_noReplay s.cfg s.msg) hu
    exact .of_touches hp hf hi { h with }
  | replay hp hm _ =>
    obtain ⟨f, r, p, k, d, hr⟩ := cutReplay_state s.desc.sourceAddress s.desc.destinationAddress s.desc.remainingSize
      s.desc.flags _ { s with env := rest }.clearWatchdog
    exact .of_replay hp hm ⟨_, _, _, f, r, p, k, d, rest, hr⟩

/-- Which step can change which array; only a reset without power touches more, which is RAM (20_memory R42). -/
theorem arrayStep_or_reset {s t : State} (h : step s = .next t) : ArrayStep s t ∨
    ∃ e rest cause u, s.env = e :: rest ∧ e.resetCause = some cause ∧ ArrayStep s u ∧ t = u.afterReset cause := by
  cases steps_of_step h with
  | poll | timeout | silent | boot | passes => exact .inl (.of_eq rfl rfl rfl rfl rfl rfl rfl rfl)
  | firstByte =>
    rw [enterLoop_eq]
    exact .inl (.of_eq rfl rfl rfl rfl rfl rfl rfl rfl)
  | @byte b rest =>
    obtain ⟨_, _, _, _, _, _, hd⟩ := decodeByte_state { s with env := rest } b
    rw [hd]
    exact .inl (.of_eq rfl rfl rfl rfl rfl rfl rfl rfl)
  | @guard rest =>
    obtain ⟨p, k, -, hg⟩ := receiveGuard_state { s with env := rest }
    rw [hg]
    exact .inl (.of_eq rfl rfl rfl rfl rfl rfl rfl rfl)
  | command hp hf hi hu =>
    have h := exec_touches (hi ▸ decode_request_noReplay s.cfg s.msg) hu
    rw [finishCommand_eq]
    exact .inl (.of_touches (rest := s.env) hp hf hi { h with })
  | replay hp hm ht =>
    obtain ⟨f, r, p, k, d, rfl⟩ := execSelfUpdateReplay_state ht
    exact .inl (.of_replay hp hm ⟨_, _, _, f, r, p, k, d, _, rfl⟩)
  | reset he hc hu => exact .inr ⟨_, _, _, _, he, hc, hu.arrayStep he, rfl⟩

/-- Settles O56: the arrays over one step, and what a reset keeps of them. -/
theorem arraysChangeOnlyByTheirCommands : Obligations.ArraysChangeOnlyByTheirCommands := by
  intro s t hstep
  obtain h | ⟨e, rest, cause, u, he, hc, h, rfl⟩ := arrayStep_or_reset hstep
  · exact ⟨h.cfg, h.fuseLow, h.fuseHigh, h.fuseExt, h.eeprom, h.flash, h.ram.imp_right .inr⟩
  · obtain ⟨hcfg, hflash, heeprom, -, hlow, hhigh, hext, -, -, -⟩ := afterReset_keeps u cause
    refine ⟨hcfg.trans h.cfg, hlow.trans h.fuseLow, hhigh.trans h.fuseHigh, hext.trans h.fuseExt, heeprom ▸ h.eeprom,
      hflash ▸ h.flash, ?_⟩
    by_cases hpower : cause = .powerOn
    · subst hpower
      exact .inr (.inl ⟨e, rest, he, hc⟩)
    · rw [afterReset_ram hpower]
      exact h.ram.imp_right .inr

/-- Settles O55: the lock byte over one step, which a reset keeps. -/
theorem lockBitsOnlyNarrow : Obligations.LockBitsOnlyNarrow := by
  intro s t hstep
  have hlock : Narrows s.lockBits t.lockBits ∨
      (∃ v, s.applicationNext (.lockBits v)) ∧ ∃ m, t.lockBits = s.lockBits &&& m := by
    obtain h | ⟨e, rest, cause, u, he, hc, h, rfl⟩ := arrayStep_or_reset hstep
    · exact h.lockBits
    · obtain ⟨-, -, -, hlock, -⟩ := afterReset_keeps u cause
      exact hlock ▸ h.lockBits
  obtain ⟨m, hm, hmask⟩ | ⟨hnext, m, hm⟩ := hlock
  · exact ⟨m, hm, .inl hmask⟩
  · exact ⟨m, hm, .inr hnext⟩

end Sys2Proof.Machine
end

section
/-! PROOFS. The erase frontier and the address register over one step, a command with a reset inside it, and the
protected region over a run. -/

namespace Sys2Proof.Machine

/-! ## The erase frontier and the address register -/

/-- Where a command leaves the erase frontier: Program flash a page further, Chip erase at 0 (10_state R11). -/
def State.frontierAfter (s : State) : Instr → Word
  | .programFlash _ _ => s.nextFrontier
  | .chipErase => 0
  | _ => s.eraseFrontier

theorem handled_eraseFrontier {s : State} (hs : s.DataInv) {i : Instr} (hd : Instr.DataReaches s i) :
    (s.handled i).eraseFrontier = s.frontierAfter i := by
  cases i with
  | programFlash size data => exact (congrArg State.eraseFrontier (programmed_eq hs hd)).trans rfl
  | programEeprom size data =>
    exact (congrArg State.eraseFrontier (eeWriteBytes_eq (data.take size.toNat) hs.address_lt)).trans rfl
  | readEeprom size => exact (congrArg (·.2.eraseFrontier) (eeReadBytes_eq size.toNat hs.address_lt)).trans rfl
  | readFlash size =>
    obtain ⟨a, k, hr⟩ := flashReadBytes_state size.toNat (s.progressOnRead s.currentAddress size)
    exact (congrArg State.eraseFrontier hr).trans (State.progress_eraseFrontier s .verify s.currentAddress size)
  | _ => rfl

theorem addressAfter_mod_two (s : State) (n : Nat) :
    (s.addressAfter n).toNat % 2 = (s.currentAddress.toNat + n) % 2 :=
  addressAfter_mod s n (two_dvd_two_pow_bits _)

/-- Every handler keeps an even address even, but a Read flash of an odd size (20_memory R53). -/
theorem handled_currentAddress_even {s : State} (hs : s.DataInv) {i : Instr} (hd : Instr.DataReaches s i)
    (heven : s.currentAddress.toNat % 2 = 0) :
    (s.handled i).currentAddress.toNat % 2 = 0 ∨ ∃ size, i = .readFlash size ∧ size.toNat % 2 = 1 := by
  cases i with
  | loadAddress waddr =>
    refine .inl ?_
    change (byteAddress s.cfg waddr).toNat % 2 = 0
    rw [byteAddress_toNat, mod_bits_mod_two, Nat.mul_mod_right]
  | programFlash size data =>
    refine .inl ?_
    rw [State.handled, programmed_eq hs hd]
    dsimp only
    split
    · rw [addressAfter_mod_two]
      omega
    · exact heven
  | programEeprom size data =>
    refine .inl ?_
    rw [State.handled, eeWriteBytes_eq _ hs.address_lt]
    dsimp only
    rw [addressAfter_mod_two]
    omega
  | readEeprom size =>
    refine .inl ?_
    rw [State.handled, eeReadBytes_eq _ hs.address_lt]
    dsimp only
    rw [addressAfter_mod_two]
    omega
  | readFlash size =>
    have hprogress := progress_dataInv hs .verify s.currentAddress size
    obtain ⟨k, hr, -⟩ := flashReadBytes_state_eq size.toNat hprogress.address_lt
    have haddress : (s.handled (.readFlash size)).currentAddress = s.addressAfter size.toNat := by
      refine (congrArg State.currentAddress hr).trans ?_
      simp only [State.addressAfter, State.progress_cfg, State.progress_currentAddress]
    rw [haddress, addressAfter_mod_two]
    obtain h | h := Nat.mod_two_eq_zero_or_one size.toNat
    · exact .inl (by omega)
    · exact .inr ⟨size, rfl, h⟩
  | _ => exact .inl heven

/-- The session's addresses over one step: only a command and a reset move them (10_state R11, R39). -/
theorem addresses_of_step {s t : State} (h : step s = .next t) :
    (t.eraseFrontier = s.eraseFrontier ∧ t.currentAddress = s.currentAddress) ∨
    (∃ i, s.phase = .loop ∧ s.fstate = .process ∧ decode s.cfg (.request s.msg) = .ok i ∧ Instr.DataReaches s i ∧
      t.eraseFrontier = (s.handled i).eraseFrontier ∧ t.currentAddress = (s.handled i).currentAddress) ∨
    ((∃ cause, s.resetNext cause) ∧ t.eraseFrontier = 0 ∧ t.currentAddress = 0) := by
  cases steps_of_step h with
  | poll | timeout | silent | boot | passes => exact .inl ⟨rfl, rfl⟩
  | firstByte =>
    rw [enterLoop_eq]
    exact .inl ⟨rfl, rfl⟩
  | @byte b rest =>
    obtain ⟨_, _, _, _, _, _, hd⟩ := decodeByte_state { s with env := rest } b
    rw [hd]
    exact .inl ⟨rfl, rfl⟩
  | @guard rest =>
    obtain ⟨p, k, -, hg⟩ := receiveGuard_state { s with env := rest }
    rw [hg]
    exact .inl ⟨rfl, rfl⟩
  | @command i u hp hf hi hu =>
    obtain ⟨hd, body, hr⟩ := exec_cases (hi ▸ decode_request_noReplay s.cfg s.msg) hu
    obtain ⟨-, rfl⟩ := reply_cases hr
    rw [finishCommand_eq]
    exact .inr (.inl ⟨i, hp, hf, hi, hd, rfl, rfl⟩)
  | replay hp hm ht =>
    obtain ⟨f, r, p, k, d, rfl⟩ := execSelfUpdateReplay_state ht
    exact .inl ⟨rfl, rfl⟩
  | @reset e rest cause u he hc hu =>
    obtain ⟨haddress, hfrontier, -⟩ := resetLeavesTheSpecValues u cause
    exact .inr (.inr ⟨⟨cause, e, rest, he, hc⟩, hfrontier, haddress⟩)

/-- Settles O57: the handlers that move the frontier, and a reset. -/
theorem frontierAdvancesPageByPage : Obligations.FrontierAdvancesPageByPage := by
  intro s t hs h
  obtain ⟨hsame, -⟩ | ⟨i, hp, hf, hi, hd, hmoved, -⟩ | ⟨hreset, hzero, -⟩ := addresses_of_step h
  · exact .inl hsame
  · rw [handled_eraseFrontier hs.data hd] at hmoved
    cases i with
    | programFlash size data =>
      by_cases hlow : s.eraseFrontier.toNat < s.cfg.boundary
      · refine .inr (.inl ⟨?_, hlow, hp, hf, decode_request_opcode hi⟩)
        rw [hmoved, State.frontierAfter, nextFrontier_toNat hs.data, if_pos hlow]
      · exact .inl (hmoved.trans (if_neg hlow))
    | chipErase => exact .inr (.inr ⟨hmoved, .inl ⟨hp, hf, decode_request_opcode hi⟩⟩)
    | _ => exact .inl hmoved
  · exact .inr (.inr ⟨hzero, .inr hreset⟩)

/-- Settles O58: the handlers' addresses, and a reset's. -/
theorem addressStaysEven : Obligations.AddressStaysEven := by
  intro s t hs heven h
  obtain ⟨-, hsame⟩ | ⟨i, hp, hf, hi, hd, -, hmoved⟩ | ⟨-, -, hzero⟩ := addresses_of_step h
  · exact .inl (hsame ▸ heven)
  · obtain heven' | ⟨size, rfl, hodd⟩ := handled_currentAddress_even hs.data hd heven
    · exact .inl (hmoved ▸ heven')
    · exact .inr ⟨hp, hf, size, hi, hodd⟩
  · exact .inl (hzero ▸ rfl)

/-! ## What a command leaves of flash and EEPROM -/

theorem eraseAhead_read {s : State} (hf : s.flash.wf) (x : Nat) : s.eraseAhead.flash.read x = s.beforeCommit x := by
  rw [eraseAhead_eq, State.beforeCommit]
  split
  next hlow =>
    rw [Memory.read_writeBytes hf, List.length_replicate]
    simp only [hlow, true_and, inPageOf]
    split
    · grind
    · rfl
  next hlow => simp [hlow]

/-- Neither the page of the erase frontier nor that of the address register, as far as they are open, holds the byte:
then no command writes it (70_reset R277). -/
structure State.OutsideOpenPages (s : State) (x : Nat) : Prop where
  frontier : ¬ (s.eraseFrontier.toNat < s.cfg.boundary ∧ inPageOf s.cfg s.eraseFrontier.toNat x)
  address : ¬ (s.currentAddress.toNat < s.cfg.boundary ∧ inPageOf s.cfg s.currentAddress.toNat x)

theorem State.OutsideOpenPages.beforeCommit {s : State} {x : Nat} (hx : s.OutsideOpenPages x) :
    s.beforeCommit x = s.flash.read x := if_neg hx.frontier

/-- A protected byte lies in no open page. -/
theorem outsideOpenPages_of_protected {s : State} (hc : s.cfg.Wf) {x : Nat} (hx : s.cfg.boundary ≤ x) :
    s.OutsideOpenPages x := by
  have hout : ∀ a, ¬ (a < s.cfg.boundary ∧ inPageOf s.cfg a x) := by
    rintro a ⟨hlow, -, hlt⟩
    have := pageOf_add_le hc hlow
    omega
  exact ⟨hout _, hout _⟩

theorem exec_flash_read {i : Instr} {s u : State} (hi : NoReplay (.ok i)) (hf : s.flash.wf) (h : exec i s = .next u)
    {x : Nat} (hx : s.OutsideOpenPages x) : u.flash.read x = s.flash.read x := by
  by_cases hex : ∃ size data, i = .programFlash size data
  · obtain ⟨size, data, rfl⟩ := hex
    obtain ⟨-, hr⟩ := exec_programFlash_cases h
    obtain ⟨-, rfl⟩ := reply_cases hr
    refine (programmed_read hf size data x).trans ?_
    rw [if_neg hx.address, hx.beforeCommit]
  · rw [(exec_touches hi h).flash fun size data he => hex ⟨size, data, he⟩]

theorem cutCommand_flash_read {i : Instr} {ops : Nat} {s u : State} (hi : NoReplay (.ok i)) (hf : s.flash.wf)
    (h : cutCommand i ops s = some u) {x : Nat} (hx : s.OutsideOpenPages x) : u.flash.read x = s.flash.read x := by
  by_cases hex : ∃ size data, i = .programFlash size data
  · obtain ⟨size, data, rfl⟩ := hex
    simp only [cutCommand, cutProgramFlash] at h
    split at h
    next he =>
      cases h
      rw [Bool.and_eq_true, decide_eq_true_eq] at he
      exact freePage_read hf fun hin => hx.frontier ⟨he.1, hin⟩
    next =>
      obtain ⟨⟨hlow, -⟩, h⟩ := Option.ite_none_right_eq_some.1 h
      cases h
      rw [freePage_read (eraseAhead_flash_wf hf) fun hin => hx.address ⟨hlow, by simpa using hin⟩, eraseAhead_read hf,
        hx.beforeCommit]
  · rw [(cutCommand_touches hi h).flash fun size data he => hex ⟨size, data, he⟩]

/-- Program EEPROM writes only the bytes its data go to (44_cmd_program R190). -/
theorem exec_eeprom_read {s u : State} (hs : s.DataInv) {size : Half} {data : List Byte}
    (h : exec (.programEeprom size data) s = .next u) {x : Nat} (hx : ∀ k, k < size.toNat → s.eepromTarget k ≠ x) :
    u.eeprom.read x = s.eeprom.read x := by
  obtain ⟨hd, hr⟩ := exec_programEeprom_cases h
  obtain ⟨-, rfl⟩ := reply_cases hr
  rw [eeWriteBytes_eq _ hs.address_lt]
  exact storeCells_eepromCells_of_ne hs.eeprom_wf fun k hk => hx k (List.length_take_of_le hd ▸ hk)

/-- Cut short, it writes the bytes before the one under way, and that one (93 U12). -/
theorem cutCommand_eeprom_read {s u : State} (hs : s.DataInv) {size : Half} {data : List Byte} {ops : Nat}
    (h : cutCommand (.programEeprom size data) ops s = some u) {x : Nat}
    (hx : ∀ k, k < size.toNat → s.eepromTarget k ≠ x) : u.eeprom.read x = s.eeprom.read x := by
  obtain ⟨⟨hsize, hdata⟩, h⟩ := Option.ite_none_right_eq_some.1 h
  have hlen : (data.take ops).length = ops := List.length_take_of_le hdata.le
  rw [eeWriteBytes_eq _ hs.address_lt, hlen] at h
  cases h
  have hwf : (storeCells s.eeprom (s.eepromCells (data.take ops))).wf := storeCells_wf hs.eeprom_wf _
  refine (Memory.read_write hwf _ _ _).trans ((if_neg (Ne.symm (hx ops hsize))).trans ?_)
  exact storeCells_eepromCells_of_ne hs.eeprom_wf fun k hk => hx k (by omega)

/-! ## A reset inside a command -/

theorem step_of_cut_command {s : State} {i : Instr} {cause : ResetCause} {ops sent : Nat} {rest : List Event}
    (hp : s.phase = .loop) (hf : s.fstate = .process) (he : s.env = .resetInside cause ops sent :: rest)
    (hi : decode s.cfg (.request s.msg) = .ok i) : step s = interrupted i cause ops sent { s with env := rest } := by
  have hstep : step s = processStep s := by simp only [step, hp, loopStep, if_pos hf]
  rw [hstep]
  simp only [processStep, hi, he]

/-- What a command leaves, cut short or not, before the reset (70_reset R277, 93 U12). -/
structure Interrupted (i : Instr) (s u : State) : Prop where
  touches : Touches i s u
  flash_read : ∀ x, s.OutsideOpenPages x → u.flash.read x = s.flash.read x
  eeprom_read : ∀ size data, i = .programEeprom size data → ∀ x, (∀ k, k < size.toNat → s.eepromTarget k ≠ x) →
    u.eeprom.read x = s.eeprom.read x

theorem interrupted_of_exec {i : Instr} {s u : State} (hs : s.DataInv) (hi : NoReplay (.ok i))
    (h : exec i s = .next u) : Interrupted i s u where
  touches := exec_touches hi h
  flash_read _ hx := exec_flash_read hi hs.flash_wf h hx
  eeprom_read := by
    rintro size data rfl x hx
    exact exec_eeprom_read hs h hx

theorem interrupted_of_cutCommand {i : Instr} {ops : Nat} {s u : State} (hs : s.DataInv) (hi : NoReplay (.ok i))
    (h : cutCommand i ops s = some u) : Interrupted i s u where
  touches := cutCommand_touches hi h
  flash_read _ hx := cutCommand_flash_read hi hs.flash_wf h hx
  eeprom_read := by
    rintro size data rfl x hx
    exact cutCommand_eeprom_read hs h hx

theorem interrupted_leaves {i : Instr} {cause : ResetCause} {ops sent : Nat} {s t : State} (hs : s.DataInv)
    (hi : NoReplay (.ok i)) (h : interrupted i cause ops sent s = .next t) :
    ∃ u, Interrupted i s u ∧ t = u.afterReset cause := by
  obtain ⟨u, hu, rfl⟩ | ⟨u, -, hu, rfl⟩ := interrupted_cases h
  · exact ⟨u, interrupted_of_cutCommand hs hi hu, rfl⟩
  · obtain ⟨htouches, hflash, heeprom⟩ := interrupted_of_exec hs hi hu
    exact ⟨u.sendPart sent, ⟨{ htouches with }, hflash, heeprom⟩, rfl⟩

/-- Settles O49: what the command leaves (`interrupted_leaves`), then the reset's values. -/
theorem resetInsideACommand : Obligations.ResetInsideACommand := by
  intro s t i cause ops sent rest hs hp hf he hi h
  rw [step_of_cut_command hp hf he hi] at h
  have hdata : ({ s with env := rest } : State).DataInv := { hs.data with }
  obtain ⟨u, hu, rfl⟩ := interrupted_leaves hdata (hi ▸ decode_request_noReplay s.cfg s.msg) h
  obtain ⟨haddress, hfrontier, htotal, -, -, hfstate, hexit, hpbuf, hrww, hphase, -, hflash, heeprom, hlock, -, -, -, -,
    henv, -⟩ := resetLeavesTheSpecValues u cause
  refine ⟨henv.trans hu.touches.env, hphase, hfstate, haddress, hfrontier, htotal, hexit, hrww,
    hpbuf.trans (congrArg emptyPbuf hu.touches.cfg), fun hn => hflash.trans (hu.touches.flash hn),
    fun x hx hx' => hflash ▸ hu.flash_read x ⟨hx, hx'⟩, fun hn => heeprom.trans (hu.touches.eeprom hn),
    fun size data hsize x hx => heeprom ▸ hu.eeprom_read size data hsize x hx,
    fun hn => hlock.trans (hu.touches.lockBits hn)⟩

/-! ## The protected region -/

theorem BeforeReset.env {s u : State} {e : Event} {rest : List Event} (h : BeforeReset s e rest u) : u.env = rest := by
  cases h with
  | waiting | untrusted => rfl
  | application =>
    obtain ⟨d, r, f, ep, v, h⟩ := runApplication_state { s with env := rest } e.applicationEffects
    rw [h]
  | command _ _ _ hi hu => exact (cutCommand_touches (hi ▸ decode_request_noReplay s.cfg s.msg) hu).env
  | reply _ _ _ hi hu =>
    exact (exec_touches (s := { s with env := rest }) (hi ▸ decode_request_noReplay s.cfg s.msg) hu).env
  | replay =>
    obtain ⟨f, r, p, k, d, hr⟩ := cutReplay_state s.desc.sourceAddress s.desc.destinationAddress s.desc.remainingSize
      s.desc.flags _ { s with env := rest }.clearWatchdog
    rw [hr]
    rfl

/-- A step takes at most the first event (notes/assumptions/11.md). -/
theorem step_env_suffix {s t : State} (h : step s = .next t) : t.env <:+ s.env := by
  cases steps_of_step h with
  | poll | silent => exact List.tail_suffix _
  | timeout hp he | passes hp he _ => exact he ▸ List.suffix_cons _ _
  | boot => exact List.suffix_refl _
  | firstByte hp he =>
    rw [enterLoop_eq]
    exact he ▸ List.suffix_cons _ _
  | @byte b rest hp hf he =>
    obtain ⟨_, _, _, _, _, _, hd⟩ := decodeByte_state { s with env := rest } b
    rw [hd]
    exact he ▸ List.suffix_cons _ _
  | @guard rest hp hf he =>
    obtain ⟨p, k, -, hg⟩ := receiveGuard_state { s with env := rest }
    rw [hg]
    exact he ▸ List.suffix_cons _ _
  | command hp hf hi hu =>
    rw [finishCommand_eq]
    exact (exec_touches (hi ▸ decode_request_noReplay s.cfg s.msg) hu).env ▸ List.suffix_refl _
  | replay hp hm ht =>
    obtain ⟨f, r, p, k, d, rfl⟩ := execSelfUpdateReplay_state ht
    exact List.suffix_refl _
  | @reset e rest cause u he hc hu =>
    obtain ⟨-, -, -, -, -, -, -, -, henv, -⟩ := afterReset_keeps u cause
    rw [henv, hu.env, he]
    exact List.suffix_cons _ _

theorem execSelfUpdateReplay_protected {source destination : Word} {size : Half} {flags : ReplayFlags} {s t : State}
    (hs : s.DataInv) (h : execSelfUpdateReplay source destination size flags s = .next t) {x : Nat}
    (hx : s.cfg.boundary ≤ x) : t.flash.read x = s.flash.read x := by
  unfold execSelfUpdateReplay at h
  split at h <;> cases h
  · rfl
  · exact (replayPages_replayed hs).kept x hx

/-- What a reset interrupts does not write a protected byte (20_memory R60); nor does the application, by hypothesis. -/
theorem BeforeReset.protected {s u : State} {e : Event} {rest : List Event} (hs : s.Inv) (he : s.env = e :: rest)
    (h : BeforeReset s e rest u) {x : Nat} (hx : s.cfg.boundary ≤ x)
    (happ : ∀ a b, s.applicationNext (.flash a b) → flashIndex s.cfg a.toNat ≠ x) :
    u.flash.read x = s.flash.read x := by
  have hdata : ({ s with env := rest } : State).DataInv := { hs.data with }
  have hout : ({ s with env := rest } : State).OutsideOpenPages x := outsideOpenPages_of_protected hdata.cfg_wf hx
  cases h with
  | waiting | untrusted => rfl
  | application hp =>
    exact runApplication_flash_read hdata.flash_wf fun a b hab => happ a b (applicationNext_of_mem hp he hab)
  | command hp hf _ hi hu =>
    exact cutCommand_flash_read (hi ▸ decode_request_noReplay s.cfg s.msg) hdata.flash_wf hu hout
  | reply hp hf _ hi hu =>
    exact exec_flash_read (s := { s with env := rest }) (hi ▸ decode_request_noReplay s.cfg s.msg) hdata.flash_wf hu hout
  | replay hp hm _ => exact (cutReplay_memory (s := { s with env := rest }.clearWatchdog) { hdata with }).2 x hx

/-- No step writes a protected byte (20_memory R60, 46_self_update R224). -/
theorem step_protected {s t : State} (hs : s.Inv) (h : step s = .next t) {x : Nat} (hx : s.cfg.boundary ≤ x)
    (happ : ∀ a b, s.applicationNext (.flash a b) → flashIndex s.cfg a.toNat ≠ x) :
    t.flash.read x = s.flash.read x := by
  cases steps_of_step h with
  | poll | timeout | silent | boot | passes => rfl
  | firstByte =>
    rw [enterLoop_eq]
  | @byte b rest =>
    obtain ⟨_, _, _, _, _, _, hd⟩ := decodeByte_state { s with env := rest } b
    rw [hd]
  | @guard rest =>
    obtain ⟨p, k, -, hg⟩ := receiveGuard_state { s with env := rest }
    rw [hg]
  | command hp hf hi hu =>
    rw [finishCommand_eq]
    exact exec_flash_read (hi ▸ decode_request_noReplay s.cfg s.msg) hs.data.flash_wf hu
      (outsideOpenPages_of_protected hs.cfg_wf hx)
  | replay hp hm ht => exact execSelfUpdateReplay_protected (s := s.clearWatchdog) { hs.data with } ht hx
  | @reset e rest cause u he hc hu =>
    obtain ⟨-, hflash, -⟩ := afterReset_keeps u cause
    exact hflash ▸ hu.protected hs he hx happ

/-- Settles O54: induction on the number of steps, each of which keeps the invariant and the byte, and takes events away
only. -/
theorem protectedRegionNeverChanges : Obligations.ProtectedRegionNeverChanges := by
  intro s t n x hs h hx happ
  induction n generalizing s with
  | zero =>
    obtain rfl := Host.Outcome.next.inj h
    rfl
  | succ n ih =>
    rw [runSteps] at h
    split at h
    case h_1 u hu =>
      have hcfg : u.cfg = s.cfg := (arraysChangeOnlyByTheirCommands s u hu).1
      have hsub := (step_env_suffix hu).subset
      have hfirst : u.flash.read x = s.flash.read x := by
        refine step_protected hs hu hx ?_
        rintro a b ⟨-, did, cause, rest, he, hab⟩
        exact happ did cause a b (he ▸ List.mem_cons_self) hab
      refine (ih u (stepKeepsInvariant s u hs hu) h (hcfg ▸ hx) fun did cause a b hmem hab => ?_).trans hfirst
      exact hcfg ▸ happ did cause a b (hsub hmem) hab
    all_goals cases h

end Sys2Proof.Machine
end

section
/-! PROOFS. The copying replay: what one page takes from its source, and by induction on the pages the bytes a whole span
holds. -/

namespace Sys2Proof.Machine

/-! ## The source of a fill -/

/-- The byte a fill takes from a source address is a certain one, whatever the page buffer and the free values are
(46_self_update R222). -/
def State.Supplies (s : State) (fromFlash : Bool) (a : Word) (v : Byte) : Prop :=
  ∀ p k, (({ s with pbuf := p, freeCount := k } : State).sourceByte fromFlash a).1 = v

theorem supplies_ram (s : State) (a : Word) : s.Supplies false a (s.ram.read a.toNat) := fun _ _ => rfl

/-- Program memory that the blocked region does not hide supplies its bytes (20_memory R57). -/
theorem supplies_flash {s : State} {a : Word}
    (h : s.rwwBlocked = false ∨ s.cfg.boundary ≤ flashIndex s.cfg a.toNat) :
    s.Supplies true a (s.flash.read (flashIndex s.cfg a.toNat)) := fun p k => by
  have hopen := flashReadByte_open (s := { s with pbuf := p, freeCount := k }) (a := a.toNat) h
  exact congrArg Prod.fst hopen

theorem sourceByte_state (s : State) (fromFlash : Bool) (a : Word) :
    ∃ k, (s.sourceByte fromFlash a).2 = { s with freeCount := k } := by
  cases fromFlash
  · exact ⟨s.freeCount, rfl⟩
  · exact flashReadByte_state s a.toNat

theorem Word.add_ofNat_add (a : Word) (m n : Nat) :
    a + BitVec.ofNat 32 m + BitVec.ofNat 32 n = a + BitVec.ofNat 32 (m + n) := by
  rw [BitVec.add_assoc, BitVec.ofNat_add]

/-- The slots an open page takes, and the bytes among them that the source determines (44_cmd_program R177,
46_self_update R221). -/
theorem copyWords_pbuf {fromFlash : Bool} {k : Nat} {d a : Word} {s : State} (hc : s.cfg.Wf) (hd : d.toNat % 2 = 0) :
    ∃ bs : List Byte, bs.length = 2 * k ∧
      (copyWords fromFlash true k d a s).pbuf = setCells s.pbuf (slotCells s.cfg.pageSize d.toNat bs) ∧
      ∀ i v, i < 2 * k → s.Supplies fromFlash (a + BitVec.ofNat 32 i) v → bs.getD i 0 = v := by
  induction k generalizing d a s with
  | zero => exact ⟨[], rfl, rfl, fun i v hi => by omega⟩
  | succ k ih =>
    obtain ⟨k1, hlo⟩ := sourceByte_state s fromFlash a
    obtain ⟨k2, hhi⟩ := sourceByte_state (s.sourceByte fromFlash a).2 fromFlash (a + 1)
    rw [hlo] at hhi
    have hslot : ∀ {p : Nat}, p ∣ 2 ^ 32 → (d + 2).toNat % p = (d.toNat + 1 + 1) % p := fun hp => by
      rw [BitVec.toNat_add, Nat.mod_mod_of_dvd _ hp]
      rfl
    have hpage : s.cfg.pageSize ∣ 2 ^ 32 := (pageSize_dvd hc).trans (two_pow_bits_dvd _)
    have hd' : (d + 2).toNat % 2 = 0 := by
      rw [hslot (by decide)]
      omega
    rw [copyWords, if_pos rfl, hlo, hhi, pageFill_of_even (by exact hc) hd]
    obtain ⟨bs, hlen, hpbuf, hbs⟩ := ih (a := a + 2) (s := { s with
      pbuf := setCells s.pbuf (slotCells s.cfg.pageSize d.toNat [(s.sourceByte fromFlash a).1,
        (({ s with freeCount := k1 } : State).sourceByte fromFlash (a + 1)).1])
      freeCount := k2 }) hc hd'
    refine ⟨(s.sourceByte fromFlash a).1 :: (({ s with freeCount := k1 } : State).sourceByte fromFlash (a + 1)).1 :: bs,
      by simp only [List.length_cons]; omega, hpbuf.trans ?_, fun i v hi hv => ?_⟩
    · simp only [slotCells_cons, slotCells_congr (hslot hpage), setCells_cons, slotCells_nil, setCells_nil]
    · match i with
      | 0 =>
        rw [BitVec.add_zero] at hv
        exact hv s.pbuf s.freeCount
      | 1 => exact hv s.pbuf k1
      | i + 2 =>
        refine hbs i v (by omega) fun p k => ?_
        have hadd : a + 2 + BitVec.ofNat 32 i = a + BitVec.ofNat 32 (i + 2) := by
          rw [Nat.add_comm i 2]
          exact Word.add_ofNat_add a 2 i
        rw [hadd]
        exact hv p k

/-! ## One page of a copy -/

theorem opened_of_not_erase {s : State} {flags : ReplayFlags} (h : flags.eraseDestination = false) (d : Word) :
    s.opened flags d = s := by
  simp [State.opened, h]

@[simp] theorem opened_ram (s : State) (flags : ReplayFlags) (d : Word) : (s.opened flags d).ram = s.ram := by
  unfold State.opened
  split <;> rfl

@[simp] theorem opened_pbuf (s : State) (flags : ReplayFlags) (d : Word) : (s.opened flags d).pbuf = s.pbuf := by
  unfold State.opened
  split <;> rfl

section
variable {s : State} {flags : ReplayFlags} {d a : Word} {m : Nat}

/-- The page buffer of an aligned open page: the source's bytes, then empty slots. -/
theorem copied_getD (hs : s.DataInv) (hd : d.toNat % s.cfg.pageSize = 0) (hopen : d.toNat < s.cfg.boundary)
    (hm : m % 2 = 0) (hle : m ≤ s.cfg.pageSize) :
    (∀ i v, i < m → (s.opened flags d).Supplies flags.sourceIsProgramMemory (a + BitVec.ofNat 32 i) v →
      (s.copied flags d a m).getD i s.cfg.erasedByte = v) ∧
    ∀ i, m ≤ i → i < s.cfg.pageSize → (s.copied flags d a m).getD i s.cfg.erasedByte = s.cfg.erasedByte := by
  have h2 : 2 ≤ s.cfg.pageSize := hs.cfg_wf.1
  have heven : d.toNat % 2 = 0 := by
    obtain ⟨q, hq⟩ := Nat.dvd_of_mod_eq_zero hd
    rw [hq, Nat.mul_mod, pageSize_even hs.cfg_wf, Nat.zero_mul, Nat.zero_mod]
  have hwords : 2 * ((m + 1) / 2) = m := by omega
  obtain ⟨bs, hlen, hpbuf, hbs⟩ := copyWords_pbuf (fromFlash := flags.sourceIsProgramMemory) (k := (m + 1) / 2) (a := a)
    (s := s.opened flags d) (by rw [opened_cfg]; exact hs.cfg_wf) heven
  rw [hwords] at hlen hbs
  have hslot : ∀ i, i < s.cfg.pageSize → (d.toNat + i) % s.cfg.pageSize = i := fun i hi => by
    rw [Nat.add_mod, hd, Nat.zero_add, Nat.mod_mod, Nat.mod_eq_of_lt hi]
  have hcopied : s.copied flags d a m = setCells (emptyPbuf s.cfg) (slotCells s.cfg.pageSize d.toNat bs) := by
    rw [State.copied, pageOf_of_aligned hd, decide_eq_true hopen, hpbuf, opened_pbuf, opened_cfg, hs.pbuf_empty]
  rw [hcopied]
  refine ⟨fun i v hi hv => ?_, fun i hi hlt => ?_⟩
  · have hlast := setCells_slotCells_last (m := emptyPbuf s.cfg) (bs := bs) (a := d.toNat) (i := i)
      (d := s.cfg.erasedByte) (e := 0) (by omega) (emptyPbuf_length _) (by omega) fun j hj hjlen => by
        rw [hslot j (by omega), hslot i (by omega)]
        omega
    rw [hslot i (by omega)] at hlast
    exact hlast.trans (hbs i v hi hv)
  · rw [setCells_slotCells_of_ne fun j hj => by rw [hslot j (by omega)]; omega, emptyPbuf_getD]

/-- An aligned open page of a copy: its bytes of the span, the rest of the page, and every other byte. -/
theorem replayPage_read_of_copy (hs : s.DataInv) (hcopy : flags.copyData = true) (hd : d.toNat % s.cfg.pageSize = 0)
    (hopen : d.toNat < s.cfg.boundary) (hm : m % 2 = 0) (hle : m ≤ s.cfg.pageSize) :
    (∀ i v, i < m → (s.opened flags d).Supplies flags.sourceIsProgramMemory (a + BitVec.ofNat 32 i) v →
      (s.replayPage flags d a m).flash.read (d.toNat + i) = s.beforeCopy flags (d.toNat + i) &&& v) ∧
    (∀ x, d.toNat + m ≤ x → x < d.toNat + s.cfg.pageSize →
      (s.replayPage flags d a m).flash.read x = s.beforeCopy flags x &&& s.cfg.erasedByte) ∧
    ∀ x, x < d.toNat ∨ d.toNat + s.cfg.pageSize ≤ x → (s.replayPage flags d a m).flash.read x = s.flash.read x := by
  obtain ⟨hspan, hrest⟩ := copied_getD (flags := flags) (a := a) hs hd hopen hm hle
  have hread := replayPage_read hs.flash_wf flags d a m
  simp only [pageOf_of_aligned hd, hopen, true_and, hcopy, if_true, inPageOf] at hread
  refine ⟨fun i v hi hv => ?_, fun x hx hlt => ?_, fun x hx => ?_⟩
  · rw [hread, if_pos ⟨by omega, by omega⟩, Nat.add_sub_cancel_left, hspan i v hi hv]
  · rw [hread, if_pos ⟨by omega, hlt⟩, hrest _ (by omega) (by omega)]
  · rw [hread, if_neg (by omega)]

end

/-! ## The pages of a copy -/

/-- The state `u` in which byte `i` of the span from `d` is filled, in a replay from `s` to `t` (46_self_update R222): the
pages before that byte's are done. -/
structure State.FilledIn (s t u : State) (flags : ReplayFlags) (d i : Nat) : Prop where
  cfg : u.cfg = s.cfg
  ram : u.ram = s.ram
  enabled : flags.eraseDestination = false → s.rwwBlocked = false → u.rwwBlocked = false
  kept : ∀ x, s.cfg.boundary ≤ x → u.flash.read x = s.flash.read x
  flash : flags.eraseDestination = false → ∀ x, u.flash.read x =
    if d ≤ x ∧ x < pageOf s.cfg (d + i) then t.flash.read x else s.flash.read x

/-- What a copying replay of `n` bytes leaves in flash (46_self_update R219, R221). -/
structure State.CopiedSpan (s t : State) (flags : ReplayFlags) (d : Nat) (a : Word) (n : Nat) : Prop where
  span : ∀ i, i < n → ∃ u, s.FilledIn t u flags d i ∧
    ∀ v, u.Supplies flags.sourceIsProgramMemory (a + BitVec.ofNat 32 i) v →
      t.flash.read (d + i) = s.beforeCopy flags (d + i) &&& v
  rest : ∀ x, d + n ≤ x → x < pageOf s.cfg (d + n - 1) + s.cfg.pageSize →
    t.flash.read x = s.beforeCopy flags x &&& s.cfg.erasedByte
  outside : ∀ x, x < d ∨ pageOf s.cfg (d + n - 1) + s.cfg.pageSize ≤ x → t.flash.read x = s.flash.read x

section
variable {s : State} {flags : ReplayFlags} {d a : Word}

/-- The page of a byte of an aligned page. -/
theorem pageOf_of_aligned_add {c : Config} {b i : Nat} (hb : b % c.pageSize = 0) (hi : i < c.pageSize) :
    pageOf c (b + i) = b :=
  ((inPageOf_iff (Nat.zero_lt_of_lt hi) b (b + i)).1 ⟨by rw [pageOf_of_aligned hb]; omega,
    by rw [pageOf_of_aligned hb]; omega⟩).trans (pageOf_of_aligned hb)

/-- The bytes of the first page are filled after its erase only, so its state is `opened`. -/
theorem filledIn_opened (hs : s.DataInv) (hd : d.toNat % s.cfg.pageSize = 0) (hopen : d.toNat < s.cfg.boundary)
    {i : Nat} (hi : i < s.cfg.pageSize) (t : State) : s.FilledIn t (s.opened flags d) flags d.toNat i where
  cfg := opened_cfg s flags d
  ram := opened_ram s flags d
  enabled he hr := by rw [opened_of_not_erase he, hr]
  kept x hx := by
    have hend := page_end_le hd hs.cfg_wf.2.2.2.1 hopen
    rw [opened_read hs.flash_wf, if_neg]
    rintro ⟨-, -, hlt⟩
    rw [pageOf_of_aligned hd] at hlt
    omega
  flash he x := by rw [opened_of_not_erase he, pageOf_of_aligned_add hd hi, if_neg (by omega)]

/-- A span within one page. -/
theorem copiedSpan_of_page (hs : s.DataInv) (hcopy : flags.copyData = true) (hd : d.toNat % s.cfg.pageSize = 0)
    (hopen : d.toNat < s.cfg.boundary) {m : Nat} (hm : m % 2 = 0) (hpos : m ≠ 0) (hle : m ≤ s.cfg.pageSize) :
    s.CopiedSpan (s.replayPage flags d a m) flags d.toNat a m := by
  obtain ⟨hspan, hrest, hout⟩ := replayPage_read_of_copy (a := a) hs hcopy hd hopen hm hle
  have hlast : pageOf s.cfg (d.toNat + m - 1) = d.toNat := by
    rw [Nat.add_sub_assoc (by omega), pageOf_of_aligned_add hd (by omega)]
  exact
    { span := fun i hi => ⟨_, filledIn_opened hs hd hopen (by omega) _, fun v hv => hspan i v hi hv⟩
      rest := fun x hx hlt => hrest x hx (hlast ▸ hlt)
      outside := fun x hx => hout x (by rwa [hlast] at hx) }

/-- A first page, then the rest of the span. -/
theorem State.CopiedSpan.cons {t : State} (hs : s.DataInv) (hcopy : flags.copyData = true)
    (hd : d.toNat % s.cfg.pageSize = 0) (hopen : d.toNat < s.cfg.boundary) {n : Nat} (hn : s.cfg.pageSize < n)
    (h : (s.replayPage flags d a s.cfg.pageSize).CopiedSpan t flags (d.toNat + s.cfg.pageSize)
      (a + BitVec.ofNat 32 s.cfg.pageSize) (n - s.cfg.pageSize)) : s.CopiedSpan t flags d.toNat a n := by
  have hpage := replayPage_replayed hs flags d a s.cfg.pageSize
  obtain ⟨hspan, -, hout⟩ := replayPage_read_of_copy (a := a) hs hcopy hd hopen (pageSize_even hs.cfg_wf) (Nat.le_refl _)
  have hram : (s.replayPage flags d a s.cfg.pageSize).ram = s.ram := by rw [hpage.state]
  have henabled : (s.replayPage flags d a s.cfg.pageSize).rwwBlocked = false := by
    obtain ⟨f, k, hp⟩ := replayPage_state s flags d a s.cfg.pageSize
    rw [hp]
  have hcfg := hpage.cfg
  have hkept := hpage.kept
  generalize s.replayPage flags d a s.cfg.pageSize = s1 at h hspan hout hram henabled hcfg hkept
  have hbefore : ∀ x, d.toNat + s.cfg.pageSize ≤ x → s1.beforeCopy flags x = s.beforeCopy flags x := fun x hx => by
    rw [State.beforeCopy, State.beforeCopy, hcfg, hout x (.inr hx)]
  have hp : 0 < s.cfg.pageSize := Nat.zero_lt_of_lt hs.cfg_wf.1
  have hend : d.toNat + s.cfg.pageSize + (n - s.cfg.pageSize) = d.toNat + n := by omega
  have hlast := lt_pageOf_add hp (d.toNat + n - 1)
  obtain ⟨hrestspan, hrest, hrestout⟩ := h
  rw [hcfg, hend] at hrestout
  rw [hend, hcfg] at hrest
  refine ⟨fun i hi => ?_, fun x hx hlt => ?_, fun x hx => ?_⟩
  · by_cases hfirst : i < s.cfg.pageSize
    · exact ⟨_, filledIn_opened hs hd hopen hfirst t, fun v hv =>
        (hrestout _ (.inl (by omega))).trans (hspan i v hfirst hv)⟩
    · obtain ⟨u, hu, hv⟩ := hrestspan (i - s.cfg.pageSize) (by omega)
      have hi' : d.toNat + s.cfg.pageSize + (i - s.cfg.pageSize) = d.toNat + i := by omega
      have ha : a + BitVec.ofNat 32 s.cfg.pageSize + BitVec.ofNat 32 (i - s.cfg.pageSize) = a + BitVec.ofNat 32 i := by
        rw [Word.add_ofNat_add, Nat.add_sub_cancel' (by omega)]
      rw [hi', hbefore _ (by omega), ha] at hv
      refine ⟨u, ⟨hu.cfg.trans hcfg, hu.ram.trans hram, fun he _ => hu.enabled he henabled,
        fun x hx => (hu.kept x (hcfg ▸ hx)).trans (hkept x hx), fun he x => ?_⟩, hv⟩
      have hfill := hu.flash he x
      rw [hcfg, hi'] at hfill
      have hpages : d.toNat + s.cfg.pageSize ≤ pageOf s.cfg (d.toNat + i) := by
        have := lt_pageOf_add hp (d.toNat + i)
        exact page_end_le hd (pageOf_mod s.cfg (d.toNat + i)) (by omega)
      have hbelow := hrestout x
      have hother := hout x
      grind
  · rw [hrest x hx hlt, hbefore x (by omega)]
  · rw [hrestout x (by omega), hout x (by omega)]

theorem replayPages_zero (flags : ReplayFlags) (fuel : Nat) (d a : Word) (s : State) :
    replayPages flags fuel d a 0 s = s := by
  cases fuel <;> rfl

/-- Over an even number of bytes a copy advances by that number (46_self_update R218). -/
theorem destinationStep_of_copy {flags : ReplayFlags} (hcopy : flags.copyData = true) {m : Nat} (hm : m % 2 = 0) :
    destinationStep flags m = BitVec.ofNat 32 m := by
  have hwords : 2 * ((m + 1) / 2) = m := by omega
  rw [destinationStep, if_pos hcopy, hwords]

theorem sourceStep_of_copy {flags : ReplayFlags} (hcopy : flags.copyData = true) {m : Nat} (hm : m % 2 = 0) :
    sourceStep flags m = BitVec.ofNat 32 m := by
  have hwords : 2 * ((m + 1) / 2) = m := by omega
  rw [sourceStep, if_pos hcopy, hwords]

/-- A copying replay of an aligned, even span below the boundary, by induction on its pages. -/
theorem replayPages_copiedSpan {flags : ReplayFlags} (hcopy : flags.copyData = true) {fuel : Nat} {d a : Word} {n : Nat}
    {s : State} (hs : s.DataInv) (hd : d.toNat % s.cfg.pageSize = 0) (heven : n % 2 = 0) (hpos : n ≠ 0)
    (hfuel : n ≤ fuel) (hspan : d.toNat + n ≤ s.cfg.boundary) :
    s.CopiedSpan (replayPages flags fuel d a n s) flags d.toNat a n := by
  induction fuel generalizing d a n s with
  | zero => omega
  | succ fuel ih =>
    obtain ⟨h2, -, -, -, -, -, hlt, -⟩ := hs.cfg_wf
    have hbits : 2 ^ s.cfg.addrWidth.bits ≤ 2 ^ 32 := Nat.pow_le_pow_right (by decide) (bits_le _)
    have hopen : d.toNat < s.cfg.boundary := by omega
    rw [replayPages, if_neg hpos]
    dsimp only
    by_cases hle : n ≤ s.cfg.pageSize
    · have hm : spanInPage s.cfg d n = n := by rw [spanInPage, pageOf_of_aligned hd]; omega
      rw [hm, Nat.sub_self, replayPages_zero]
      exact copiedSpan_of_page hs hcopy hd hopen heven hpos hle
    · have hpage := replayPage_replayed hs flags d a s.cfg.pageSize
      have hm : spanInPage s.cfg d n = s.cfg.pageSize := by rw [spanInPage, pageOf_of_aligned hd]; omega
      obtain ⟨-, hnext⟩ := next_page (c := s.cfg) (d := d) (n := n) (by omega) (by omega) (by omega)
      rw [hm, pageOf_of_aligned hd] at hnext
      have hp := pageSize_even hs.cfg_wf
      rw [hm, destinationStep_of_copy hcopy hp, sourceStep_of_copy hcopy hp]
      refine State.CopiedSpan.cons hs hcopy hd hopen (by omega) ?_
      rw [← hnext]
      refine ih hpage.data ?_ (by omega) (by omega) (by omega) ?_
      · rw [hpage.cfg, hnext, Nat.add_mod_right, hd]
      · rw [hpage.cfg, hnext]
        omega

end

theorem exec_copyingReplay {source destination : Word} {size : Half} {flags : ReplayFlags} {s t : State} (hs : s.Inv)
    (hdefer : flags.deferRun = false) (hcopy : flags.copyData = true) (hd : destination.toNat % s.cfg.pageSize = 0)
    (heven : size.toNat % 2 = 0) (hpos : 0 < size.toNat) (hspan : destination.toNat + size.toNat ≤ s.cfg.boundary)
    (h : exec (.selfUpdateReplay source destination size flags) s = .next t) :
    s.CopiedSpan t flags destination.toNat source size.toNat := by
  rw [exec, execSelfUpdateReplay, if_neg (by simp [hdefer])] at h
  obtain rfl := Host.Outcome.next.inj h
  have hpages := replayPages_copiedSpan (a := source) hcopy hs.data hd heven hpos.ne' (Nat.le_refl _) hspan
  exact { hpages with span := fun i hi => have ⟨u, hu, hv⟩ := hpages.span i hi; ⟨u, { hu with }, hv⟩ }

/-- Settles O40: RAM supplies its bytes at any moment of the replay. -/
theorem copyReplayCopiesFromRam : Obligations.CopyReplayCopiesFromRam := by
  intro s t source destination size flags hs hdefer hcopy hram hd heven hpos hspan h
  obtain ⟨hcopied, hrest, hout⟩ := exec_copyingReplay hs hdefer hcopy hd heven hpos hspan h
  have hbytes : ∀ i, i < size.toNat → t.flash.read (destination.toNat + i) =
      s.beforeCopy flags (destination.toNat + i) &&& s.ram.read (source + BitVec.ofNat 32 i).toNat := fun i hi => by
    obtain ⟨u, hu, hv⟩ := hcopied i hi
    rw [hram] at hv
    rw [hv _ (supplies_ram u _), hu.ram]
  refine ⟨hbytes, ⟨hrest, hout⟩, fun he hff i hi => ?_⟩
  rw [hbytes i hi, State.beforeCopy, if_pos he, hff, erased_and]

/-- Settles O59: protected bytes are supplied at any moment, the others when nothing is erased and the region is
enabled. -/
theorem copyReplayCopiesFromFlash : Obligations.CopyReplayCopiesFromFlash := by
  intro s t source destination size flags hs hdefer hcopy hflash hd heven hpos hspan h
  obtain ⟨hcopied, hrest, hout⟩ := exec_copyingReplay hs hdefer hcopy hd heven hpos hspan h
  refine ⟨fun i hi => ?_, hrest, hout⟩
  obtain ⟨u, hu, hv⟩ := hcopied i hi
  rw [hflash] at hv
  have hsupplies := supplies_flash (s := u) (a := source + BitVec.ofNat 32 i)
  rw [hu.cfg] at hsupplies
  refine ⟨fun hx => ?_, fun _ he hr => ?_⟩
  · rw [hv _ (hsupplies (.inr hx)), hu.kept _ hx]
  · rw [hv _ (hsupplies (.inl (hu.enabled he hr))), hu.flash he, State.beforeCopy, if_neg (by simp [he])]

end Sys2Proof.Machine
end
